-- ==== Sys2Proof/Word.lean ====
section
/-! DEFINITION. The word types of the block: registers, stream bytes, codes (00_scope R10, R11, R12). -/

namespace Sys2Proof

/-- A host register value, REG_W = 32 bits (R10). -/
abbrev Word := BitVec 32

/-- A stream byte, which is also a symbol 0..255 (R10, R15). -/
abbrev Byte := BitVec 8

/-- A code: the bits `c[0], c[1], …`, first bit (the one taken at the root) at the head.
`false` is 0 (left), `true` is 1 (right) (R12). -/
abbrev Code := List Bool

end Sys2Proof
end

