-- ==== Sys2Proof/Config.lean ====
section
/-! DEFINITION. The parameters of the instance (00_scope R10) and the identity constant (10_state R21). -/

namespace Sys2Proof

/-- NODE_CAP: entries of the node arena (R10, R30). -/
abbrev Config.nodeCap : Nat := 511

/-- NSYM: symbols, and entries of the lookup table and the leaf map (R10). -/
abbrev Config.nsym : Nat := 256

/-- MAX_CODE_LEN: the longest code, in bits (R10). -/
abbrev Config.maxCodeLen : Nat := 255

/-- The largest value of a 32-bit counter (COUNT_W of R10). -/
abbrev Config.countMax : Nat := 0xFFFFFFFF

/-- The ID register's constant (R21). -/
def Config.idWord : Word := 0x48554631

/-- How far IN_DEPTH lies above its least value 1 (R10: OPEN, 1 <= IN_DEPTH <= 65535).
DESIGN CHOICE, safe (log 4): no body, so nothing can be proved of it but its range. -/
opaque Config.inDepthFree : Fin 65535

/-- How far OUT_DEPTH lies above its least value 34 (R10: OPEN, 34 <= OUT_DEPTH <= 65535).
DESIGN CHOICE, safe (log 4): no body, so nothing can be proved of it but its range. -/
opaque Config.outDepthFree : Fin 65502

/-- IN_DEPTH, the capacity of in_q (R10, R43). -/
def Config.inDepth : Nat := Config.inDepthFree.val + 1

/-- OUT_DEPTH, the capacity of out_q (R10, R43). -/
def Config.outDepth : Nat := Config.outDepthFree.val + 34

theorem Config.inDepth_pos : 1 ≤ Config.inDepth := by
  unfold Config.inDepth; omega

theorem Config.inDepth_le : Config.inDepth ≤ 65535 := by
  have := Config.inDepthFree.isLt
  unfold Config.inDepth; omega

theorem Config.outDepth_ge : 34 ≤ Config.outDepth := by
  unfold Config.outDepth; omega

theorem Config.outDepth_le : Config.outDepth ≤ 65535 := by
  have := Config.outDepthFree.isLt
  unfold Config.outDepth; omega

end Sys2Proof
end

