-- ==== Sys2Proof/Syntax.lean ====
section
/-! DEFINITION. The block's instructions: one constructor per row of spec/opcode_table.json
(30_encoding R91 for the CMD words, R94 for the CTRL actions). -/

namespace Sys2Proof

/-- The two word formats (30_encoding R90, R94): which register a word is written to decides how it decodes. -/
inductive Format where
  | cmd32   -- written to CMD (0x10)
  | ctrl32  -- written to CTRL (0x08)
deriving DecidableEq, Repr

/-- An instruction: a command of the CMD register or an action of the CTRL register. -/
inductive Instr where
  /-- NOP, OPCODE 0x00 (R210). -/
  | nop
  /-- TREE_CLEAR, OPCODE 0x01 (R130). -/
  | treeClear
  /-- TREE_INSERT, OPCODE 0x02, with the fields SYM and LEN (R131). -/
  | treeInsert (sym : Byte) (len : Nat)
  /-- WALK, OPCODE 0x03, with the field EMIT (R150). -/
  | walk (emit : Bool)
  /-- LOOKUP, OPCODE 0x04, with the field SYM (R157). -/
  | lookup (sym : Byte)
  /-- ENCODE, OPCODE 0x05 (R170). -/
  | encode
  /-- FLUSH, OPCODE 0x06 (R176). -/
  | flush
  /-- DECODE, OPCODE 0x07 (R190). -/
  | decode
  /-- CLEAR_ERR, OPCODE 0x08 (R211). -/
  | clearErr
  /-- ENC_RESET, OPCODE 0x09 (R178). -/
  | encReset
  /-- SOFT_RESET, CTRL bit 0 (R215). -/
  | softReset
  /-- ABORT, CTRL bit 1 (R216). -/
  | abort
deriving DecidableEq, Repr

/-- The format an instruction's word has: the CTRL actions are not commands (R94). -/
def Instr.format : Instr → Format
  | .nop => .cmd32
  | .treeClear => .cmd32
  | .treeInsert _ _ => .cmd32
  | .walk _ => .cmd32
  | .lookup _ => .cmd32
  | .encode => .cmd32
  | .flush => .cmd32
  | .decode => .cmd32
  | .clearErr => .cmd32
  | .encReset => .cmd32
  | .softReset => .ctrl32
  | .abort => .ctrl32

end Sys2Proof
end

