-- ==== Sys2Proof/WellFormed.lean ====
section
/-! DEFINITION. Which terms of `Instr` an encoding exists for. -/

namespace Sys2Proof

/-- The one bound the types do not already hold: LEN is an 8-bit field, 0..255 (30_encoding R90), which is
also MAX_CODE_LEN (00_scope R10). SYM is a `Byte` and EMIT a `Bool`. -/
def Instr.WellFormed : Instr → Bool
  | .nop => true
  | .treeClear => true
  | .treeInsert _ len => decide (len ≤ Config.maxCodeLen)
  | .walk _ => true
  | .lookup _ => true
  | .encode => true
  | .flush => true
  | .decode => true
  | .clearErr => true
  | .encReset => true
  | .softReset => true
  | .abort => true

end Sys2Proof
end

