-- ==== Sys2Proof/Decode.lean ====
section
/-! DEFINITION. Decoding of the CMD and CTRL words, and the encoder (30_encoding R90 to R94, R101). -/

namespace Sys2Proof

/-- Why a word is no instruction. -/
inductive Reject where
  /-- CMD word with RSVD, bits 31:25, not 0 (R93). -/
  | reservedBits
  /-- CMD word with OPCODE 0x0A..0xFF (R93). -/
  | opcode
  /-- CTRL word with bits 0 and 1 both 0: no action (R94). -/
  | noAction
deriving DecidableEq, Repr

/-! ### The fields of a CMD word (R90) -/

/-- OPCODE, bits 7:0. -/
def fieldOpcode (w : Word) : BitVec 8 := w.extractLsb' 0 8
/-- SYM, bits 15:8. -/
def fieldSym (w : Word) : Byte := w.extractLsb' 8 8
/-- LEN, bits 23:16. -/
def fieldLen (w : Word) : BitVec 8 := w.extractLsb' 16 8
/-- EMIT, bit 24. -/
def fieldEmit (w : Word) : Bool := w.getLsbD 24
/-- RSVD, bits 31:25. -/
def fieldRsvd (w : Word) : BitVec 7 := w.extractLsb' 25 7

/-- The opcode map (R91). Fields an opcode does not use are not looked at (R92). -/
def decodeOpcode (w : Word) : Except Reject Instr :=
  match (fieldOpcode w).toNat with
  | 0x00 => .ok .nop
  | 0x01 => .ok .treeClear
  | 0x02 => .ok (.treeInsert (fieldSym w) (fieldLen w).toNat)
  | 0x03 => .ok (.walk (fieldEmit w))
  | 0x04 => .ok (.lookup (fieldSym w))
  | 0x05 => .ok .encode
  | 0x06 => .ok .flush
  | 0x07 => .ok .decode
  | 0x08 => .ok .clearErr
  | 0x09 => .ok .encReset
  | _ => .error .opcode

/-- A CMD word: illegal when RSVD != 0 or the opcode is not in the map (R93, R213). -/
def decodeCmd (w : Word) : Except Reject Instr :=
  if fieldRsvd w = 0 then decodeOpcode w else .error .reservedBits

/-- A CTRL word: bit 0 is SOFT_RESET whatever bit 1 holds, else bit 1 is ABORT; bits 31:2 are ignored (R94). -/
def decodeCtrl (w : Word) : Except Reject Instr :=
  if w.getLsbD 0 then .ok .softReset
  else if w.getLsbD 1 then .ok .abort
  else .error .noAction

/-- A word decodes by the register it is written to, and by nothing else (R101). -/
def decodeWord (f : Format) (w : Word) : Except Reject Instr :=
  match f with
  | .cmd32 => decodeCmd w
  | .ctrl32 => decodeCtrl w

/-- The register word carried by the four byte lanes of the bus, lane 0 first (20_memory R65). -/
def wordOfLanes (b0 b1 b2 b3 : Byte) : Word := b3 ++ b2 ++ b1 ++ b0

/-- Decoding from the bytes on the bus: a command is exactly one 32-bit word (R101), so any other number of
bytes is no instruction. -/
def decodeLanes (f : Format) : List Byte → Option (Except Reject Instr)
  | [b0, b1, b2, b3] => some (decodeWord f (wordOfLanes b0 b1 b2 b3))
  | _ => none

/-! ### The encoder -/

/-- A CMD word from its fields, RSVD = 0 (R90). -/
def cmdWord (opcode sym len : BitVec 8) (emit : Bool) : Word :=
  (0#7 : BitVec 7) ++ BitVec.ofBool emit ++ len ++ sym ++ opcode

/-- The word of an instruction, every field its opcode does not use 0 (R90, R91, R94, R103). -/
def encode : Instr → Word
  | .nop => cmdWord 0x00 0 0 false
  | .treeClear => cmdWord 0x01 0 0 false
  | .treeInsert sym len => cmdWord 0x02 sym (BitVec.ofNat 8 len) false
  | .walk emit => cmdWord 0x03 0 0 emit
  | .lookup sym => cmdWord 0x04 sym 0 false
  | .encode => cmdWord 0x05 0 0 false
  | .flush => cmdWord 0x06 0 0 false
  | .decode => cmdWord 0x07 0 0 false
  | .clearErr => cmdWord 0x08 0 0 false
  | .encReset => cmdWord 0x09 0 0 false
  | .softReset => 0x00000001
  | .abort => 0x00000002

/-! ### The host's view of the opcode table -/

/-- The format of a row of opcode_table.json whose bits, in whole bytes, are `nbits`: the CMD32 rows fix RSVD,
bits 31:25, and so have 32 bits; the CTRL32 rows give bits 0 and 1 only, one byte. DESIGN CHOICE, safe (log 6):
a word of the table names no register, and the two formats share words. -/
def tableFormat (nbits : Nat) : Format := if nbits < 32 then .ctrl32 else .cmd32

/-- The word whose low `nbits` bits are those of `w`, the rest 0. -/
def tableWord (nbits w : Nat) : Word := BitVec.ofNat 32 (w % 2 ^ nbits)

/-- The instruction the decoder reads from a table row's word (none where it refuses). -/
def decodeTableWord (nbits w : Nat) : Option Instr :=
  match decodeWord (tableFormat nbits) (tableWord nbits w) with
  | .ok i => some i
  | .error _ => none

end Sys2Proof
end

