-- ==== Sys2Proof/Machine/State.lean ====
section
/-! DEFINITION. The state of the block (10_state), the reasons a step can stop, and the reset state (70_reset R290). -/

namespace Sys2Proof.Machine

/-! ### The code tree -/

/-- A node index, 0..510. NIL (511) is `none` of `Option NodeIdx` (R30). -/
abbrev NodeIdx := Fin Config.nodeCap

/-- An arena entry (R31). -/
inductive Node where
  | free
  | internal (left right : Option NodeIdx)
  | leaf (sym : Byte)
deriving DecidableEq, Repr

/-! ### The command engine -/

/-- The latched command L (R41). -/
structure Latched where
  word : Word
  arg0 : Word
  arg1 : Word
  code : Vector Word 8
deriving DecidableEq, Repr

/-- A WALK emission record: a leaf's symbol and its code (30_encoding R97). -/
structure Record where
  sym : Byte
  code : Code
deriving DecidableEq, Repr

/-- The engine state (R40). The counts are 32 bits wide in the block; see log 14. -/
inductive Engine where
  /-- no command accepted and unfinished -/
  | idle
  /-- a command is latched and not yet started -/
  | pending (L : Latched)
  /-- ENCODE has `rem` input bytes still to take; `j` is the index of the next one -/
  | enc (L : Latched) (rem j : Nat)
  /-- DECODE has `remBits` payload bits still to take; `i` is the index of the next bit, `cur` the tree cursor,
  `start` the index of the first bit of the code being walked -/
  | dec (L : Latched) (remBits i : Nat) (cur : NodeIdx) (start : Nat)
  /-- DECODE of a root-is-leaf tree has `rem` symbols still to push -/
  | decLeaf (L : Latched) (rem : Nat) (sym : Byte)
  /-- WALK with EMIT has the records `q` still to push -/
  | walk (L : Latched) (q : List Record)
  /-- a streaming command hit an error; `rem` input bytes are still to be taken and discarded -/
  | drain (L : Latched) (rem : Nat)
deriving DecidableEq, Repr

/-! ### Errors -/

/-- The error codes STATUS.ERRCODE can hold (60_exceptions R260); 0xD..0xF are never recorded. -/
inductive ErrCode where
  | noError | formatPrefix | formatDupCode | formatDupSymbol | structural | truncated | unknownSymbol
  | invalidCode | capacity | notReady | illegalCmd | bitcountOverflow | aborted
deriving DecidableEq, Repr

/-! ### The host agent -/

/-- One atomic step of the host (20_memory R62, R66, R67; 70_reset R291). -/
inductive HostStep where
  /-- `MemRead(addr, n)`, n bytes at a byte offset of the register space -/
  | read (addr : BitVec 7) (n : Nat)
  /-- `MemWrite(addr, n, v)` with the write strobes -/
  | write (addr : BitVec 7) (n : Nat) (strb : BitVec 4) (v : Word)
  /-- push one byte into the input stream -/
  | push (b : Byte)
  /-- pop one byte from the output stream -/
  | pop
  /-- assert rst_n -/
  | reset
deriving DecidableEq, Repr

/-- Whose step is next, and which one (R8, R73). DESIGN CHOICE, safe (log 1). -/
inductive Turn where
  | engine
  | host (h : HostStep)
deriving DecidableEq, Repr

/-- What the host sees of its own step at the ports. DESIGN CHOICE, safe (log 2). -/
inductive Response where
  /-- a read completed with this value on prdata -/
  | rdata (v : Word)
  /-- a write completed without bus error -/
  | written
  /-- pslverr = 1 (R63); a read returns 0 -/
  | busError
  /-- the byte offered was taken -/
  | pushed
  /-- in_tready = 0: no transfer (R66) -/
  | pushBlocked
  /-- the byte popped -/
  | popped (b : Byte)
  /-- out_tvalid = 0: no transfer (R67) -/
  | popBlocked
  /-- the reset step -/
  | resetDone
deriving DecidableEq, Repr

/-! ### The state -/

/-- Everything the spec gives the block (10_state, 70_reset R290), and the model's own two fields for the host
agent, `turns` and `responses`. -/
structure State where
  /-- ARG0 (R26) -/
  arg0 : Word
  /-- ARG1 (R27) -/
  arg1 : Word
  /-- RESULT (R28) -/
  result : Word
  /-- CODE0..CODE7 (R45) -/
  codeBuf : Vector Word 8
  /-- the sticky error flag (R42) -/
  err : Bool
  /-- the recorded error code (R42) -/
  errcode : ErrCode
  /-- ERR_INFO (R29, R42) -/
  errInfo : Word
  /-- the sticky command-overrun flag (R42) -/
  ovr : Bool
  /-- the node arena `node[0..510]` (R30) -/
  arena : Vector Node Config.nodeCap
  /-- NODE_COUNT (R32) -/
  nodeCount : Nat
  /-- the leaf map `leafmap[0..255]` (R35) -/
  leafmap : Vector Bool Config.nsym
  /-- the code lookup table `clt[0..255]` (R33): `none` is valid = 0, `some c` is valid = 1 with code `c` -/
  clt : Vector (Option Code) Config.nsym
  /-- the lookup-table valid flag (R34) -/
  cltValid : Bool
  /-- the bit-packer's byte (R36) -/
  packAcc : Byte
  /-- the bits held in the bit-packer (R36) -/
  packCnt : Fin 8
  /-- ENC_BITCOUNT (R37) -/
  encBitcount : Word
  /-- ENC_LASTBITS (R38) -/
  encLastbits : Word
  /-- DEC_SYMCOUNT (R39) -/
  decSymcount : Word
  /-- the command engine's state (R40) -/
  engine : Engine
  /-- the input stream buffer, oldest byte first (R43) -/
  inQ : List Byte
  /-- the output stream buffer, oldest byte first (R43) -/
  outQ : List Byte
  /-- the MODEL'S OWN: the steps still to come, in order (log 1) -/
  turns : List Turn
  /-- the MODEL'S OWN: what the host has seen so far, oldest first (log 2) -/
  responses : List Response
deriving DecidableEq, Repr

/-- The arena of the empty tree: the root Internal with no child, every other entry Free (R32). -/
def emptyArena : Vector Node Config.nodeCap :=
  (Vector.replicate Config.nodeCap Node.free).set 0 (.internal none none)

/-- The state right after reset, as 70_reset R290 lists it. The model's own fields are empty (log 1, log 2). -/
def State.reset : State where
  arg0 := 0
  arg1 := 0
  result := 0
  codeBuf := Vector.replicate 8 0
  err := false
  errcode := .noError
  errInfo := 0
  ovr := false
  arena := emptyArena
  nodeCount := 1
  leafmap := Vector.replicate Config.nsym false
  clt := Vector.replicate Config.nsym none
  cltValid := false
  packAcc := 0
  packCnt := 0
  encBitcount := 0
  encLastbits := 0
  decSymcount := 0
  engine := .idle
  inQ := []
  outQ := []
  turns := []
  responses := []

/-! ### How a step can stop -/

/-- Stops of the machine. Neither is an error of the spec's (those are recorded by `raise` and the block goes on):
both stand for shapes of the arena that the spec says no run reaches (log 8). -/
inductive Fault where
  /-- A command followed an index to a Free entry: 40_code_tree R121 calls this unreachable.
  Raised by TREE_INSERT, WALK and the DECODE beat. Safe: the model stops where the spec gives no effect. -/
  | freeNode
  /-- WALK met a node deeper than MAX_CODE_LEN, which 10_state R47 item 7 rules out.
  Raised by WALK. Safe: the model stops where the spec gives no effect. -/
  | treeDepth
deriving DecidableEq, Repr

/-- Requests the model has no meaning for. -/
inductive Refusal where
  /-- An instruction without a meaning yet, by its mnemonic. Raised by no arm of exec: every instruction has one. Safe. -/
  | notModelled (mnemonic : String)
  /-- A CMD32 instruction was handed to exec while the engine is not in state PENDING: 45_control R213 gives a
  start step in that state only. Raised by the ten commands; `step` never asks for it (log 7). Safe. -/
  | noStartStep
deriving DecidableEq, Repr

end Sys2Proof.Machine
end

