-- ==== Sys2Proof/Machine/Ops.lean ====
section
/-! DEFINITION. The shared operations over the state: errors, reset, the code tree, the stream buffers, the engine. -/

namespace Sys2Proof.Machine

/-- What a step answers. -/
abbrev StepResult := Host.Outcome State Fault Refusal

/-! ### Errors (60_exceptions R262) -/

/-- `raise E(info)`: the first error since the last clear is recorded, a later one is not (R262). It is the whole
of the block's error entry: no vector, no saved position, no mode change. -/
def raise (e : ErrCode) (info : Word) (s : State) : State :=
  if s.err then s else { s with err := true, errcode := e, errInfo := info }

/-- The return from an error: CLEAR_ERR's clearing of the error state (R268, 45_control R211). -/
def clearError (s : State) : State :=
  { s with err := false, errcode := .noError, errInfo := 0, ovr := false }

/-! ### Reset (70_reset R290) -/

/-- The reset action: every piece of the block's state takes its reset value in one step; the host agent's schedule
and what it has seen are not the block's and stay (R290, log 15). -/
def blockReset (s : State) : State :=
  { State.reset with turns := s.turns, responses := s.responses }

/-! ### The code tree (40_code_tree) -/

/-- `isLeaf(i)` with the leaf's symbol (R120). -/
def leafSym? (arena : Vector Node Config.nodeCap) (i : NodeIdx) : Option Byte :=
  match arena.get i with
  | .leaf sym => some sym
  | .internal _ _ => none
  | .free => none

/-- What a descent finds (R121). -/
inductive Child where
  | nil
  | node (i : NodeIdx)
  | structural
  | free
deriving DecidableEq, Repr

/-- `child(i, b)`: bit 0 selects the left child, bit 1 the right; a Leaf has none, which is STRUCTURAL (R121). -/
def child (arena : Vector Node Config.nodeCap) (i : NodeIdx) (b : Bool) : Child :=
  match arena.get i with
  | .internal l r =>
    match if b then r else l with
    | none => .nil
    | some n => .node n
  | .leaf _ => .structural
  | .free => .free

/-- The node a code leads to, from node `i` (the inverse of R122's `path`). -/
def descend (arena : Vector Node Config.nodeCap) : NodeIdx → Code → Option NodeIdx
  | i, [] => some i
  | i, b :: bs =>
    match child arena i b with
    | .node n => descend arena n bs
    | .nil => none
    | .structural => none
    | .free => none

/-- The code of symbol `sym` is `c`: `c` is the path of a leaf carrying it (R122). -/
def codeIs (arena : Vector Node Config.nodeCap) (sym : Byte) (c : Code) : Prop :=
  ∃ i, descend arena 0 c = some i ∧ arena.get i = .leaf sym

/-- The leaf-map and lookup-table index of a symbol (R33, R35). -/
def symIdx (sym : Byte) : Fin Config.nsym := sym.toFin

/-! ### The stream buffers (10_state R43) -/

/-- `OutFree()` (00_scope R13). -/
def outFree (s : State) : Nat := Config.outDepth - s.outQ.length

/-- `OutPush(b)` (00_scope R13). -/
def outPush (b : Byte) (s : State) : State := { s with outQ := s.outQ ++ [b] }

/-- `OutPush` of each byte, in order. -/
def outPushAll (bs : List Byte) (s : State) : State := { s with outQ := s.outQ ++ bs }

/-- `in_tready`: 1 iff in_q has room (20_memory R60, R66). -/
def inTready (s : State) : Bool := decide (s.inQ.length < Config.inDepth)

/-- `out_tvalid`: 1 iff out_q is not empty (20_memory R60). -/
def outTvalid (s : State) : Bool := !s.outQ.isEmpty

/-- `out_tdata`: the oldest byte of out_q (20_memory R60). -/
def outTdata (s : State) : Option Byte := s.outQ.head?

/-! ### The engine (10_state R40) -/

/-- `state <- S` (00_scope R13). -/
def setEngine (e : Engine) (s : State) : State := { s with engine := e }

/-- The latched command of the engine state, in every state but IDLE (R41). -/
def latched? : Engine → Option Latched
  | .idle => none
  | .pending L => some L
  | .enc L _ _ => some L
  | .dec L _ _ _ _ => some L
  | .decLeaf L _ _ => some L
  | .walk L _ => some L
  | .drain L _ => some L

/-- What a CMD write latches: the word and the operand registers as they stand (R41, 45_control R212). -/
def latchOf (w : Word) (s : State) : Latched :=
  { word := w, arg0 := s.arg0, arg1 := s.arg1, code := s.codeBuf }

/-- `DRAIN(L, rem)`, or IDLE when nothing is left to take (43 R172, 44 R193, 45 R214). -/
def drainOrIdle (L : Latched) (rem : Nat) : Engine := if rem > 0 then .drain L rem else .idle

/-- The start step of a command reads its operands from the latched command only (R41); the step exists in state
PENDING only (45_control R213, log 7). -/
def startStep (s : State) (body : Latched → StepResult) : StepResult :=
  match s.engine with
  | .pending L => body L
  | .idle => .refused .noStartStep
  | .enc _ _ _ => .refused .noStartStep
  | .dec _ _ _ _ _ => .refused .noStartStep
  | .decLeaf _ _ _ => .refused .noStartStep
  | .walk _ _ => .refused .noStartStep
  | .drain _ _ => .refused .noStartStep

/-- The end of a start step that raises: the error is recorded and the engine takes the state given (R262). -/
def failWith (e : ErrCode) (info : Word) (after : Engine) (s : State) : StepResult :=
  .next (setEngine after (raise e info s))

end Sys2Proof.Machine
end

