-- ==== Sys2Proof/Machine/Operands.lean ====
section
/-! DEFINITION. Operand and stream formats: the code buffer, counts, packed bytes, emission records
(30_encoding R95 to R98, 20_memory R69, R70). -/

namespace Sys2Proof.Machine

/-- `ceil8(n)`, on naturals (00_scope R13, 30_encoding R96). -/
def ceil8 (n : Nat) : Nat := n / 8 + if n % 8 ≠ 0 then 1 else 0

/-- A word of `n` bits from a bit sequence, first bit most significant. -/
def wordOfBits (n : Nat) (bits : List Bool) : BitVec n :=
  bits.foldl BitVec.shiftConcat 0

/-! ### The code buffer (R95, 10_state R45) -/

/-- `codebit(k) = code[k / 32][31 - (k mod 32)]` (R95). -/
def codeBit (code : Vector Word 8) (k : Nat) : Bool :=
  (code.toList.getD (k / 32) 0).getLsbD (31 - k % 32)

/-- The code operand of `len` bits; buffer bits at `len` and above are ignored (R95). -/
def codeOperand (code : Vector Word 8) (len : Nat) : Code :=
  (List.range len).map (codeBit code)

/-- Word j of the code buffer that holds code `c`, bits at positions past `c` 0 (R95, R98). -/
def codeWord (c : Code) (j : Nat) : Word :=
  wordOfBits 32 ((List.range 32).map fun t => c.getD (32 * j + t) false)

/-- CODE0..CODE7 holding code `c` (R98). -/
def codeBufOf (c : Code) : Vector Word 8 :=
  #v[codeWord c 0, codeWord c 1, codeWord c 2, codeWord c 3, codeWord c 4, codeWord c 5, codeWord c 6, codeWord c 7]

/-- RESULT of a LOOKUP that found a code: FOUND in bit 31, LEN in bits 7:0 (R98). -/
def resultWord (c : Code) : Word := 0x80000000 ||| (BitVec.ofNat 8 c.length).setWidth 32

/-! ### Packed bytes (20_memory R69, R70) -/

/-- The bits of a byte, bit 7 first (R69). -/
def byteBits (b : Byte) : List Bool := (List.range 8).map fun t => b.getLsbD (7 - t)

/-- Byte j of a packed bit sequence, bits past its end 0 (R69, R70). -/
def packByte (bits : List Bool) (j : Nat) : Byte :=
  wordOfBits 8 ((List.range 8).map fun t => bits.getD (8 * j + t) false)

/-- `pack(p)`: the `ceil8(len(p))` bytes of p, MSB-first with 0 padding (R69, R70, 42 R151). -/
def packBits (bits : List Bool) : List Byte :=
  (List.range (ceil8 bits.length)).map (packByte bits)

/-- The bits a byte sequence carries, MSB-first (R69). -/
def unpackBits (bytes : List Byte) : List Bool := bytes.flatMap byteBits

/-! ### Emission records (R97) -/

/-- The bytes of a record: symbol, length, packed code (R97). -/
def recordBytes (r : Record) : List Byte :=
  r.sym :: BitVec.ofNat 8 r.code.length :: packBits r.code

/-- `size(r) = 2 + ceil8(r.len)` (42 R153). -/
def recordSize (r : Record) : Nat := 2 + ceil8 r.code.length

/-! ### Counts (R96) -/

/-- `need`: the input bytes an instruction takes in all, given its latched command (R96). -/
def need (L : Latched) : Instr → Nat
  | .encode => L.arg0.toNat
  | .decode => ceil8 L.arg0.toNat
  | .nop => 0
  | .treeClear => 0
  | .treeInsert _ _ => 0
  | .walk _ => 0
  | .lookup _ => 0
  | .flush => 0
  | .clearErr => 0
  | .encReset => 0
  | .softReset => 0
  | .abort => 0

end Sys2Proof.Machine
end

