-- ==== Sys2Proof/Machine/Flags.lean ====
section
/-! DEFINITION. The computed registers, the register map, and plain register access
(10_state R20 to R29, R32, R35 to R39, R44, R45; 20_memory R61 to R64; 45_control R217). -/

namespace Sys2Proof.Machine

/-! ### STATUS, FIFO_LEVEL, PARAM, the counts -/

/-- The 4-bit code of an error (60_exceptions R260). -/
def errCodeBits : ErrCode → BitVec 4
  | .noError => 0x0
  | .formatPrefix => 0x1
  | .formatDupCode => 0x2
  | .formatDupSymbol => 0x3
  | .structural => 0x4
  | .truncated => 0x5
  | .unknownSymbol => 0x6
  | .invalidCode => 0x7
  | .capacity => 0x8
  | .notReady => 0x9
  | .illegalCmd => 0xA
  | .bitcountOverflow => 0xB
  | .aborted => 0xC

/-- STATUS.BUSY: the engine state is not IDLE (R24). -/
def statusBusy (s : State) : Bool :=
  match s.engine with
  | .idle => false
  | .pending _ => true
  | .enc _ _ _ => true
  | .dec _ _ _ _ _ => true
  | .decLeaf _ _ _ => true
  | .walk _ _ => true
  | .drain _ _ => true

/-- STATUS.DRAIN: the engine state is DRAIN (R24). -/
def statusDrain (s : State) : Bool :=
  match s.engine with
  | .idle => false
  | .pending _ => false
  | .enc _ _ _ => false
  | .dec _ _ _ _ _ => false
  | .decLeaf _ _ _ => false
  | .walk _ _ => false
  | .drain _ _ => true

/-- STATUS.ROOT_LEAF: node 0 is a Leaf (R24). -/
def statusRootLeaf (s : State) : Bool := (leafSym? s.arena 0).isSome

/-- STATUS (R24): its fields from bit 31 down to bit 0. -/
def statusWord (s : State) : Word :=
  (0#13 : BitVec 13)                       -- 31:19 reserved
  ++ BitVec.ofNat 3 s.packCnt.val          -- 18:16 PACK_CNT
  ++ (0#4 : BitVec 4)                      -- 15:12 reserved
  ++ errCodeBits s.errcode                 -- 11:8 ERRCODE
  ++ BitVec.ofBool (statusDrain s)         -- 7 DRAIN
  ++ BitVec.ofBool s.outQ.isEmpty          -- 6 OUT_EMPTY
  ++ BitVec.ofBool s.inQ.isEmpty           -- 5 IN_EMPTY
  ++ BitVec.ofBool (statusRootLeaf s)      -- 4 ROOT_LEAF
  ++ BitVec.ofBool s.cltValid              -- 3 CLT_VALID
  ++ BitVec.ofBool s.ovr                   -- 2 OVR
  ++ BitVec.ofBool s.err                   -- 1 ERR
  ++ BitVec.ofBool (statusBusy s)          -- 0 BUSY

/-- PARAM (R22). -/
def paramWord : Word := BitVec.ofNat 16 Config.outDepth ++ BitVec.ofNat 16 Config.inDepth

/-- FIFO_LEVEL (R44). -/
def fifoLevel (s : State) : Word := BitVec.ofNat 16 s.outQ.length ++ BitVec.ofNat 16 s.inQ.length

/-- LEAF_COUNT, the number of 1 bits of the leaf map (R35). -/
def leafCount (s : State) : Nat := s.leafmap.toList.count true

/-- A 9-bit count in bits 8:0, bits 31:9 reading 0 (R32, R35). -/
def count9 (n : Nat) : Word := (BitVec.ofNat 9 n).setWidth 32

/-! ### The register map (R20) -/

/-- The host registers (R20). -/
inductive Reg where
  | id | param | ctrl | status | cmd | arg0 | arg1 | result | errInfo | encBitcount | encLastbits
  | decSymcount | nodeCount | leafCount | fifoLevel
  | code (k : Fin 8)
deriving DecidableEq, Repr

/-- The byte offset of a register (R20). -/
def regOffset : Reg → BitVec 7
  | .id => 0x00
  | .param => 0x04
  | .ctrl => 0x08
  | .status => 0x0C
  | .cmd => 0x10
  | .arg0 => 0x14
  | .arg1 => 0x18
  | .result => 0x1C
  | .errInfo => 0x20
  | .encBitcount => 0x24
  | .encLastbits => 0x28
  | .decSymcount => 0x2C
  | .nodeCount => 0x30
  | .leafCount => 0x34
  | .fifoLevel => 0x38
  | .code k => BitVec.ofNat 7 (0x40 + 4 * k.val)

/-- The register at an offset; none at the reserved offsets 0x3C and 0x60 to 0x7C (R20, R64) and at offsets that
are no multiple of 4. -/
def regAt (addr : BitVec 7) : Option Reg :=
  match addr.toNat with
  | 0x00 => some .id
  | 0x04 => some .param
  | 0x08 => some .ctrl
  | 0x0C => some .status
  | 0x10 => some .cmd
  | 0x14 => some .arg0
  | 0x18 => some .arg1
  | 0x1C => some .result
  | 0x20 => some .errInfo
  | 0x24 => some .encBitcount
  | 0x28 => some .encLastbits
  | 0x2C => some .decSymcount
  | 0x30 => some .nodeCount
  | 0x34 => some .leafCount
  | 0x38 => some .fifoLevel
  | 0x40 => some (.code 0)
  | 0x44 => some (.code 1)
  | 0x48 => some (.code 2)
  | 0x4C => some (.code 3)
  | 0x50 => some (.code 4)
  | 0x54 => some (.code 5)
  | 0x58 => some (.code 6)
  | 0x5C => some (.code 7)
  | _ => none

/-- The value a read of a register returns (R21 to R29, R32, R35, R37 to R39, R44, R45); CTRL and CMD read 0. -/
def readReg (r : Reg) (s : State) : Word :=
  match r with
  | .id => Config.idWord
  | .param => paramWord
  | .ctrl => 0
  | .status => statusWord s
  | .cmd => 0
  | .arg0 => s.arg0
  | .arg1 => s.arg1
  | .result => s.result
  | .errInfo => s.errInfo
  | .encBitcount => s.encBitcount
  | .encLastbits => s.encLastbits
  | .decSymcount => s.decSymcount
  | .nodeCount => count9 s.nodeCount
  | .leafCount => count9 (leafCount s)
  | .fifoLevel => fifoLevel s
  | .code k => s.codeBuf.get k

/-- The write effect of a register that only stores or ignores (20_memory R62, 45_control R217): RW registers store,
RO registers ignore. CTRL and CMD have effects of their own (Machine/Engine.lean, Machine/Control.lean). -/
def writePlainReg (r : Reg) (v : Word) (s : State) : State :=
  match r with
  | .arg0 => { s with arg0 := v }
  | .arg1 => { s with arg1 := v }
  | .code k => { s with codeBuf := s.codeBuf.set k.val v k.isLt }
  | .id => s
  | .param => s
  | .ctrl => s
  | .status => s
  | .cmd => s
  | .result => s
  | .errInfo => s
  | .encBitcount => s
  | .encLastbits => s
  | .decSymcount => s
  | .nodeCount => s
  | .leafCount => s
  | .fifoLevel => s

/-! ### Bus reads (20_memory R62 to R64) -/

/-- An access the block accepts: 4 bytes at a multiple of 4 (R63). -/
def accessOk (addr : BitVec 7) (n : Nat) : Bool := decide (n = 4 ∧ addr.toNat % 4 = 0)

/-- What `MemRead(addr, n)` returns: BusError for any access but an aligned word (R63), 0 at a reserved offset
(R64), else the register's value; it changes no state of the block (R62). -/
def memRead (addr : BitVec 7) (n : Nat) (s : State) : Response :=
  if accessOk addr n then
    match regAt addr with
    | some r => .rdata (readReg r s)
    | none => .rdata 0
  else .busError

end Sys2Proof.Machine
end

