-- ==== Sys2Proof/Machine/Control.lean ====
section
/-! DEFINITION. NOP, CLEAR_ERR, SOFT_RESET, ABORT, the CMD write and the DRAIN beat (45_control). -/

namespace Sys2Proof.Machine

/-- NOP (R210). -/
def execNop (s : State) : StepResult :=
  startStep s fun _ => .next (setEngine .idle s)

/-- CLEAR_ERR (R211). -/
def execClearErr (s : State) : StepResult :=
  startStep s fun _ => .next (setEngine .idle (clearError s))

/-- SOFT_RESET (R215, R290): in every engine state and whatever ERR holds. -/
def execSoftReset (s : State) : StepResult := .next (blockReset s)

/-- ABORT (R216). -/
def execAbort (s : State) : StepResult :=
  match latched? s.engine with
  | none => .next s
  | some L => .next (setEngine .idle (raise .aborted L.word s))

/-- The effect of a CMD write (R212): dropped with OVR while busy; refused while an error is pending, but for NOP
and CLEAR_ERR opcodes; else latched. -/
def cmdWrite (w : Word) (s : State) : State :=
  if statusBusy s then { s with ovr := true }
  else if s.err ∧ fieldOpcode w ≠ 0x00 ∧ fieldOpcode w ≠ 0x08 then s
  else { s with engine := .pending (latchOf w s) }

/-- The DRAIN beat (R214): one input byte is taken and discarded. -/
def drainBeat (L : Latched) (rem : Nat) (s : State) : StepResult :=
  match s.inQ with
  | [] => .next s
  | _ :: rest => .next { s with inQ := rest, engine := drainOrIdle L (rem - 1) }

end Sys2Proof.Machine
end

