-- ==== Sys2Proof/Machine/Decoder.lean ====
section
/-! DEFINITION. DECODE, its beat and the root-is-leaf beat (44_decode). -/

namespace Sys2Proof.Machine

/-- DECODE, the start step (R191, R194). -/
def execDecode (s : State) : StepResult :=
  startStep s fun L =>
    let s1 := { s with decSymcount := 0 }
    match leafSym? s.arena 0 with
    | some sym =>
      if L.arg0.toNat > 0 then failWith .structural 0 (drainOrIdle L (ceil8 L.arg0.toNat)) s1
      else .next (setEngine (if L.arg1.toNat > 0 then .decLeaf L L.arg1.toNat sym else .idle) s1)
    | none => .next (setEngine (if L.arg0.toNat > 0 then .dec L L.arg0.toNat 0 0 0 else .idle) s1)

/-- Why the bit loop of R193 stops before the byte's last payload bit. -/
inductive ScanStop where
  /-- a bit that selects NIL (R195) -/
  | invalidCode
  /-- a descent from a Leaf (R121, log 9) -/
  | structural
  /-- a Free entry (R121, log 8) -/
  | freeEntry
deriving DecidableEq, Repr

/-- The bit loop of R193: symbols pushed so far, cursor, bit index, start of the code being walked, and the stop. -/
structure Scan where
  syms : List Byte
  cur : NodeIdx
  i : Nat
  start : Nat
  stop : Option ScanStop
deriving DecidableEq, Repr

/-- The bit loop of R193 over the payload bits given, from cursor `cur`, bit index `i`, code start `start`. -/
def scanBits (arena : Vector Node Config.nodeCap) : List Bool → NodeIdx → Nat → Nat → Scan
  | [], cur, i, start => { syms := [], cur := cur, i := i, start := start, stop := none }
  | x :: xs, cur, i, start =>
    match child arena cur x with
    | .nil => { syms := [], cur := cur, i := i, start := start, stop := some .invalidCode }
    | .structural => { syms := [], cur := cur, i := i, start := start, stop := some .structural }
    | .free => { syms := [], cur := cur, i := i, start := start, stop := some .freeEntry }
    | .node nxt =>
      match leafSym? arena nxt with
      | some sym =>
        let rest := scanBits arena xs 0 (i + 1) (i + 1)
        { rest with syms := sym :: rest.syms }
      | none => scanBits arena xs nxt (i + 1) start

/-- The payload bits of an input byte when `remBits` are still to take (R192, R193). -/
def payloadBits (b : Byte) (remBits : Nat) : List Bool := (byteBits b).take (min 8 remBits)

/-- The symbols a DECODE beat has recovered, pushed and counted (R193). -/
def pushSyms (syms : List Byte) (s : State) : State :=
  { outPushAll syms s with decSymcount := s.decSymcount + BitVec.ofNat 32 syms.length }

/-- The end of the DECODE beat's bit loop (R193, R195, R196). -/
def decFinish (L : Latched) (remBits : Nat) (scan : Scan) (s : State) : StepResult :=
  let left := remBits - min 8 remBits
  match scan.stop with
  | some .invalidCode => failWith .invalidCode (BitVec.ofNat 32 scan.i) (drainOrIdle L (ceil8 left)) s
  | some .structural => failWith .structural 0 (drainOrIdle L (ceil8 left)) s
  | some .freeEntry => .fault .freeNode
  | none =>
    if left = 0 then
      if scan.cur ≠ 0 then failWith .truncated (BitVec.ofNat 32 scan.start) .idle s
      else .next (setEngine .idle s)
    else .next (setEngine (.dec L left scan.i scan.cur scan.start) s)

/-- The DECODE beat (R193): enabled when a byte is there and the symbols it yields fit; else the engine waits. -/
def decBeat (L : Latched) (remBits i : Nat) (cur : NodeIdx) (start : Nat) (s : State) : StepResult :=
  match s.inQ with
  | [] => .next s
  | b :: rest =>
    let scan := scanBits s.arena (payloadBits b remBits) cur i start
    if scan.syms.length ≤ outFree s then
      decFinish L remBits scan (pushSyms scan.syms { s with inQ := rest })
    else .next s

/-- The beat of a root-is-leaf DECODE (R194). -/
def decLeafBeat (L : Latched) (rem : Nat) (sym : Byte) (s : State) : StepResult :=
  if 1 ≤ outFree s then
    .next (setEngine (if rem - 1 > 0 then .decLeaf L (rem - 1) sym else .idle) (pushSyms [sym] s))
  else .next s

end Sys2Proof.Machine
end

