-- ==== Sys2Proof/Machine/Encoder.lean ====
section
/-! DEFINITION. ENCODE, its beat, the bit-packer, FLUSH and ENC_RESET (43_encode). -/

namespace Sys2Proof.Machine

/-- `PutBit(x)` (R173): the bit goes in below the bits held; the eighth completes a byte, which is pushed. -/
def putBit (x : Bool) (s : State) : State :=
  let acc := s.packAcc ||| ((BitVec.ofBool x).setWidth 8 <<< (7 - s.packCnt.val))
  if h : s.packCnt.val + 1 < 8 then
    { s with packAcc := acc, packCnt := ⟨s.packCnt.val + 1, h⟩ }
  else
    { outPush acc s with packAcc := 0, packCnt := 0 }

/-- `PutBit` of each bit, in order (R172). -/
def putBits : List Bool → State → State
  | [], s => s
  | x :: xs, s => putBits xs (putBit x s)

/-- ENCODE, the start step (R171). -/
def execEncode (s : State) : StepResult :=
  startStep s fun L =>
    if s.cltValid then
      .next (setEngine (if L.arg0.toNat > 0 then .enc L L.arg0.toNat 0 else .idle) s)
    else failWith .notReady L.word (drainOrIdle L L.arg0.toNat) s

/-- The bytes an ENCODE beat pushes for table entry `e` (R172): none when the beat raises. -/
def encPushes (e : Option Code) (s : State) : Nat :=
  match e with
  | none => 0
  | some c => if s.encBitcount.toNat + c.length ≤ Config.countMax then (s.packCnt.val + c.length) / 8 else 0

/-- The ENCODE beat on the input byte `b` once taken (R172): either the whole code is appended or none of it. -/
def encByte (L : Latched) (rem j : Nat) (b : Byte) (s : State) : StepResult :=
  match s.clt.get (symIdx b) with
  | none => failWith .unknownSymbol (BitVec.ofNat 32 j) (drainOrIdle L (rem - 1)) s
  | some c =>
    if s.encBitcount.toNat + c.length > Config.countMax then
      failWith .bitcountOverflow (BitVec.ofNat 32 j) (drainOrIdle L (rem - 1)) s
    else
      .next { putBits c s with
        encBitcount := s.encBitcount + BitVec.ofNat 32 c.length
        engine := if rem - 1 > 0 then .enc L (rem - 1) (j + 1) else .idle }

/-- The ENCODE beat (R172): enabled when a byte is there and its output fits; else the engine waits. -/
def encBeat (L : Latched) (rem j : Nat) (s : State) : StepResult :=
  match s.inQ with
  | [] => .next s
  | b :: rest =>
    if encPushes (s.clt.get (symIdx b)) s ≤ outFree s then encByte L rem j b { s with inQ := rest }
    else .next s

/-- The byte FLUSH pushes: the partial byte, its unused low bits 0, when the packer holds any bit (R176). -/
def flushBytes (s : State) : List Byte := if s.packCnt.val > 0 then [s.packAcc] else []

/-- FLUSH's start rule (R176): out_q has room for its byte, if it has one. -/
def flushReady (s : State) : Bool := decide ((flushBytes s).length ≤ outFree s)

/-- FLUSH (R176): closes the stream; waits while its start rule does not hold (log 3). -/
def execFlush (s : State) : StepResult :=
  startStep s fun _ =>
    if flushReady s then
      .next { outPushAll (flushBytes s) s with
        encLastbits := s.encBitcount
        encBitcount := 0
        packAcc := 0
        packCnt := 0
        engine := .idle }
    else .next s

/-- ENC_RESET (R178). -/
def execEncReset (s : State) : StepResult :=
  startStep s fun _ => .next { s with packAcc := 0, packCnt := 0, encBitcount := 0, engine := .idle }

end Sys2Proof.Machine
end

