-- ==== Sys2Proof/Machine/TreeBuild.lean ====
section
/-! DEFINITION. TREE_CLEAR and TREE_INSERT (41_tree_build). -/

namespace Sys2Proof.Machine

/-- TREE_CLEAR (R130): the empty tree, an empty leaf map, a stale table. -/
def execTreeClear (s : State) : StepResult :=
  startStep s fun _ =>
    .next { s with
      arena := emptyArena
      nodeCount := 1
      leafmap := Vector.replicate Config.nsym false
      cltValid := false
      engine := .idle }

/-- How the walk of R132 ends. -/
inductive InsertWalk where
  /-- a Leaf at depth k, with code bits left (R133) -/
  | leafAt (k : Nat)
  /-- the whole path exists and ends at `cur` (k = len) -/
  | ends (cur : NodeIdx)
  /-- the path ends at depth k below `cur`, with the code bits `rest` not yet in the tree -/
  | gap (cur : NodeIdx) (k : Nat) (rest : Code)
  /-- a Free entry (log 8) -/
  | freeEntry
deriving DecidableEq, Repr

/-- The walk of R132 from node `cur` at depth k along the bits left. -/
def insertWalk (arena : Vector Node Config.nodeCap) : Code → NodeIdx → Nat → InsertWalk
  | [], cur, _ => .ends cur
  | b :: bs, cur, k =>
    match child arena cur b with
    | .structural => .leafAt k
    | .nil => .gap cur k (b :: bs)
    | .node nxt => insertWalk arena bs nxt (k + 1)
    | .free => .freeEntry

/-- The arena index NODE_COUNT names. It is below 511 wherever a node is made, by R136's check. -/
def newIdx (n : Nat) : NodeIdx := Fin.ofNat Config.nodeCap n

/-- `node[p].left <- n` or `node[p].right <- n` (R137). -/
def linkChild (arena : Vector Node Config.nodeCap) (p : NodeIdx) (b : Bool) (n : NodeIdx) :
    Vector Node Config.nodeCap :=
  match arena.get p with
  | .internal l r => arena.set p.val (if b then .internal l (some n) else .internal (some n) r) p.isLt
  | .leaf _ => arena
  | .free => arena

/-- The new nodes of R137, below `p`, the first at index `n`: a placeholder for every bit but the last, whose node
is the leaf. -/
def growPath (arena : Vector Node Config.nodeCap) (sym : Byte) :
    Code → NodeIdx → Nat → Vector Node Config.nodeCap
  | [], _, _ => arena
  | b :: bs, p, n =>
    let made := arena.set (newIdx n).val (if bs.isEmpty then .leaf sym else .internal none none) (newIdx n).isLt
    growPath (linkChild made p b (newIdx n)) sym bs (newIdx n) (n + 1)

/-- The end of a successful TREE_INSERT (R137): the leaf map, the stale table, the engine. -/
def insertDone (sym : Byte) (arena : Vector Node Config.nodeCap) (nodeCount : Nat) (s : State) : StepResult :=
  .next { s with
    arena := arena
    nodeCount := nodeCount
    leafmap := s.leafmap.set (symIdx sym).val true (symIdx sym).isLt
    cltValid := false
    engine := .idle }

/-- TREE_INSERT once the walk has ended: the errors of R133 to R136 in the order of 60_exceptions R266, else the
commit of R137. -/
def insertAfterWalk (sym : Byte) (len : Nat) (s : State) : InsertWalk → StepResult
  | .leafAt k => failWith .formatPrefix (BitVec.ofNat 32 k) .idle s
  | .ends cur =>
    match s.arena.get cur with
    | .leaf _ => failWith .formatDupCode (BitVec.ofNat 32 len) .idle s
    | .internal none none => insertDone sym (s.arena.set cur.val (.leaf sym) cur.isLt) s.nodeCount s
    | .internal _ _ => failWith .formatPrefix (BitVec.ofNat 32 len) .idle s
    | .free => .fault .freeNode
  | .gap cur _ rest =>
    if s.nodeCount + rest.length > Config.nodeCap then
      failWith .capacity (BitVec.ofNat 32 rest.length) .idle s
    else
      insertDone sym (growPath s.arena sym rest cur s.nodeCount) (s.nodeCount + rest.length) s
  | .freeEntry => .fault .freeNode

/-- TREE_INSERT (R131 to R138): the duplicate-symbol check comes before the walk (R135). -/
def execTreeInsert (sym : Byte) (len : Nat) (s : State) : StepResult :=
  startStep s fun L =>
    if s.leafmap.get (symIdx sym) then failWith .formatDupSymbol (sym.setWidth 32) .idle s
    else insertAfterWalk sym len s (insertWalk s.arena (codeOperand L.code len) 0 0)

end Sys2Proof.Machine
end

