-- ==== Sys2Proof/Machine/WalkLookup.lean ====
section
/-! DEFINITION. WALK, its beat, and LOOKUP (42_walk_lookup). -/

namespace Sys2Proof.Machine

/-- One side of R151's `visit`: nothing below NIL, else what `go` finds below the child. -/
def visitSide (go : NodeIdx → Code → Except Fault (List Record)) (n : Option NodeIdx) (p : Code) :
    Except Fault (List Record) :=
  match n with
  | none => .ok []
  | some k => go k p

/-- The left side's leaves, then the right side's (R151). -/
def visitJoin (left right : Except Fault (List Record)) : Except Fault (List Record) :=
  match left with
  | .error f => .error f
  | .ok ls =>
    match right with
    | .error f => .error f
    | .ok rs => .ok (ls ++ rs)

/-- `visit(i, p)` of R151: the leaves below node `i`, left subtree before right, each with its path. The first
argument bounds the depth: paths have at most MAX_CODE_LEN bits (R151; 10_state R47 item 7; log 8). -/
def visit (arena : Vector Node Config.nodeCap) : Nat → NodeIdx → Code → Except Fault (List Record)
  | 0, _, _ => .error .treeDepth
  | d + 1, i, p =>
    match arena.get i with
    | .leaf sym => .ok [{ sym := sym, code := p }]
    | .internal l r =>
      visitJoin (visitSide (visit arena d) l (p ++ [false])) (visitSide (visit arena d) r (p ++ [true]))
    | .free => .error .freeNode

/-- The leaves of the tree in the order of R151 and R152. -/
def treeLeaves (arena : Vector Node Config.nodeCap) : Except Fault (List Record) :=
  visit arena (Config.maxCodeLen + 1) 0 []

/-- The lookup table with an entry for each leaf, every other entry invalid (R151). -/
def tableOf (leaves : List Record) : Vector (Option Code) Config.nsym :=
  leaves.foldl (fun t r => t.set (symIdx r.sym).val (some r.code) (symIdx r.sym).isLt)
    (Vector.replicate Config.nsym none)

/-- WALK (R151): fills the table; with EMIT = 1 and a leaf to list, the records are then streamed by beats. -/
def execWalk (emit : Bool) (s : State) : StepResult :=
  startStep s fun L =>
    match treeLeaves s.arena with
    | .error f => .fault f
    | .ok leaves =>
      .next { s with
        clt := tableOf leaves
        cltValid := true
        engine := if emit ∧ leaves ≠ [] then .walk L leaves else .idle }

/-- The WALK beat (R153): one whole record, when out_q has room for it; else the engine waits.
A WALK state holds at least one record (R151, R153); with none there would be no beat. -/
def walkBeat (L : Latched) (q : List Record) (s : State) : StepResult :=
  match q with
  | [] => .next s
  | r :: rest =>
    if recordSize r ≤ outFree s then
      .next (setEngine (if rest = [] then .idle else .walk L rest) (outPushAll (recordBytes r) s))
    else .next s

/-- LOOKUP (R158). -/
def execLookup (sym : Byte) (s : State) : StepResult :=
  startStep s fun L =>
    if s.cltValid then
      match s.clt.get (symIdx sym) with
      | some c => .next { s with result := resultWord c, codeBuf := codeBufOf c, engine := .idle }
      | none => .next { s with result := 0, codeBuf := Vector.replicate 8 0, engine := .idle }
    else failWith .notReady L.word .idle s

end Sys2Proof.Machine
end

