-- ==== Sys2Proof/Machine/Dispatch.lean ====
section
/-! DEFINITION. The dispatch: one arm per constructor of Instr, each one call of that instruction's meaning. -/

namespace Sys2Proof.Machine

def exec (i : Instr) (s : State) : Host.Outcome State Fault Refusal :=
  match i with
  | .nop => Sys2Proof.Machine.execNop s
  | .treeClear => Sys2Proof.Machine.execTreeClear s
  | .treeInsert sym len => Sys2Proof.Machine.execTreeInsert sym len s
  | .walk emit => Sys2Proof.Machine.execWalk emit s
  | .lookup sym => Sys2Proof.Machine.execLookup sym s
  | .encode => Sys2Proof.Machine.execEncode s
  | .flush => Sys2Proof.Machine.execFlush s
  | .decode => Sys2Proof.Machine.execDecode s
  | .clearErr => Sys2Proof.Machine.execClearErr s
  | .encReset => Sys2Proof.Machine.execEncReset s
  | .softReset => Sys2Proof.Machine.execSoftReset s
  | .abort => Sys2Proof.Machine.execAbort s

end Sys2Proof.Machine
end

