-- ==== Sys2Proof/Machine/Engine.lean ====
section
/-! DEFINITION. The engine's step (start or beat), the host's step, and the taking of turns
(45_control R212 to R219; 20_memory R62 to R67, R73). -/

namespace Sys2Proof.Machine

/-! ### The engine -/

/-- The start rule of an opcode (R213): always enabled, but for FLUSH's, which needs room for its byte (R176). R213
enables the start step by it before the step looks at the word, so a word with FLUSH's opcode and RSVD != 0 waits as
FLUSH does. DEDUCED, unsafe (log 18). -/
def startReady (opcode : BitVec 8) (s : State) : Bool := opcode != 0x06 || flushReady s

/-- The start step (R213): an illegal word raises ILLEGAL_CMD with the whole word (30_encoding R93) once the start rule
of its opcode holds; any other runs the instruction it decodes to, whose meaning waits where its start rule says so. -/
def startCommand (L : Latched) (s : State) : StepResult :=
  match decodeCmd L.word with
  | .ok i => exec i s
  | .error _ => if startReady (fieldOpcode L.word) s then failWith .illegalCmd L.word .idle s else .next s

/-- One step of the command engine: the start step in PENDING, a beat in the streaming states, none in IDLE.
A step that is not enabled leaves the state as it is: the engine waits (R218, R219, log 3). -/
def engineStep (s : State) : StepResult :=
  match s.engine with
  | .idle => .next s
  | .pending L => startCommand L s
  | .enc L rem j => encBeat L rem j s
  | .dec L remBits i cur start => decBeat L remBits i cur start s
  | .decLeaf L rem sym => decLeafBeat L rem sym s
  | .walk L q => walkBeat L q s
  | .drain L rem => drainBeat L rem s

/-! ### The host -/

/-- The host sees `r` at its ports (log 2). -/
def respond (r : Response) (s : State) : State := { s with responses := s.responses ++ [r] }

/-- The effect of a CTRL write (30_encoding R94): its instruction runs in the bus step itself. -/
def ctrlWrite (w : Word) (s : State) : StepResult :=
  match decodeCtrl w with
  | .ok i => exec i s
  | .error _ => .next s

/-- The write effect at an offset (20_memory R62, R64): CTRL and CMD act, RW registers store, RO registers and
reserved offsets ignore. -/
def writeEffect (addr : BitVec 7) (v : Word) (s : State) : StepResult :=
  match regAt addr with
  | none => .next s
  | some .ctrl => ctrlWrite v s
  | some .cmd => .next (cmdWrite v s)
  | some r => .next (writePlainReg r v s)

/-- `MemWrite(addr, n, v)`: a bus error without effect unless it is an aligned word with all strobes (R63). -/
def memWrite (addr : BitVec 7) (n : Nat) (strb : BitVec 4) (v : Word) (s : State) : StepResult :=
  if accessOk addr n ∧ strb = 0b1111#4 then writeEffect addr v (respond .written s)
  else .next (respond .busError s)

/-- A host push (R66): a full in_q leaves the host no step, and its turn passes (log 3). -/
def hostPush (b : Byte) (s : State) : State :=
  if inTready s then respond .pushed { s with inQ := s.inQ ++ [b] } else respond .pushBlocked s

/-- A host pop (R67): an empty out_q leaves the host no step, and its turn passes (log 3). -/
def hostPop (s : State) : State :=
  match s.outQ with
  | [] => respond .popBlocked s
  | b :: rest => respond (.popped b) { s with outQ := rest }

/-- One step of the host (00_scope R8). -/
def hostStep (h : HostStep) (s : State) : StepResult :=
  match h with
  | .read addr n => .next (respond (memRead addr n s) s)
  | .write addr n strb v => memWrite addr n strb v s
  | .push b => .next (hostPush b s)
  | .pop => .next (hostPop s)
  | .reset => .next (blockReset (respond .resetDone s))

/-! ### Turns -/

/-- One atomic step of the whole (R73): the turn that is due; with none due the host is silent and the engine
moves (log 1). -/
def takeTurn (s : State) : StepResult :=
  match s.turns with
  | [] => engineStep s
  | .engine :: rest => engineStep { s with turns := rest }
  | .host h :: rest => hostStep h { s with turns := rest }

/-! ### Placing an instruction where the next step runs it -/

/-- A table row's word where the very next step runs it (log 5): a CMD word as the latched command with the engine
due, a CTRL word as the host's write to CTRL. -/
def placeTableWord (s : State) (nbits w : Nat) : State :=
  match tableFormat nbits with
  | .cmd32 =>
    { s with
      engine := .pending (latchOf (tableWord nbits w) s)
      turns := if s.turns = [] then [] else .engine :: s.turns }
  | .ctrl32 =>
    { s with turns := .host (.write (regOffset .ctrl) 4 0b1111#4 (tableWord nbits w)) :: s.turns }

end Sys2Proof.Machine
end

