-- ==== Sys2Proof/Machine/Step.lean ====
section
/-! DEFINITION. The step of the machine, and where its next instruction is found. -/

namespace Sys2Proof.Machine

/-- One atomic step (20_memory R73). -/
def step (s : State) : Host.Outcome State Fault Refusal := takeTurn s

/-- `s` with a table row's instruction placed so that the very next step runs it (log 5). -/
def State.withFetchWord (s : State) (nbits w : Nat) : State := placeTableWord s nbits w

end Sys2Proof.Machine
end

