-- ==== Sys2Proof/Machine/HostProgram.lean ====
section
/-! DEFINITION. Host programs: the pseudo-instructions and the line syntax of 30_encoding R102 and R103, as the
host steps they stand for. Nothing in the block depends on this file. -/

namespace Sys2Proof.Machine

/-- `wr REG, v` (R102). -/
def hostWr (r : Reg) (v : Word) : HostStep := .write (regOffset r) 4 0b1111#4 v

/-- `rd REG` (R102). -/
def hostRd (r : Reg) : HostStep := .read (regOffset r) 4

/-- The pseudo-instructions (R103). -/
inductive Pseudo where
  | nop | treeClear
  | treeInsert (sym : Byte) (code : Code)
  | walk | walkEmit
  | lookup (sym : Byte)
  | encode (n : Word)
  | flush
  | decode (nbits count : Word)
  | clearErr | encReset | softReset | abort
deriving DecidableEq, Repr

/-- The writes of the code-buffer words a code of length L needs, words 0 to ceil(L/32) - 1 (R103). -/
def codeWrites (c : Code) : List HostStep :=
  (List.range ((c.length + 31) / 32)).map fun j => hostWr (.code (Fin.ofNat 8 j)) (codeWord c j)

/-- The expansion of a pseudo-instruction (R103). -/
def expandPseudo : Pseudo → List HostStep
  | .nop => [hostWr .cmd (Sys2Proof.encode .nop)]
  | .treeClear => [hostWr .cmd (Sys2Proof.encode .treeClear)]
  | .treeInsert sym c => codeWrites c ++ [hostWr .cmd (Sys2Proof.encode (.treeInsert sym c.length))]
  | .walk => [hostWr .cmd (Sys2Proof.encode (.walk false))]
  | .walkEmit => [hostWr .cmd (Sys2Proof.encode (.walk true))]
  | .lookup sym => [hostWr .cmd (Sys2Proof.encode (.lookup sym))]
  | .encode n => [hostWr .arg0 n, hostWr .cmd (Sys2Proof.encode .encode)]
  | .flush => [hostWr .cmd (Sys2Proof.encode .flush)]
  | .decode nbits count =>
    [hostWr .arg0 nbits, hostWr .arg1 count, hostWr .cmd (Sys2Proof.encode .decode)]
  | .clearErr => [hostWr .cmd (Sys2Proof.encode .clearErr)]
  | .encReset => [hostWr .cmd (Sys2Proof.encode .encReset)]
  | .softReset => [hostWr .ctrl (Sys2Proof.encode .softReset)]
  | .abort => [hostWr .ctrl (Sys2Proof.encode .abort)]

/-- A line of a host program (R102). -/
inductive Line where
  | wr (r : Reg) (v : Word)
  | rd (r : Reg)
  | push (bs : List Byte)
  | pop (n : Nat)
  /-- `wait`, with the number of times STATUS is polled (log 16) -/
  | wait (polls : Nat)
  | pseudo (p : Pseudo)
deriving DecidableEq, Repr

/-- The turns of a line, in ONE of the orders R8 admits. DESIGN CHOICE, safe (log 16): the engine has a turn before each
poll of a `wait` and nowhere else. So the pushes of a line follow each other at once, and one that finds in_q full passes
unpushed (log 3), where in another order (`IsScheduleOf`) the engine makes room first. -/
def lineTurns : Line → List Turn
  | .wr r v => [.host (hostWr r v)]
  | .rd r => [.host (hostRd r)]
  | .push bs => bs.map fun b => .host (.push b)
  | .pop n => List.replicate n (.host .pop)
  | .wait polls => (List.replicate polls [Turn.engine, .host (hostRd .status)]).flatten
  | .pseudo p => (expandPseudo p).map .host

/-- The turns of a host program, in that order (log 16). -/
def programTurns (lines : List Line) : List Turn := lines.flatMap lineTurns

/-- The host steps among turns, in order. -/
def hostStepsOf : List Turn → List HostStep
  | [] => []
  | .engine :: ts => hostStepsOf ts
  | .host h :: ts => h :: hostStepsOf ts

/-- Turns that are a schedule of a host program: its host steps in order, and engine turns anywhere among them
(R102; 00_scope R8; 20_memory R73). `programTurns` is one of them. -/
def IsScheduleOf (ts : List Turn) (lines : List Line) : Prop := hostStepsOf ts = hostStepsOf (programTurns lines)

/-- `rd STATUS` by the host: the value on prdata, and the state after the read. -/
def pollStatus (s : State) : Word × State := (readReg .status s, respond (.rdata (readReg .status s)) s)

/-- The host steps of a list, in order, with no engine step between them. -/
def runHostSteps : List HostStep → State → StepResult
  | [], s => .next s
  | h :: hs, s =>
    match hostStep h s with
    | .next t => runHostSteps hs t
    | .fault f => .fault f
    | .refused r => .refused r

/-- A command that ends in its start step, issued and started: its host steps, then one engine step (log 13). -/
def issueCommand (p : Pseudo) (s : State) : StepResult :=
  match runHostSteps (expandPseudo p) s with
  | .next t => engineStep t
  | .fault f => .fault f
  | .refused r => .refused r

end Sys2Proof.Machine
end

