-- ==== Sys2Proof/Machine/HostRef.lean ====
section
/-! DEFINITION. The host reference functions of 46_host_reference: software outside the block (00_scope R5), given
so that the whole data flow can be stated. Nothing in the block depends on this file (log 13). -/

namespace Sys2Proof.Machine

/-! ### HostBuild (R230 to R235) -/

/-- A code tree as host software holds it: built from frequencies (R233, R234), or read from the block, where a node may
lack a child (40_code_tree R124). The empty tree is `node nil nil` (41_tree_build R130). -/
inductive HostTree where
  /-- no child (NIL) -/
  | nil
  | leaf (sym : Byte)
  | node (left right : HostTree)
deriving DecidableEq, Repr

/-- A node waiting to be merged (R231, R232). -/
structure Waiting where
  weight : Nat
  seq : Nat
  tree : HostTree
deriving DecidableEq, Repr

/-- Why a host function fails (R234, R242, R243). -/
inductive HostError where
  | emptyAlphabet
  | formatError
  /-- STATUS shows an error whose code is none of R243's four, which R243 does not name (log 19) -/
  | blockError (code : BitVec 4)
  /-- the model's step stopped while the host was loading a table, which R243 does not name (log 13) -/
  | blockStopped
deriving DecidableEq, Repr

/-- The frequency counter: `freq[s]` is the number of input bytes equal to s (R230). -/
def countBytes (bytes : List Byte) : List Nat :=
  (List.range Config.nsym).map fun s => bytes.count (BitVec.ofNat 8 s)

/-- One Leaf per symbol with a nonzero count, in ascending symbol order, numbered from `seq` (R231). -/
def hostLeaves : List Nat → Nat → Nat → List Waiting
  | [], _, _ => []
  | c :: cs, sym, seq =>
    if c > 0 then
      { weight := c, seq := seq, tree := .leaf (BitVec.ofNat 8 sym) } :: hostLeaves cs (sym + 1) (seq + 1)
    else hostLeaves cs (sym + 1) seq

/-- The priority order: smaller weight first, then smaller seq (R232). -/
def waitsBefore (a b : Waiting) : Bool :=
  decide (a.weight < b.weight ∨ (a.weight = b.weight ∧ a.seq < b.seq))

/-- Insertion into the collection, kept in priority order (R232). -/
def insertWaiting (w : Waiting) : List Waiting → List Waiting
  | [] => [w]
  | x :: xs => if waitsBefore w x then w :: x :: xs else x :: insertWaiting w xs

/-- One merge: the first removed becomes left, the second right (R233). -/
def mergeOnce : Nat × List Waiting → Nat × List Waiting
  | (seq, a :: b :: rest) =>
    (seq + 1, insertWaiting { weight := a.weight + b.weight, seq := seq, tree := .node a.tree b.tree } rest)
  | (seq, [a]) => (seq, [a])
  | (seq, []) => (seq, [])

/-- `n` merges. -/
def mergeTimes : Nat → Nat × List Waiting → Nat × List Waiting
  | 0, c => c
  | n + 1, c => mergeTimes n (mergeOnce c)

/-- `HostBuild(freq)` (R231 to R234): n leaves take n - 1 merges. -/
def hostBuild (freq : List Nat) : Except HostError HostTree :=
  let leaves := hostLeaves freq 0 0
  match (mergeTimes (leaves.length - 1) (leaves.length, leaves.foldr insertWaiting [])).2 with
  | [] => .error .emptyAlphabet
  | w :: _ => .ok w.tree

/-- The leaves of a host tree with their paths, depth-first and left first (R236, R240). -/
def hostLeafCodes : HostTree → Code → List (Byte × Code)
  | .nil, _ => []
  | .leaf sym, p => [(sym, p)]
  | .node l r, p => hostLeafCodes l (p ++ [false]) ++ hostLeafCodes r (p ++ [true])

/-! ### HostSave (R240) -/

/-- The character of a decimal digit. -/
def digitChar (d : Nat) : Char := Char.ofNat (48 + d)

/-- A symbol 0..255 in decimal, no leading zeros (R240). -/
def decimalText (n : Nat) : List Char :=
  if n < 10 then [digitChar n]
  else if n < 100 then [digitChar (n / 10), digitChar (n % 10)]
  else [digitChar (n / 100), digitChar (n / 10 % 10), digitChar (n % 10)]

/-- A code as characters '0' and '1' (R240). -/
def codeText (c : Code) : List Char := c.map fun b => if b then '1' else '0'

/-- The two lines of an entry, each ended by a newline (R240). -/
def entryText (e : Byte × Code) : List Char :=
  decimalText e.1.toNat ++ '\n' :: (codeText e.2 ++ ['\n'])

/-- The text of a code table. -/
def tableText (es : List (Byte × Code)) : List Char := es.flatMap entryText

/-- `HostSave(T)` (R240), for any tree. -/
def hostSave (t : HostTree) : List Char := tableText (hostLeafCodes t [])

/-- What `read` makes of a child; nothing for NIL. -/
def readChild (read : NodeIdx → HostTree) : Option NodeIdx → HostTree
  | none => .nil
  | some i => read i

/-- The tree below a node of the arena, to the depth given; no child beyond it and at a Free entry (log 8). -/
def readTree (arena : Vector Node Config.nodeCap) : Nat → NodeIdx → HostTree
  | 0, _ => .nil
  | d + 1, i =>
    match arena.get i with
    | .leaf sym => .leaf sym
    | .internal l r => .node (readChild (readTree arena d) l) (readChild (readTree arena d) r)
    | .free => .nil

/-- The block's tree: no node lies deeper than MAX_CODE_LEN (10_state R47 item 7). -/
def blockTree (s : State) : HostTree := readTree s.arena (Config.maxCodeLen + 1) 0

/-! ### HostParse (R241, R242) -/

/-- The text split at every newline (R241). -/
def splitLines : List Char → List (List Char)
  | [] => [[]]
  | c :: cs =>
    if c = '\n' then [] :: splitLines cs
    else
      match splitLines cs with
      | l :: ls => (c :: l) :: ls
      | [] => [[c]]

/-- The text without its final newline (R241). -/
def dropFinalNewline (text : List Char) : List Char :=
  if text.getLast? = some '\n' then text.dropLast else text

/-- The lines of a text (R241). -/
def textLines (text : List Char) : List (List Char) :=
  if text = [] then [] else splitLines (dropFinalNewline text)

/-- The value of a decimal digit; none for any other character (R242 item 2). -/
def digitValue (c : Char) : Option Nat :=
  if 48 ≤ c.toNat ∧ c.toNat ≤ 57 then some (c.toNat - 48) else none

/-- The value of a run of decimal digits after `acc`, leading zeros allowed (R242 item 2). -/
def digitsValue : List Char → Nat → Option Nat
  | [], acc => some acc
  | c :: cs, acc =>
    match digitValue c with
    | none => none
    | some d => digitsValue cs (10 * acc + d)

/-- A symbol line: one or more decimal digits, value at most 255 (R242 item 2). -/
def parseSymbol (line : List Char) : Option Byte :=
  if line = [] then none
  else
    match digitsValue line 0 with
    | none => none
    | some n => if n ≤ 255 then some (BitVec.ofNat 8 n) else none

/-- The bits of a code line; none for any character but '0' and '1' (R242 item 3). -/
def parseBits : List Char → Option Code
  | [] => some []
  | c :: cs =>
    match parseBits cs with
    | none => none
    | some bs => if c = '0' then some (false :: bs) else if c = '1' then some (true :: bs) else none

/-- A code line: binary, and at most MAX_CODE_LEN characters (R242 items 3 and 4). -/
def parseCode (line : List Char) : Option Code :=
  if line.length ≤ Config.maxCodeLen then parseBits line else none

/-- The lines taken two at a time; an odd line, a bad symbol or a bad code fails (R242). -/
def parsePairs : List (List Char) → Except HostError (List (Byte × Code))
  | [] => .ok []
  | [_] => .error .formatError
  | l1 :: l2 :: rest =>
    match parseSymbol l1, parseCode l2, parsePairs rest with
    | some sym, some c, .ok es => .ok ((sym, c) :: es)
    | _, _, _ => .error .formatError

/-- `HostParse(text)` (R241, R242). -/
def hostParse (text : List Char) : Except HostError (List (Byte × Code)) := parsePairs (textLines text)

/-! ### HostLoad (R236, R243) -/

/-- What a load answers: the error reported to the caller, if any, and the block as the commands issued so far left it. -/
structure LoadResult where
  error : Option HostError
  block : State
deriving DecidableEq, Repr

/-- The codes R243 reports as FormatError: FORMAT_PREFIX, FORMAT_DUP_CODE, FORMAT_DUP_SYMBOL, CAPACITY. -/
def isFormatCode (code : BitVec 4) : Bool :=
  code == errCodeBits .formatPrefix || code == errCodeBits .formatDupCode || code == errCodeBits .formatDupSymbol
    || code == errCodeBits .capacity

/-- What the host makes of the STATUS it reads after an insert (R243): ERR is bit 1, ERRCODE bits 11:8 (10_state R24).
A code that R243 does not name is reported as itself. DESIGN CHOICE, safe (log 19). -/
def statusError (status : Word) : Option HostError :=
  if status.getLsbD 1 then
    let code := status.extractLsb' 8 4
    some (if isFormatCode code then .formatError else .blockError code)
  else none

/-- The host goes on after a command, or reports that the model's step stopped (log 13). -/
def afterCommand (p : Pseudo) (s : State) (go : State → LoadResult) : LoadResult :=
  match issueCommand p s with
  | .next t => go t
  | .fault _ => { error := some .blockStopped, block := s }
  | .refused _ => { error := some .blockStopped, block := s }

/-- A `tree_insert` for each pair, STATUS read after each, then `walk` (R243). R243 does not say what follows an error:
the first one ends the load, and no further insert and no `walk` is issued. DESIGN CHOICE, safe (log 19). -/
def loadEntries : List (Byte × Code) → State → LoadResult
  | [], s => afterCommand .walk s fun t => { error := none, block := t }
  | (sym, c) :: es, s =>
    afterCommand (.treeInsert sym c) s fun t =>
      match statusError (pollStatus t).1 with
      | some e => { error := some e, block := (pollStatus t).2 }
      | none => loadEntries es (pollStatus t).2

/-- `tree_clear`, the inserts, `walk` (R236, R243). R243 does not say what happens when ERR is 1 or a command runs at the
start. DESIGN CHOICE, unsafe (log 20): the host issues its commands all the same, the block refuses or drops them as
45_control R212 says, and only the STATUS reads after inserts report it; with no entry there is none. -/
def loadTable (es : List (Byte × Code)) (s : State) : LoadResult :=
  afterCommand .treeClear s (loadEntries es)

/-- `HostLoad(text)` (R243): a text that does not parse leaves the block as it is. -/
def hostLoad (text : List Char) (s : State) : LoadResult :=
  match hostParse text with
  | .error e => { error := some e, block := s }
  | .ok es => loadTable es s

/-- Loading a built tree into the block (R236), which leaves the order of the inserts open: here it is depth-first, left
child first, the order HostSave writes. DESIGN CHOICE, safe (log 22); `loadTable` takes the entries in any order. -/
def hostLoadTree (t : HostTree) (s : State) : LoadResult := loadTable (hostLeafCodes t []) s

end Sys2Proof.Machine
end

