-- ==== Sys2Proof/Safety.lean ====
section
/-! DEFINITION. What every reachable state satisfies (10_state R47, and the ranges 10_state gives for the engine's
fields, the queues and the error state), and the words statements use for codes. -/

namespace Sys2Proof.Machine

/-! ### Codes -/

/-- Neither code is a prefix of the other (40_code_tree R123). -/
def CodesApart (c d : Code) : Prop := ¬ c <+: d ∧ ¬ d <+: c

/-- Ascending lexicographic order of codes, 0 before 1 (42 R152). -/
def codeBefore : Code → Code → Bool
  | [], _ => false
  | _ :: _, [] => false
  | false :: _, true :: _ => true
  | true :: _, false :: _ => false
  | false :: c, false :: d => codeBefore c d
  | true :: c, true :: d => codeBefore c d

/-- The bits the packer holds: the first pack_cnt bits of pack_acc (R36). -/
def heldBits (s : State) : List Bool := (byteBits s.packAcc).take s.packCnt.val

/-! ### The code tree (R47 items 1 to 4 and 7) -/

/-- The tree invariants. `childAbove` says more than R47 item 2's "no chain of child links returns to a node": nodes
are allocated in ascending order (R137), so every link goes to a higher index. -/
structure TreeOk (s : State) : Prop where
  /-- NODE_COUNT is 1..511 (R32) -/
  countPos : 1 ≤ s.nodeCount
  countLe : s.nodeCount ≤ Config.nodeCap
  /-- indices below NODE_COUNT are exactly the non-Free entries (item 1) -/
  allocated : ∀ i : NodeIdx, s.arena.get i ≠ .free ↔ i.val < s.nodeCount
  /-- links lead to allocated nodes, and upwards (item 2) -/
  childAbove : ∀ (i j : NodeIdx) (b : Bool), child s.arena i b = .node j → i < j ∧ j.val < s.nodeCount
  /-- a node is the child of at most one node, on one side (item 2) -/
  oneParent : ∀ (i i' j : NodeIdx) (b b' : Bool),
    child s.arena i b = .node j → child s.arena i' b' = .node j → i = i' ∧ b = b'
  /-- a node that is not Free and not the root is a child (item 2) -/
  hasParent : ∀ j : NodeIdx, j ≠ 0 → s.arena.get j ≠ .free → ∃ i b, child s.arena i b = .node j
  /-- an Internal node other than the root has a child (item 3) -/
  hasChild : ∀ i : NodeIdx, s.arena.get i = .internal none none → i = 0
  /-- the leaf map marks the symbols the tree's leaves carry (item 4, R35) -/
  leafMarked : ∀ sym : Byte, s.leafmap.get (symIdx sym) = true ↔ ∃ i, s.arena.get i = .leaf sym
  /-- no two leaves carry the same symbol (item 4) -/
  leafUnique : ∀ (sym : Byte) (i j : NodeIdx), s.arena.get i = .leaf sym → s.arena.get j = .leaf sym → i = j
  /-- no node is deeper than MAX_CODE_LEN (item 7) -/
  depthLe : ∀ (c : Code) (i : NodeIdx), descend s.arena 0 c = some i → c.length ≤ Config.maxCodeLen

/-- When the table is valid, its entry for a symbol is the symbol's code, and no symbol without a leaf has one
(R47 item 5). -/
def TableOk (s : State) : Prop :=
  s.cltValid = true → ∀ (sym : Byte) (c : Code), s.clt.get (symIdx sym) = some c ↔ codeIs s.arena sym c

/-- The unused bits of the packer are 0, and pack_cnt is ENC_BITCOUNT mod 8 (R47 item 6, R36). -/
def PackOk (s : State) : Prop :=
  (∀ k, k < 8 - s.packCnt.val → s.packAcc.getLsbD k = false) ∧ s.packCnt.val = s.encBitcount.toNat % 8

/-- The stream buffers hold no more than their capacity (R43). -/
def QueuesOk (s : State) : Prop := s.inQ.length ≤ Config.inDepth ∧ s.outQ.length ≤ Config.outDepth

/-- An error code is recorded exactly while ERR is 1 (R42, 60_exceptions R260, R262). -/
def ErrorOk (s : State) : Prop := (s.err = true ↔ s.errcode ≠ .noError) ∧ (s.err = false → s.errInfo = 0)

/-- What the fields of an engine state mean (R40): counts in range, a DECODE cursor on an Internal node, ENCODE only
with a valid table, a drain only after an error. -/
def EngineOk (s : State) : Prop :=
  match s.engine with
  | .idle => True
  | .pending _ => True
  | .enc L rem j => 0 < rem ∧ rem + j = L.arg0.toNat ∧ s.cltValid = true
  | .dec L remBits i cur start =>
    0 < remBits ∧ remBits + i = L.arg0.toNat ∧ start ≤ i ∧ (cur = 0 ↔ start = i) ∧
      ∃ l r, s.arena.get cur = .internal l r
  | .decLeaf L rem sym => 0 < rem ∧ rem ≤ L.arg1.toNat ∧ s.arena.get 0 = .leaf sym
  | .walk _ q => q ≠ [] ∧ (∀ r ∈ q, r.code.length ≤ Config.maxCodeLen) ∧ s.cltValid = true
  | .drain L rem => 0 < rem ∧ rem ≤ L.arg0.toNat ∧ s.err = true

/-- The invariant: R47's seven items, and the ranges of the rest of the state. -/
structure Inv (s : State) : Prop where
  tree : TreeOk s
  table : TableOk s
  pack : PackOk s
  queues : QueuesOk s
  error : ErrorOk s
  engine : EngineOk s

/-! ### Host steps that reset the block -/

/-- The host steps that take the reset action (70_reset R290): rst_n, and an accepted CTRL write with bit 0 set. -/
def resetsBlock : HostStep → Bool
  | .reset => true
  | .write addr n strb v => decide (addr = regOffset .ctrl ∧ n = 4 ∧ strb = 0b1111#4) && v.getLsbD 0
  | .read _ _ => false
  | .push _ => false
  | .pop => false

/-- The engine is about to start the instruction `i`: it is latched and not yet started (R40, 45_control R213). -/
def starts (s : State) (i : Instr) : Prop := ∃ L, s.engine = .pending L ∧ decodeCmd L.word = .ok i

/-! ### Runs -/

/-- `n` steps of the machine, by the host's own run. -/
def runSteps (n : Nat) (s : State) : StepResult := Host.Core.run Sys2Proof.core n s

/-! ### Work left -/

/-- The engine steps a command still needs, at most, once started: its remaining beats (45_control R220). -/
def beatsLeft : Engine → Nat
  | .idle => 0
  | .pending _ => 0
  | .enc _ rem _ => rem
  | .dec _ remBits _ _ _ => ceil8 remBits
  | .decLeaf _ rem _ => rem
  | .walk _ q => q.length
  | .drain _ rem => rem

end Sys2Proof.Machine
end

