-- ==== Sys2Proof/Certificates/Slice0/Obligations.lean ====
section
/-! DEFINITION. The statements for the provers, taken from the numbered rules of spec/. -/

open Sys2Proof Sys2Proof.Machine

/-! ### Encoding (30_encoding) -/

/-- R90, R91, R94: decoding the word of a well-formed instruction, in its own format, gives the instruction back. -/
def Obligations.EncodeThenDecode : Prop :=
  ∀ i : Instr, i.WellFormed = true → decodeWord i.format (encode i) = .ok i

/-- R91, R92: the opcode map, whatever the fields the opcode does not use hold. -/
def Obligations.OpcodeMapIgnoresUnusedFields : Prop :=
  ∀ (sym len : BitVec 8) (emit : Bool),
    decodeCmd (cmdWord 0x00 sym len emit) = .ok .nop ∧
    decodeCmd (cmdWord 0x01 sym len emit) = .ok .treeClear ∧
    decodeCmd (cmdWord 0x02 sym len emit) = .ok (.treeInsert sym len.toNat) ∧
    decodeCmd (cmdWord 0x03 sym len emit) = .ok (.walk emit) ∧
    decodeCmd (cmdWord 0x04 sym len emit) = .ok (.lookup sym) ∧
    decodeCmd (cmdWord 0x05 sym len emit) = .ok .encode ∧
    decodeCmd (cmdWord 0x06 sym len emit) = .ok .flush ∧
    decodeCmd (cmdWord 0x07 sym len emit) = .ok .decode ∧
    decodeCmd (cmdWord 0x08 sym len emit) = .ok .clearErr ∧
    decodeCmd (cmdWord 0x09 sym len emit) = .ok .encReset

/-- R93: exactly the words with OPCODE 0x0A..0xFF or RSVD != 0 are illegal, and an illegal word raises ILLEGAL_CMD with
the whole word when it starts, with no other effect. It starts at once, but for a word with FLUSH's opcode 0x06, which
starts when out_q has room for FLUSH's byte (45_control R213, 43_encode R176; FlushResult says how it waits). -/
def Obligations.IllegalWordRaises : Prop :=
  (∀ w : Word, (∃ r, decodeCmd w = .error r) ↔ (0x0A ≤ (fieldOpcode w).toNat ∨ fieldRsvd w ≠ 0)) ∧
  ∀ (s : State) (L : Latched), s.engine = .pending L →
    (0x0A ≤ (fieldOpcode L.word).toNat ∨ fieldRsvd L.word ≠ 0) →
    (fieldOpcode L.word = 0x06 → s.packCnt = 0 ∨ 1 ≤ outFree s) →
    engineStep s = .next { raise .illegalCmd L.word s with engine := .idle }

/-- R94: a CTRL write with bit 0 set performs SOFT_RESET whatever bit 1 holds, one with bit 0 clear and bit 1 set
performs ABORT, one with both clear does nothing; it acts in the bus step itself, in every state. -/
def Obligations.CtrlWriteActs : Prop :=
  ∀ (s : State) (v : Word),
    (v.getLsbD 0 = true →
      hostStep (.write 0x08 4 0b1111#4 v) s = exec .softReset (respond .written s)) ∧
    (v.getLsbD 0 = false → v.getLsbD 1 = true →
      hostStep (.write 0x08 4 0b1111#4 v) s = exec .abort (respond .written s)) ∧
    (v.getLsbD 0 = false → v.getLsbD 1 = false →
      hostStep (.write 0x08 4 0b1111#4 v) s = .next (respond .written s))

/-- The words 30_encoding writes out, its example words in R104 and the actions of R94, decode to what it says they are. -/
def Obligations.SpecWordsDecode : Prop :=
  decodeCmd 0x00016102 = .ok (.treeInsert 97 1) ∧
  decodeCmd 0x00026202 = .ok (.treeInsert 98 2) ∧
  decodeCmd 0x00004102 = .ok (.treeInsert 65 0) ∧
  decodeCmd 0x00006104 = .ok (.lookup 97) ∧
  decodeCmd 0x01000003 = .ok (.walk true) ∧
  decodeCmd 0x02000000 = .error .reservedBits ∧
  decodeCmd 0x0000000A = .error .opcode ∧
  decodeCtrl 0x00000003 = .ok .softReset ∧
  decodeCtrl 0x00000002 = .ok .abort

/-! ### Steps (00_scope R8, 20_memory R73, 45_control R212, R213) -/

/-- R8, R73: a step is the step of the agent whose turn is due; with no turn due the engine moves (log 1). -/
def Obligations.StepTakesTheTurn : Prop :=
  (∀ s : State, s.turns = [] → step s = engineStep s) ∧
  (∀ (s : State) (ts : List Turn), s.turns = .engine :: ts → step s = engineStep { s with turns := ts }) ∧
  (∀ (s : State) (h : HostStep) (ts : List Turn), s.turns = .host h :: ts →
    step s = hostStep h { s with turns := ts })

/-- R213, R94: a step that starts a latched command, or carries a CTRL write, is exec of the instruction its word
decodes to, on the state with the turn taken (and, for the write, the bus response seen). -/
def Obligations.StepRunsTheDecodedInstruction : Prop :=
  (∀ (s : State) (L : Latched) (i : Instr), s.engine = .pending L → decodeCmd L.word = .ok i →
    (s.turns = [] → step s = exec i s) ∧
    (∀ ts, s.turns = .engine :: ts → step s = exec i { s with turns := ts })) ∧
  (∀ (s : State) (v : Word) (i : Instr) (ts : List Turn),
    s.turns = .host (.write 0x08 4 0b1111#4 v) :: ts → decodeCtrl v = .ok i →
    step s = exec i { s with turns := ts, responses := s.responses ++ [.written] })

/-- R212: a CMD write while busy is dropped and sets OVR; while an error is pending it is refused without trace but for
the opcodes of NOP and CLEAR_ERR; else the word is latched with the operand registers as they stand. -/
def Obligations.CmdWriteEffects : Prop :=
  ∀ (s : State) (w : Word),
    (s.engine ≠ .idle →
      hostStep (.write 0x10 4 0b1111#4 w) s = .next { respond .written s with ovr := true }) ∧
    (s.engine = .idle → s.err = true → fieldOpcode w ≠ 0x00 → fieldOpcode w ≠ 0x08 →
      hostStep (.write 0x10 4 0b1111#4 w) s = .next (respond .written s)) ∧
    (s.engine = .idle → (s.err = false ∨ fieldOpcode w = 0x00 ∨ fieldOpcode w = 0x08) →
      hostStep (.write 0x10 4 0b1111#4 w) s =
        .next { respond .written s with
          engine := .pending { word := w, arg0 := s.arg0, arg1 := s.arg1, code := s.codeBuf } })

/-! ### Control (45_control, 60_exceptions) -/

/-- R262: `raise` records the first error; once one is recorded it changes nothing. -/
def Obligations.RaiseKeepsTheFirstError : Prop :=
  ∀ (s : State) (e : ErrCode) (info : Word),
    (s.err = false → raise e info s = { s with err := true, errcode := e, errInfo := info }) ∧
    (s.err = true → raise e info s = s)

/-- R210: NOP, OPCODE 0x00, only returns the engine to IDLE, and is accepted while an error is pending; a word with that
opcode and RSVD != 0 raises ILLEGAL_CMD instead. -/
def Obligations.NopResult : Prop :=
  (∀ (sym len : BitVec 8) (emit : Bool), decodeCmd (cmdWord 0x00 sym len emit) = .ok .nop) ∧
  (∀ (s : State) (L : Latched), s.engine = .pending L → exec .nop s = .next { s with engine := .idle }) ∧
  (∀ (s : State) (w : Word), s.engine = .idle → s.err = true → fieldOpcode w = 0x00 →
    cmdWrite w s = { s with engine := .pending (latchOf w s) }) ∧
  (∀ (s : State) (L : Latched), s.engine = .pending L → fieldOpcode L.word = 0x00 → fieldRsvd L.word ≠ 0 →
    engineStep s = .next { raise .illegalCmd L.word s with engine := .idle })

/-- R211: CLEAR_ERR, OPCODE 0x08, clears err, errcode, err_info and ovr and changes nothing else; it is accepted while
an error is pending; with RSVD != 0 the ILLEGAL_CMD takes its place, and a pending error is kept. -/
def Obligations.ClearErrResult : Prop :=
  (∀ (sym len : BitVec 8) (emit : Bool), decodeCmd (cmdWord 0x08 sym len emit) = .ok .clearErr) ∧
  (∀ (s : State) (L : Latched), s.engine = .pending L →
    exec .clearErr s =
      .next { s with err := false, errcode := .noError, errInfo := 0, ovr := false, engine := .idle }) ∧
  (∀ (s : State) (w : Word), s.engine = .idle → s.err = true → fieldOpcode w = 0x08 →
    cmdWrite w s = { s with engine := .pending (latchOf w s) }) ∧
  (∀ (s : State) (L : Latched), s.engine = .pending L → fieldOpcode L.word = 0x08 → fieldRsvd L.word ≠ 0 →
    s.err = true → engineStep s = .next { s with engine := .idle })

/-- R215, R290: SOFT_RESET, a CTRL write with bit 0 = 1, in every engine state and whatever ERR holds, and the assertion
of rst_n, put every piece of the block's state at its reset value; STATUS then reads 0x00000060. That what the host has
still to do and has seen stays is the model's choice (log 15). -/
def Obligations.ResetResult : Prop :=
  ∀ s : State, ∃ t, exec .softReset s = .next t ∧
    (∀ v : Word, v.getLsbD 0 = true →
      hostStep (.write 0x08 4 0b1111#4 v) s = .next { t with responses := s.responses ++ [.written] }) ∧
    hostStep .reset s = .next { t with responses := s.responses ++ [.resetDone] } ∧
    t.engine = .idle ∧ t.arena.get 0 = .internal none none ∧ (∀ i : NodeIdx, i ≠ 0 → t.arena.get i = .free) ∧
    t.nodeCount = 1 ∧ (∀ sym : Byte, t.leafmap.get (symIdx sym) = false) ∧ leafCount t = 0 ∧
    (∀ sym : Byte, t.clt.get (symIdx sym) = none) ∧ t.cltValid = false ∧ t.packAcc = 0 ∧ t.packCnt = 0 ∧
    t.encBitcount = 0 ∧ t.encLastbits = 0 ∧ t.decSymcount = 0 ∧ t.arg0 = 0 ∧ t.arg1 = 0 ∧ t.result = 0 ∧
    (∀ k : Fin 8, t.codeBuf.get k = 0) ∧ t.err = false ∧ t.errcode = .noError ∧ t.errInfo = 0 ∧ t.ovr = false ∧
    t.inQ = [] ∧ t.outQ = [] ∧ readReg .status t = 0x00000060 ∧ readReg .id t = 0x48554631 ∧
    readReg .param t = readReg .param s ∧ t.turns = s.turns ∧ t.responses = s.responses

/-- R216: ABORT, a CTRL write with bit 0 = 0 and bit 1 = 1, does nothing in IDLE; else the engine returns to IDLE, ABORTED is raised with the latched word unless an
error is pending, and every effect the command had stays. -/
def Obligations.AbortResult : Prop :=
  ∀ s : State,
    (s.engine = .idle → exec .abort s = .next s) ∧
    (∀ L, latched? s.engine = some L → s.err = false →
      exec .abort s = .next { s with err := true, errcode := .aborted, errInfo := L.word, engine := .idle }) ∧
    (∀ L, latched? s.engine = some L → s.err = true → exec .abort s = .next { s with engine := .idle }) ∧
    (∀ v : Word, v.getLsbD 0 = false → v.getLsbD 1 = true →
      hostStep (.write 0x08 4 0b1111#4 v) s = exec .abort (respond .written s))

/-- R214: from DRAIN with its bytes there, the engine takes and discards exactly the bytes owed and is then IDLE; nothing
else changes. Without an input byte the beat is not enabled; that its turn then passes with no effect is the model's
choice (log 3). -/
def Obligations.DrainTakesTheRest : Prop :=
  (∀ (s : State) (L : Latched) (rem : Nat), s.turns = [] → s.engine = .drain L rem → 0 < rem →
    rem ≤ s.inQ.length → runSteps rem s = .next { s with inQ := s.inQ.drop rem, engine := .idle }) ∧
  (∀ (s : State) (L : Latched) (rem : Nat), s.engine = .drain L rem → s.inQ = [] → engineStep s = .next s)

/-! ### Tree construction (41_tree_build) -/

/-- R130: TREE_CLEAR, OPCODE 0x01, makes the empty tree, an empty leaf map and a stale table, and changes nothing
else. -/
def Obligations.TreeClearResult : Prop :=
  (∀ (sym len : BitVec 8) (emit : Bool), decodeCmd (cmdWord 0x01 sym len emit) = .ok .treeClear) ∧
  ∀ (s : State) (L : Latched), s.engine = .pending L →
    ∃ t, exec .treeClear s = .next t ∧
      t = { s with
        arena := t.arena, nodeCount := 1, leafmap := t.leafmap, cltValid := false, engine := .idle } ∧
      t.arena.get 0 = .internal none none ∧ (∀ i : NodeIdx, i ≠ 0 → t.arena.get i = .free) ∧
      (∀ sym : Byte, t.leafmap.get (symIdx sym) = false) ∧ leafCount t = 0

/-- R137: TREE_INSERT of a symbol without a code and of a code apart from every code of the tree, with room for the
len - k nodes it needs where its path breaks at depth k (R136), completes: the tree then has exactly the codes it had and the new one, it is a tree still, LEAF_COUNT is one more, the
table is stale, and nothing else changes. -/
def Obligations.TreeInsertAddsItsCode : Prop :=
  ∀ (s : State) (L : Latched) (sym : Byte) (len : Nat), TreeOk s → s.engine = .pending L →
    len ≤ Config.maxCodeLen → s.leafmap.get (symIdx sym) = false →
    (∀ sym' c', codeIs s.arena sym' c' → CodesApart (codeOperand L.code len) c') →
    (∀ (k : Nat) (cur : NodeIdx), k < len → descend s.arena 0 ((codeOperand L.code len).take k) = some cur →
      child s.arena cur (codeBit L.code k) = .nil → s.nodeCount + (len - k) ≤ Config.nodeCap) →
    ∃ t, exec (.treeInsert sym len) s = .next t ∧
      t = { s with
        arena := t.arena, nodeCount := t.nodeCount,
        leafmap := s.leafmap.set (symIdx sym).val true (symIdx sym).isLt, cltValid := false, engine := .idle } ∧
      (∀ sym' c', codeIs t.arena sym' c' ↔
        codeIs s.arena sym' c' ∨ (sym' = sym ∧ c' = codeOperand L.code len)) ∧
      TreeOk t ∧ leafCount t = leafCount s + 1

/-- R136, R137: when the path breaks at depth k, the insert needs len - k nodes: NODE_COUNT grows by exactly that, or,
if the sum exceeds 511, CAPACITY is raised with len - k and nothing else changes. -/
def Obligations.TreeInsertNodeCount : Prop :=
  ∀ (s : State) (L : Latched) (sym : Byte) (len k : Nat) (cur : NodeIdx), s.engine = .pending L →
    s.leafmap.get (symIdx sym) = false → k < len →
    descend s.arena 0 ((codeOperand L.code len).take k) = some cur → child s.arena cur (codeBit L.code k) = .nil →
    (s.nodeCount + (len - k) ≤ Config.nodeCap →
      ∃ t, exec (.treeInsert sym len) s = .next t ∧ t.nodeCount = s.nodeCount + (len - k) ∧ t.err = s.err) ∧
    (Config.nodeCap < s.nodeCount + (len - k) →
      exec (.treeInsert sym len) s =
        .next { raise .capacity (BitVec.ofNat 32 (len - k)) s with engine := .idle })

/-- R133, R134: a Leaf at depth k < len on the path raises FORMAT_PREFIX with k; a whole path that ends at an Internal
node with a child raises FORMAT_PREFIX with len; nothing else changes. -/
def Obligations.TreeInsertPrefixErrors : Prop :=
  ∀ (s : State) (L : Latched) (sym : Byte) (len : Nat), s.engine = .pending L →
    s.leafmap.get (symIdx sym) = false →
    (∀ (k : Nat) (i : NodeIdx) (sym' : Byte), k < len →
      descend s.arena 0 ((codeOperand L.code len).take k) = some i → s.arena.get i = .leaf sym' →
      exec (.treeInsert sym len) s = .next { raise .formatPrefix (BitVec.ofNat 32 k) s with engine := .idle }) ∧
    (∀ (i : NodeIdx) (l r : Option NodeIdx), descend s.arena 0 (codeOperand L.code len) = some i →
      s.arena.get i = .internal l r → (l ≠ none ∨ r ≠ none) →
      exec (.treeInsert sym len) s = .next { raise .formatPrefix (BitVec.ofNat 32 len) s with engine := .idle })

/-- R135: a symbol that already has a code raises FORMAT_DUP_SYMBOL with the symbol, before the walk; a code another
symbol has raises FORMAT_DUP_CODE with its length; nothing else changes. -/
def Obligations.TreeInsertDuplicates : Prop :=
  ∀ (s : State) (L : Latched) (sym : Byte) (len : Nat), s.engine = .pending L →
    (s.leafmap.get (symIdx sym) = true →
      exec (.treeInsert sym len) s =
        .next { raise .formatDupSymbol (sym.setWidth 32) s with engine := .idle }) ∧
    (∀ (i : NodeIdx) (sym' : Byte), s.leafmap.get (symIdx sym) = false →
      descend s.arena 0 (codeOperand L.code len) = some i → s.arena.get i = .leaf sym' →
      exec (.treeInsert sym len) s =
        .next { raise .formatDupCode (BitVec.ofNat 32 len) s with engine := .idle })

/-- R138: whatever TREE_INSERT answers, it takes no input, pushes no output and leaves the packer, the counters, RESULT,
CODE0..CODE7 and the table's entries; one that raises leaves the tree, NODE_COUNT, the leaf map and clt_valid, and
raises only the errors of R133 to R136. -/
def Obligations.TreeInsertIsAtomic : Prop :=
  ∀ (s t : State) (sym : Byte) (len : Nat), exec (.treeInsert sym len) s = .next t →
    (t.inQ = s.inQ ∧ t.outQ = s.outQ ∧ t.packAcc = s.packAcc ∧ t.packCnt = s.packCnt ∧
      t.encBitcount = s.encBitcount ∧ t.encLastbits = s.encLastbits ∧ t.decSymcount = s.decSymcount ∧
      t.result = s.result ∧ t.codeBuf = s.codeBuf ∧ t.arg0 = s.arg0 ∧ t.arg1 = s.arg1 ∧ t.clt = s.clt ∧
      t.ovr = s.ovr ∧ t.engine = .idle ∧ t.turns = s.turns ∧ t.responses = s.responses) ∧
    (s.err = false → t.err = true →
      t.arena = s.arena ∧ t.nodeCount = s.nodeCount ∧ t.leafmap = s.leafmap ∧ t.cltValid = s.cltValid ∧
      t.errcode ∈ [ErrCode.formatPrefix, .formatDupCode, .formatDupSymbol, .capacity])

/-! ### Walk and lookup (42_walk_lookup) -/

/-- R151, and the spec's inference R152 for the order: WALK completes in every tree: each table entry becomes its symbol's code, clt_valid is 1, and with
EMIT = 1 and a leaf to list the engine holds the records of exactly the tree's leaves in ascending order of their codes;
nothing else changes. -/
def Obligations.WalkFillsTheTable : Prop :=
  ∀ (s : State) (L : Latched) (emit : Bool), TreeOk s → s.engine = .pending L →
    ∃ t leaves, exec (.walk emit) s = .next t ∧
      t = { s with clt := t.clt, cltValid := true, engine := t.engine } ∧
      (∀ sym c, t.clt.get (symIdx sym) = some c ↔ codeIs s.arena sym c) ∧
      (∀ r : Record, r ∈ leaves ↔ codeIs s.arena r.sym r.code) ∧
      leaves.Pairwise (fun a b => codeBefore a.code b.code = true) ∧
      t.engine = (if emit = true ∧ leaves ≠ [] then .walk L leaves else .idle)

/-- R153, R97: the WALK beat pushes one whole record, symbol, length and packed code, when out_q has room for it. Without
room the beat is not enabled; that its turn then passes with no effect is the model's choice (log 3). -/
def Obligations.WalkBeatResult : Prop :=
  ∀ (s : State) (L : Latched) (r : Record) (rest : List Record), s.engine = .walk L (r :: rest) →
    (2 + ceil8 r.code.length ≤ outFree s →
      engineStep s = .next { s with
        outQ := s.outQ ++ (r.sym :: BitVec.ofNat 8 r.code.length :: packBits r.code)
        engine := if rest = [] then .idle else .walk L rest }) ∧
    (outFree s < 2 + ceil8 r.code.length → engineStep s = .next s)

/-- R157, R158, R98: LOOKUP, OPCODE 0x04, raises NOT_READY with the command word while the table is stale; else a symbol
with a code gives FOUND, its length and its code in the layout of R95 with 0 past its end, and one without gives 0;
nothing else changes. -/
def Obligations.LookupResult : Prop :=
  (∀ (sym len : BitVec 8) (emit : Bool), decodeCmd (cmdWord 0x04 sym len emit) = .ok (.lookup sym)) ∧
  ∀ (s : State) (L : Latched) (sym : Byte), s.engine = .pending L →
    (s.cltValid = false →
      exec (.lookup sym) s = .next { raise .notReady L.word s with engine := .idle }) ∧
    (∀ c, s.cltValid = true → s.clt.get (symIdx sym) = some c → c.length ≤ Config.maxCodeLen →
      ∃ t, exec (.lookup sym) s = .next t ∧
        t = { s with result := 0x80000000 ||| BitVec.ofNat 32 c.length, codeBuf := t.codeBuf, engine := .idle } ∧
        ∀ k, k < 256 → codeBit t.codeBuf k = (if k < c.length then c.getD k false else false)) ∧
    (s.cltValid = true → s.clt.get (symIdx sym) = none →
      exec (.lookup sym) s = .next { s with result := 0, codeBuf := Vector.replicate 8 0, engine := .idle })

/-- R95, R98: a code in the layout LOOKUP writes is read back whole as a TREE_INSERT operand of its length. -/
def Obligations.LookupLayoutIsInsertLayout : Prop :=
  ∀ c : Code, c.length ≤ 256 → codeOperand (codeBufOf c) c.length = c

/-! ### Encoding and packing (43_encode, 20_memory R69, R70) -/

/-- R69, R70: the bits read back from packed bytes are the bits packed, and what follows them is 0. -/
def Obligations.PackThenUnpack : Prop :=
  ∀ bits : List Bool,
    unpackBits (packBits bits) = bits ++ List.replicate (8 * ceil8 bits.length - bits.length) false

/-- R170, R171: ENCODE's start step with a valid table enters ENC with arg0 bytes to take, or returns to IDLE when there
is none; with a stale table it raises NOT_READY with the command word and drains the bytes; nothing else changes. -/
def Obligations.EncodeStartResult : Prop :=
  ∀ (s : State) (L : Latched), s.engine = .pending L →
    (s.cltValid = true → 0 < L.arg0.toNat →
      exec .encode s = .next { s with engine := .enc L L.arg0.toNat 0 }) ∧
    (s.cltValid = true → L.arg0 = 0 → exec .encode s = .next { s with engine := .idle }) ∧
    (s.cltValid = false → 0 < L.arg0.toNat →
      exec .encode s = .next { raise .notReady L.word s with engine := .drain L L.arg0.toNat }) ∧
    (s.cltValid = false → L.arg0 = 0 →
      exec .encode s = .next { raise .notReady L.word s with engine := .idle })

/-- R172, R173: the ENCODE beat takes one byte and appends its whole code: the whole bytes of the held and new bits are
pushed, the rest is held, ENC_BITCOUNT grows by the code's length; nothing else changes. -/
def Obligations.EncodeBeatAppends : Prop :=
  ∀ (s : State) (L : Latched) (rem j : Nat) (b : Byte) (rest : List Byte) (c : Code), PackOk s →
    s.engine = .enc L rem j → s.inQ = b :: rest → s.clt.get (symIdx b) = some c →
    s.encBitcount.toNat + c.length ≤ 0xFFFFFFFF → (s.packCnt.val + c.length) / 8 ≤ outFree s →
    ∃ t, engineStep s = .next t ∧
      t = { s with
        inQ := rest
        outQ := s.outQ ++ (packBits (heldBits s ++ c)).take ((s.packCnt.val + c.length) / 8)
        packAcc := t.packAcc, packCnt := t.packCnt
        encBitcount := s.encBitcount + BitVec.ofNat 32 c.length
        engine := if 1 < rem then .enc L (rem - 1) (j + 1) else .idle } ∧
      heldBits t = (heldBits s ++ c).drop (8 * ((s.packCnt.val + c.length) / 8)) ∧
      t.encBitcount.toNat = s.encBitcount.toNat + c.length ∧ PackOk t

/-- R172: the ENCODE beat on a symbol without a code raises UNKNOWN_SYMBOL, on one that would take ENC_BITCOUNT past
2^32 - 1 raises BITCOUNT_OVERFLOW, each with the byte's index; the byte is taken, nothing is appended, and the rest of
the input is drained. Without an input byte, or without room for a code's bytes, the beat is not enabled; that its turn
then passes with no effect is the model's choice (log 3). -/
def Obligations.EncodeBeatErrors : Prop :=
  ∀ (s : State) (L : Latched) (rem j : Nat), s.engine = .enc L rem j →
    (s.inQ = [] → engineStep s = .next s) ∧
    (∀ b rest, s.inQ = b :: rest → s.clt.get (symIdx b) = none →
      engineStep s = .next { raise .unknownSymbol (BitVec.ofNat 32 j) s with
        inQ := rest, engine := if 1 < rem then .drain L (rem - 1) else .idle }) ∧
    (∀ b rest c, s.inQ = b :: rest → s.clt.get (symIdx b) = some c →
      0xFFFFFFFF < s.encBitcount.toNat + c.length →
      engineStep s = .next { raise .bitcountOverflow (BitVec.ofNat 32 j) s with
        inQ := rest, engine := if 1 < rem then .drain L (rem - 1) else .idle }) ∧
    (∀ b rest c, s.inQ = b :: rest → s.clt.get (symIdx b) = some c →
      s.encBitcount.toNat + c.length ≤ 0xFFFFFFFF → outFree s < (s.packCnt.val + c.length) / 8 →
      engineStep s = .next s)

/-- The spec's inference R174, from R172 and R173: an ENCODE of symbols that all have codes, with its input there and room for its output, run to its end: with S
the held bits and the codes in input order, the first `len(S) / 8` bytes of `pack(S)` are pushed, the last
`len(S) mod 8` bits are held, and ENC_BITCOUNT counts the codes' bits; nothing else but the input taken changes. -/
def Obligations.EncodeRunResult : Prop :=
  ∀ (s : State) (L : Latched) (es : List (Byte × Code)) (rest : List Byte), PackOk s → s.turns = [] →
    s.engine = .pending L → decodeCmd L.word = .ok .encode → s.cltValid = true → L.arg0.toNat = es.length →
    s.inQ = es.map (·.1) ++ rest → (∀ e ∈ es, s.clt.get (symIdx e.1) = some e.2) →
    s.encBitcount.toNat + (es.flatMap (·.2)).length ≤ 0xFFFFFFFF →
    s.outQ.length + (s.packCnt.val + (es.flatMap (·.2)).length) / 8 ≤ Config.outDepth →
    ∃ t : State, runSteps (1 + es.length) s = .next t ∧
      t = { s with
        inQ := rest
        outQ := s.outQ ++
          (packBits (heldBits s ++ es.flatMap (·.2))).take ((s.packCnt.val + (es.flatMap (·.2)).length) / 8)
        packAcc := t.packAcc, packCnt := t.packCnt
        encBitcount := s.encBitcount + BitVec.ofNat 32 (es.flatMap (·.2)).length
        engine := .idle } ∧
      heldBits t = (heldBits s ++ es.flatMap (·.2)).drop
        (8 * ((s.packCnt.val + (es.flatMap (·.2)).length) / 8)) ∧
      PackOk t

/-- R176: FLUSH, OPCODE 0x06, with room for its byte pushes the partial byte if any, moves ENC_BITCOUNT to ENC_LASTBITS
and empties the packer; nothing else changes. Without room its start step is not enabled; that the turn then passes with
no effect is the model's choice (log 3). Every latched word with that opcode, RSVD != 0 too, waits for the same room
(45_control R213, as log 18 reads it). -/
def Obligations.FlushResult : Prop :=
  (∀ (sym len : BitVec 8) (emit : Bool), decodeCmd (cmdWord 0x06 sym len emit) = .ok .flush) ∧
  ∀ (s : State) (L : Latched), s.engine = .pending L →
    (s.packCnt = 0 →
      exec .flush s = .next { s with
        encLastbits := s.encBitcount, encBitcount := 0, packAcc := 0, packCnt := 0, engine := .idle }) ∧
    (s.packCnt ≠ 0 → 1 ≤ outFree s →
      exec .flush s = .next { s with
        outQ := s.outQ ++ [s.packAcc]
        encLastbits := s.encBitcount, encBitcount := 0, packAcc := 0, packCnt := 0, engine := .idle }) ∧
    (s.packCnt ≠ 0 → outFree s = 0 → exec .flush s = .next s) ∧
    (s.packCnt ≠ 0 → outFree s = 0 → fieldOpcode L.word = 0x06 → engineStep s = .next s)

/-- R176, R70: the bytes FLUSH pushes are the packing of the bits held, padded with 0. -/
def Obligations.FlushPadsWithZero : Prop :=
  ∀ (s : State) (L : Latched), PackOk s → s.engine = .pending L → 1 ≤ outFree s →
    ∃ t, exec .flush s = .next t ∧ t.outQ = s.outQ ++ packBits (heldBits s) ∧ heldBits t = []

/-- R178: ENC_RESET, OPCODE 0x09, empties the packer and ENC_BITCOUNT without pushing, and changes nothing else. -/
def Obligations.EncResetResult : Prop :=
  (∀ (sym len : BitVec 8) (emit : Bool), decodeCmd (cmdWord 0x09 sym len emit) = .ok .encReset) ∧
  ∀ (s : State) (L : Latched), s.engine = .pending L →
    exec .encReset s = .next { s with packAcc := 0, packCnt := 0, encBitcount := 0, engine := .idle }

/-! ### Decoding (44_decode) -/

/-- R191: DECODE's start step clears DEC_SYMCOUNT and enters DEC, or, for a root-is-leaf tree, DECLEAF; with no bit or
symbol to take it returns to IDLE; bits given for a root-is-leaf tree raise STRUCTURAL(0) and drain; nothing else
changes. -/
def Obligations.DecodeStartResult : Prop :=
  ∀ (s : State) (L : Latched), s.engine = .pending L →
    ((∀ sym, s.arena.get 0 ≠ .leaf sym) →
      exec .decode s = .next { s with
        decSymcount := 0, engine := if 0 < L.arg0.toNat then .dec L L.arg0.toNat 0 0 0 else .idle }) ∧
    (∀ sym, s.arena.get 0 = .leaf sym → L.arg0 = 0 →
      exec .decode s = .next { s with
        decSymcount := 0, engine := if 0 < L.arg1.toNat then .decLeaf L L.arg1.toNat sym else .idle }) ∧
    (∀ sym, s.arena.get 0 = .leaf sym → 0 < L.arg0.toNat →
      exec .decode s = .next { raise .structural 0 s with
        decSymcount := 0, engine := .drain L (ceil8 L.arg0.toNat) })

/-- The spec's inference R197, from R193: a DECODE whose payload is a concatenation of codes, with an Internal root, its bytes there and room for its
symbols, run to its end: it pushes the symbols in order, DEC_SYMCOUNT counts them, no error is raised, exactly its bytes
are taken, and nothing else changes; padding bits may be anything. -/
def Obligations.DecodeRunResult : Prop :=
  ∀ (s : State) (L : Latched) (es : List (Byte × Code)) (bytes rest : List Byte), TreeOk s → s.turns = [] →
    s.engine = .pending L → decodeCmd L.word = .ok .decode → (∀ sym, s.arena.get 0 ≠ .leaf sym) →
    (∀ e ∈ es, codeIs s.arena e.1 e.2) → L.arg0.toNat = (es.flatMap (·.2)).length →
    s.inQ = bytes ++ rest → bytes.length = ceil8 L.arg0.toNat →
    (unpackBits bytes).take L.arg0.toNat = es.flatMap (·.2) → s.outQ.length + es.length ≤ Config.outDepth →
    runSteps (1 + bytes.length) s = .next { s with
      inQ := rest, outQ := s.outQ ++ es.map (·.1), decSymcount := BitVec.ofNat 32 es.length, engine := .idle }

/-- R196: when the concatenation is followed by a proper, non-empty prefix of a code, DECODE pushes the whole
codes' symbols and raises TRUNCATED with the index where the prefix begins. -/
def Obligations.DecodeRunTruncated : Prop :=
  ∀ (s : State) (L : Latched) (es : List (Byte × Code)) (sym : Byte) (c p : Code) (bytes rest : List Byte),
    TreeOk s → s.turns = [] → s.engine = .pending L → decodeCmd L.word = .ok .decode →
    (∀ sym, s.arena.get 0 ≠ .leaf sym) → (∀ e ∈ es, codeIs s.arena e.1 e.2) →
    codeIs s.arena sym c → p <+: c → p ≠ c → p ≠ [] →
    L.arg0.toNat = (es.flatMap (·.2) ++ p).length → s.inQ = bytes ++ rest → bytes.length = ceil8 L.arg0.toNat →
    (unpackBits bytes).take L.arg0.toNat = es.flatMap (·.2) ++ p →
    s.outQ.length + es.length ≤ Config.outDepth →
    runSteps (1 + bytes.length) s =
      .next { raise .truncated (BitVec.ofNat 32 (es.flatMap (·.2)).length) s with
        inQ := rest, outQ := s.outQ ++ es.map (·.1), decSymcount := BitVec.ofNat 32 es.length, engine := .idle }

/-- R195: when, after whole codes, a payload bit selects a NIL child, DECODE pushes the whole codes' symbols, raises
INVALID_CODE with that bit's index, and takes the rest of its bytes. R193: without an input byte, or without room for the
symbols its bit loop pushes for the oldest byte, the DECODE beat is not enabled; that its turn then passes with no effect
is the model's choice (log 3). -/
def Obligations.DecodeRunInvalidCode : Prop :=
  (∀ (s : State) (L : Latched) (es : List (Byte × Code)) (p ys : Code) (x : Bool) (k : NodeIdx)
    (bytes rest : List Byte),
    TreeOk s → s.turns = [] → s.engine = .pending L → decodeCmd L.word = .ok .decode →
    (∀ sym, s.arena.get 0 ≠ .leaf sym) → (∀ e ∈ es, codeIs s.arena e.1 e.2) →
    descend s.arena 0 p = some k → child s.arena k x = .nil →
    L.arg0.toNat = (es.flatMap (·.2) ++ p ++ x :: ys).length →
    s.inQ = bytes ++ rest → bytes.length = ceil8 L.arg0.toNat →
    (unpackBits bytes).take L.arg0.toNat = es.flatMap (·.2) ++ p ++ x :: ys →
    s.outQ.length + es.length ≤ Config.outDepth →
    runSteps (1 + bytes.length) s =
      .next { raise .invalidCode (BitVec.ofNat 32 (es.flatMap (·.2) ++ p).length) s with
        inQ := rest, outQ := s.outQ ++ es.map (·.1), decSymcount := BitVec.ofNat 32 es.length, engine := .idle }) ∧
  (∀ (s : State) (L : Latched) (remBits i : Nat) (cur : NodeIdx) (start : Nat),
    s.engine = .dec L remBits i cur start →
    (s.inQ = [] → engineStep s = .next s) ∧
    (∀ b rest, s.inQ = b :: rest →
      outFree s < (scanBits s.arena (payloadBits b remBits) cur i start).syms.length → engineStep s = .next s))

/-- R194: a DECODE of a root-is-leaf tree with no payload bit pushes the root's symbol exactly ARG1 times, given room for
them, takes no input and raises nothing. Without room for a symbol the beat is not enabled; that its turn then passes
with no effect is the model's choice (log 3). -/
def Obligations.DecodeRootLeafRun : Prop :=
  (∀ (s : State) (L : Latched) (sym : Byte), s.turns = [] → s.engine = .pending L →
    decodeCmd L.word = .ok .decode → s.arena.get 0 = .leaf sym → L.arg0 = 0 →
    s.outQ.length + L.arg1.toNat ≤ Config.outDepth →
    runSteps (1 + L.arg1.toNat) s = .next { s with
      outQ := s.outQ ++ List.replicate L.arg1.toNat sym, decSymcount := L.arg1, engine := .idle }) ∧
  (∀ (s : State) (L : Latched) (rem : Nat) (sym : Byte), s.engine = .decLeaf L rem sym → outFree s = 0 →
    engineStep s = .next s)

/-- The spec's inference R198, from R174 and R197: what ENCODE and FLUSH make of symbols that all have codes, DECODE
turns back into those symbols, with ENC_LASTBITS as its bit count. The host's part between the commands is written as the
states it leaves: the next command latched, and for DECODE the output bytes moved to the input. -/
def Obligations.RoundTrip : Prop :=
  ∀ (s : State) (LE LF LD : Latched) (es : List (Byte × Code)), TreeOk s → TableOk s → s.cltValid = true →
    (∀ sym, s.arena.get 0 ≠ .leaf sym) → (∀ e ∈ es, codeIs s.arena e.1 e.2) →
    s.packAcc = 0 → s.packCnt = 0 → s.encBitcount = 0 → s.turns = [] → s.outQ = [] → s.inQ = es.map (·.1) →
    s.engine = .pending LE → decodeCmd LE.word = .ok .encode → decodeCmd LF.word = .ok .flush →
    decodeCmd LD.word = .ok .decode → LE.arg0.toNat = es.length → LD.arg0.toNat = (es.flatMap (·.2)).length →
    ceil8 (es.flatMap (·.2)).length ≤ Config.outDepth → es.length ≤ Config.outDepth →
    ∃ t u v : State, runSteps (1 + es.length) s = .next t ∧
      runSteps 1 { t with engine := .pending LF } = .next u ∧ u.encLastbits = LD.arg0 ∧
      runSteps (1 + u.outQ.length) { u with engine := .pending LD, inQ := u.outQ, outQ := [] } = .next v ∧
      v.outQ = es.map (·.1) ∧ v.inQ = [] ∧ v.err = s.err ∧ v.engine = .idle

/-! ### Registers and ports (10_state, 20_memory, 45_control R217) -/

/-- R20: every register has the offset R20's table gives it, answers at that offset, and no two share one. -/
def Obligations.RegisterMapIsInjective : Prop :=
  (regOffset .id = 0x00 ∧ regOffset .param = 0x04 ∧ regOffset .ctrl = 0x08 ∧ regOffset .status = 0x0C ∧
    regOffset .cmd = 0x10 ∧ regOffset .arg0 = 0x14 ∧ regOffset .arg1 = 0x18 ∧ regOffset .result = 0x1C ∧
    regOffset .errInfo = 0x20 ∧ regOffset .encBitcount = 0x24 ∧ regOffset .encLastbits = 0x28 ∧
    regOffset .decSymcount = 0x2C ∧ regOffset .nodeCount = 0x30 ∧ regOffset .leafCount = 0x34 ∧
    regOffset .fifoLevel = 0x38 ∧ ∀ k : Fin 8, (regOffset (.code k)).toNat = 0x40 + 4 * k.val) ∧
  (∀ r : Reg, regAt (regOffset r) = some r) ∧ (∀ r r' : Reg, regOffset r = regOffset r' → r = r')

/-- R62, R63: a read changes nothing of the block and answers the register's value; an access that is not an aligned
32-bit word, or a write without all strobes, answers BusError and has no effect. The values: CTRL and CMD read 0, ID its
constant, RESULT, ERR_INFO and the three counters what they hold, NODE_COUNT and LEAF_COUNT their counts in full. -/
def Obligations.BusAccesses : Prop :=
  ∀ (s : State) (addr : BitVec 7) (n : Nat) (strb : BitVec 4) (v : Word),
    (∃ r, hostStep (.read addr n) s = .next (respond r s)) ∧
    (∀ r : Reg, hostStep (.read (regOffset r) 4) s = .next (respond (.rdata (readReg r s)) s)) ∧
    ((n ≠ 4 ∨ addr.toNat % 4 ≠ 0) →
      hostStep (.read addr n) s = .next (respond .busError s) ∧
      hostStep (.write addr n strb v) s = .next (respond .busError s)) ∧
    (strb ≠ 0b1111#4 → hostStep (.write addr n strb v) s = .next (respond .busError s)) ∧
    (readReg .ctrl s = 0 ∧ readReg .cmd s = 0 ∧ readReg .id s = 0x48554631 ∧ readReg .result s = s.result ∧
      readReg .errInfo s = s.errInfo ∧ readReg .encBitcount s = s.encBitcount ∧
      readReg .encLastbits s = s.encLastbits ∧ readReg .decSymcount s = s.decSymcount) ∧
    (s.nodeCount ≤ 511 → (readReg .nodeCount s).toNat = s.nodeCount) ∧
    (readReg .leafCount s).toNat = s.leafmap.toList.count true

/-- R64: at the reserved offsets 0x3C and 0x60 to 0x7C an aligned 32-bit read answers 0 and a write is ignored, both
without bus error. -/
def Obligations.ReservedOffsets : Prop :=
  ∀ (s : State) (addr : BitVec 7) (v : Word), addr.toNat % 4 = 0 → (addr.toNat = 0x3C ∨ 0x60 ≤ addr.toNat) →
    hostStep (.read addr 4) s = .next (respond (.rdata 0) s) ∧
    hostStep (.write addr 4 0b1111#4 v) s = .next (respond .written s)

/-- R217, R20: a write to ARG0, ARG1 or CODEk is read back at once and changes no other register nor the engine, in every
engine state; a write to a read-only register is ignored. -/
def Obligations.PlainRegisterAccess : Prop :=
  (∀ (s : State) (r : Reg) (v : Word), (r = .arg0 ∨ r = .arg1 ∨ ∃ k, r = .code k) →
    ∃ t, hostStep (.write (regOffset r) 4 0b1111#4 v) s = .next t ∧ readReg r t = v ∧
      (∀ r', r' ≠ r → readReg r' t = readReg r' s) ∧ t.engine = s.engine) ∧
  (∀ (s : State) (r : Reg) (v : Word),
    r ∈ [Reg.id, .param, .status, .result, .errInfo, .encBitcount, .encLastbits, .decSymcount, .nodeCount,
      .leafCount, .fifoLevel] →
    hostStep (.write (regOffset r) 4 0b1111#4 v) s = .next (respond .written s))

/-- R24: the fields of STATUS, in every state, and its value at reset; ERRCODE shows the number R260's table gives the
recorded error. -/
def Obligations.StatusFields : Prop :=
  statusWord State.reset = 0x00000060 ∧
  (errCodeBits .noError = 0x0 ∧ errCodeBits .formatPrefix = 0x1 ∧ errCodeBits .formatDupCode = 0x2 ∧
    errCodeBits .formatDupSymbol = 0x3 ∧ errCodeBits .structural = 0x4 ∧ errCodeBits .truncated = 0x5 ∧
    errCodeBits .unknownSymbol = 0x6 ∧ errCodeBits .invalidCode = 0x7 ∧ errCodeBits .capacity = 0x8 ∧
    errCodeBits .notReady = 0x9 ∧ errCodeBits .illegalCmd = 0xA ∧ errCodeBits .bitcountOverflow = 0xB ∧
    errCodeBits .aborted = 0xC) ∧
  ∀ s : State,
    ((statusWord s).getLsbD 0 = true ↔ s.engine ≠ .idle) ∧
    (statusWord s).getLsbD 1 = s.err ∧
    (statusWord s).getLsbD 2 = s.ovr ∧
    (statusWord s).getLsbD 3 = s.cltValid ∧
    ((statusWord s).getLsbD 4 = true ↔ ∃ sym, s.arena.get 0 = .leaf sym) ∧
    ((statusWord s).getLsbD 5 = true ↔ s.inQ = []) ∧
    ((statusWord s).getLsbD 6 = true ↔ s.outQ = []) ∧
    ((statusWord s).getLsbD 7 = true ↔ ∃ L rem, s.engine = .drain L rem) ∧
    (statusWord s).extractLsb' 8 4 = errCodeBits s.errcode ∧
    (statusWord s).extractLsb' 12 4 = 0 ∧
    ((statusWord s).extractLsb' 16 3).toNat = s.packCnt.val ∧
    (statusWord s).extractLsb' 19 13 = 0

/-- R22, R44: PARAM shows the depths and FIFO_LEVEL the levels, in full; FIFO_LEVEL is 0 at reset. -/
def Obligations.ParamAndFifoLevel : Prop :=
  (∀ s : State,
    ((readReg .param s).extractLsb' 0 16).toNat = Config.inDepth ∧
    ((readReg .param s).extractLsb' 16 16).toNat = Config.outDepth) ∧
  (∀ s : State, QueuesOk s →
    ((readReg .fifoLevel s).extractLsb' 0 16).toNat = s.inQ.length ∧
    ((readReg .fifoLevel s).extractLsb' 16 16).toNat = s.outQ.length) ∧
  readReg .fifoLevel State.reset = 0

/-- R66, R67: a push appends its byte when in_q has room; a pop removes and returns the oldest byte. With in_q full, or
out_q empty, the host has no such step; that its turn then passes with no effect on the block is the model's choice
(log 3). -/
def Obligations.PushAndPop : Prop :=
  ∀ (s : State) (b : Byte),
    (s.inQ.length < Config.inDepth →
      hostStep (.push b) s = .next { s with inQ := s.inQ ++ [b], responses := s.responses ++ [.pushed] }) ∧
    (Config.inDepth ≤ s.inQ.length →
      hostStep (.push b) s = .next { s with responses := s.responses ++ [.pushBlocked] }) ∧
    (∀ rest, s.outQ = b :: rest →
      hostStep .pop s = .next { s with outQ := rest, responses := s.responses ++ [.popped b] }) ∧
    (s.outQ = [] → hostStep .pop s = .next { s with responses := s.responses ++ [.popBlocked] })

/-! ### Invariants (10_state R47) -/

/-- The spec's inference R47, and the ranges of R30 to R43, hold at reset (R290). -/
def Obligations.ResetHasInvariant : Prop := Inv State.reset

/-- The spec's inference R47, with the ranges of R30 to R43: every step, of host or engine, keeps the invariant: the tree is a strict binary tree with no code a prefix of
another, the table matches it, the packer's unused bits are 0, the queues are within capacity, the error state and the
engine's fields are in range. -/
def Obligations.StepKeepsInvariant : Prop :=
  ∀ s t : State, Inv s → step s = .next t → Inv t

/-- R121, with the spec's inference R47: from a state with the invariant every step answers a next state: no fault, no refusal. -/
def Obligations.StepNeverStops : Prop :=
  ∀ s : State, Inv s → ∃ t, step s = .next t

/-- R43, R66, R67: no step takes a stream buffer past its capacity. -/
def Obligations.StepKeepsQueueCapacity : Prop :=
  ∀ s t : State, QueuesOk s → step s = .next t → QueuesOk t

/-- R36, and item 6 of the spec's inference R47: every step keeps the packer's unused bits 0 and pack_cnt = ENC_BITCOUNT mod 8. -/
def Obligations.StepKeepsPacker : Prop :=
  ∀ s t : State, PackOk s → step s = .next t → PackOk t

/-- The spec's inference R123, from R121, R122 and R133: in a tree no leaf's code is a prefix of another's, and a symbol has one code. -/
def Obligations.CodesArePrefixFree : Prop :=
  (∀ (s : State) (sym sym' : Byte) (c c' : Code), TreeOk s → codeIs s.arena sym c → codeIs s.arena sym' c' →
    c <+: c' → sym = sym' ∧ c = c') ∧
  (∀ (s : State) (sym : Byte) (c c' : Code), TreeOk s → codeIs s.arena sym c → codeIs s.arena sym c' → c = c')

/-! ### Rules about the whole machine -/

/-- R28, R38: RESULT is written by LOOKUP only, ENC_LASTBITS by FLUSH only, and by reset. -/
def Obligations.WritersOfResultAndLastbits : Prop :=
  (∀ s t : State, engineStep s = .next t →
    (t.result ≠ s.result → ∃ sym, starts s (.lookup sym)) ∧
    (t.encLastbits ≠ s.encLastbits → starts s .flush ∧ t.encLastbits = s.encBitcount)) ∧
  (∀ (h : HostStep) (s t : State), hostStep h s = .next t → resetsBlock h = false →
    t.result = s.result ∧ t.encLastbits = s.encLastbits)

/-- R126, R34: the tree changes only through TREE_CLEAR, TREE_INSERT and reset; clt_valid becomes 1 only by WALK and
becomes 0 only by TREE_CLEAR, TREE_INSERT and reset. -/
def Obligations.WritersOfTreeAndTable : Prop :=
  (∀ s t : State, engineStep s = .next t →
    ((t.arena ≠ s.arena ∨ t.nodeCount ≠ s.nodeCount ∨ t.leafmap ≠ s.leafmap) →
      starts s .treeClear ∨ ∃ sym len, starts s (.treeInsert sym len)) ∧
    (s.cltValid = true → t.cltValid = false →
      starts s .treeClear ∨ ∃ sym len, starts s (.treeInsert sym len)) ∧
    (s.cltValid = false → t.cltValid = true → ∃ emit, starts s (.walk emit)) ∧
    (t.clt ≠ s.clt → ∃ emit, starts s (.walk emit))) ∧
  (∀ (h : HostStep) (s t : State), hostStep h s = .next t → resetsBlock h = false →
    t.arena = s.arena ∧ t.nodeCount = s.nodeCount ∧ t.leafmap = s.leafmap ∧ t.clt = s.clt ∧
      t.cltValid = s.cltValid)

/-- R26, R27, R45: no command writes ARG0 or ARG1, and only LOOKUP writes CODE0..CODE7. -/
def Obligations.OperandRegistersAreTheHosts : Prop :=
  ∀ s t : State, engineStep s = .next t →
    t.arg0 = s.arg0 ∧ t.arg1 = s.arg1 ∧ (t.codeBuf ≠ s.codeBuf → ∃ sym, starts s (.lookup sym))

/-- R262, R268: once recorded, an error and its word stay until CLEAR_ERR or reset. -/
def Obligations.ErrorIsSticky : Prop :=
  (∀ s t : State, engineStep s = .next t → s.err = true → ¬ starts s .clearErr →
    t.err = true ∧ t.errcode = s.errcode ∧ t.errInfo = s.errInfo) ∧
  (∀ (h : HostStep) (s t : State), hostStep h s = .next t → resetsBlock h = false → s.err = true →
    t.err = true ∧ t.errcode = s.errcode ∧ t.errInfo = s.errInfo)

/-- R67, R68, R219: an engine step only appends to out_q, and takes no input byte or exactly the oldest one. -/
def Obligations.EngineStepMovesWholeBytes : Prop :=
  ∀ s t : State, engineStep s = .next t →
    (∃ bs, t.outQ = s.outQ ++ bs) ∧ (t.inQ = s.inQ ∨ ∃ b, s.inQ = b :: t.inQ)

/-- Behind the spec's inference R220: with an input byte there and room for the largest push, every beat brings its command nearer to its end. -/
def Obligations.BeatsMakeProgress : Prop :=
  ∀ s t : State, Inv s → s.engine ≠ .idle → (∀ L, s.engine ≠ .pending L) → s.inQ ≠ [] → 34 ≤ outFree s →
    engineStep s = .next t → beatsLeft t.engine < beatsLeft s.engine

/-! ### Host reference functions (46_host_reference) -/

/-- R240, R241, R242: parsing the text of a code table gives the table back. -/
def Obligations.HostParseOfTableText : Prop :=
  ∀ es : List (Byte × Code), (∀ e ∈ es, e.2.length ≤ Config.maxCodeLen) → hostParse (tableText es) = .ok es

/-- R234: HostBuild fails with EmptyAlphabetError exactly when no count is nonzero. -/
def Obligations.HostBuildFailsOnlyEmpty : Prop :=
  ∀ freq : List Nat, hostBuild freq = .error .emptyAlphabet ↔ ∀ c ∈ freq, c = 0

/-- Behind the spec's inference R236: the codes of a built tree's leaves are pairwise apart. -/
def Obligations.HostTreeCodesApart : Prop :=
  ∀ t : HostTree, (hostLeafCodes t []).Pairwise (fun a b => CodesApart a.2 b.2)
end

