-- ==== Sys2Proof/Laws/Bits.lean ====
section
/-! SUPPORT. Words from bits, bytes to bits, packing and the code buffer (30_encoding R95, R98; 20_memory R69, R70). -/

namespace Sys2Proof.Machine

theorem foldl_shiftConcat_getLsbD {n : Nat} (bs : List Bool) (x : BitVec n) (j : Nat) (hj : j < n) :
    (bs.foldl BitVec.shiftConcat x).getLsbD j =
      if j < bs.length then bs.getD (bs.length - 1 - j) false else x.getLsbD (j - bs.length) := by
  induction bs generalizing x with
  | nil => simp
  | cons b bs ih =>
    rw [List.foldl_cons, ih]
    by_cases h : j < bs.length
    · rw [if_pos h, if_pos (by simp; omega)]
      simp only [List.length_cons]
      rw [show bs.length + 1 - 1 - j = (bs.length - 1 - j) + 1 by omega, List.getD_cons_succ]
    · rw [if_neg h, BitVec.getLsbD_shiftConcat]
      by_cases h' : j = bs.length
      · subst h'; simp; omega
      · rw [if_neg (show ¬ j - bs.length = 0 by omega), if_neg (by rw [List.length_cons]; omega)]
        rw [show j - bs.length - 1 = j - (b :: bs).length by rw [List.length_cons]; omega]
        simp only [show j - bs.length < n by omega, decide_true, Bool.true_and]

/-- A word made from n bits has the first bit on top. -/
theorem wordOfBits_getLsbD {n : Nat} (bits : List Bool) (hl : bits.length = n) (j : Nat) (hj : j < n) :
    (wordOfBits n bits).getLsbD j = bits.getD (n - 1 - j) false := by
  unfold wordOfBits
  rw [foldl_shiftConcat_getLsbD _ _ _ hj, if_pos (by omega), hl]

@[simp] theorem byteBits_length (b : Byte) : (byteBits b).length = 8 := by simp [byteBits]

theorem byteBits_getD (b : Byte) (t : Nat) (ht : t < 8) : (byteBits b).getD t false = b.getLsbD (7 - t) := by
  simp only [byteBits, List.getD_eq_getElem?_getD, List.getElem?_map, List.getElem?_range ht, Option.map_some,
    Option.getD_some]

theorem bits_ext {c d : List Bool} (hl : c.length = d.length)
    (h : ∀ t, t < c.length → c.getD t false = d.getD t false) : c = d := by
  apply List.ext_getElem hl
  intro t h1 h2
  have := h t h1
  rwa [List.getD_eq_getElem _ _ h1, List.getD_eq_getElem _ _ h2] at this

/-- The bits of a byte made from eight bits are those bits (R69). -/
theorem byteBits_wordOfBits (bits : List Bool) (hl : bits.length = 8) : byteBits (wordOfBits 8 bits) = bits := by
  apply bits_ext (by simp [hl])
  intro t ht
  rw [byteBits_length] at ht
  rw [byteBits_getD _ _ ht, wordOfBits_getLsbD _ hl _ (by omega)]
  congr 1; omega

/-- A byte is made from its bits (R69). -/
theorem wordOfBits_byteBits (b : Byte) : wordOfBits 8 (byteBits b) = b := by
  apply BitVec.eq_of_getLsbD_eq
  intro j hj
  rw [wordOfBits_getLsbD _ (byteBits_length b) _ hj, byteBits_getD _ _ (by omega)]
  congr 1; omega

/-! ### packBits -/

theorem ceil8_add8 (n : Nat) : ceil8 (8 + n) = ceil8 n + 1 := by
  unfold ceil8; rw [show (8 + n) % 8 = n % 8 by omega]; omega

theorem ceil8_le (n : Nat) : ceil8 n ≤ n := by
  unfold ceil8; split <;> omega

theorem ceil8_pos {n : Nat} (h : 0 < n) : 0 < ceil8 n := by
  unfold ceil8; split <;> omega

theorem ceil8_eq (n : Nat) : ceil8 n = (n + 7) / 8 := by
  unfold ceil8; split <;> omega

@[simp] theorem packBits_length (bits : List Bool) : (packBits bits).length = ceil8 bits.length := by
  simp [packBits]

@[simp] theorem packBits_nil : packBits [] = [] := by simp [packBits, ceil8]

/-- Packing eight bits and more: the first byte holds the first eight (R69). -/
theorem packBits_eight (xs ys : List Bool) (hx : xs.length = 8) :
    packBits (xs ++ ys) = wordOfBits 8 xs :: packBits ys := by
  unfold packBits
  rw [List.length_append, hx, ceil8_add8, List.range_succ_eq_map, List.map_cons, List.map_map]
  congr 1
  · unfold packByte
    congr 1
    apply bits_ext (by simp [hx])
    intro t ht
    simp only [List.length_map, List.length_range] at ht
    simp only [List.getD_eq_getElem?_getD, List.getElem?_map, List.getElem?_range ht, Option.map_some,
      Option.getD_some, Nat.mul_zero, Nat.zero_add]
    rw [List.getElem?_append_left (by omega)]
  · apply List.map_congr_left
    intro j _
    have hb : ∀ t, (xs ++ ys).getD (8 * (j + 1) + t) false = ys.getD (8 * j + t) false := by
      intro t
      rw [List.getD_append_right _ _ _ _ (by omega)]
      congr 1; omega
    simp only [Function.comp, packByte, Nat.succ_eq_add_one, hb]

/-- Packing fewer than eight bits: one byte, padded with 0 (R70). -/
theorem packBits_short (xs : List Bool) (h0 : xs ≠ []) (hx : xs.length < 8) :
    packBits xs = [wordOfBits 8 (xs ++ List.replicate (8 - xs.length) false)] := by
  have hp : 0 < xs.length := List.length_pos_iff.mpr h0
  unfold packBits
  rw [show ceil8 xs.length = 1 by rw [ceil8_eq]; omega]
  simp only [List.range_one, List.map_cons, List.map_nil, List.cons.injEq, and_true]
  unfold packByte
  congr 1
  apply bits_ext (by simp; omega)
  intro t ht
  simp only [List.length_map, List.length_range] at ht
  simp only [List.getD_eq_getElem?_getD, List.getElem?_map, List.getElem?_range ht, Option.map_some,
    Option.getD_some, Nat.mul_zero, Nat.zero_add]
  by_cases h : t < xs.length
  · rw [List.getElem?_append_left h]
  · rw [List.getElem?_append_right (by omega), List.getElem?_eq_none (by omega),
      List.getElem?_replicate]
    split <;> rfl

/-! ### The code buffer -/

@[simp] theorem codeOperand_length (code : Vector Word 8) (len : Nat) : (codeOperand code len).length = len := by
  simp [codeOperand]

theorem codeOperand_getD (code : Vector Word 8) (len k : Nat) (hk : k < len) :
    (codeOperand code len).getD k false = codeBit code k := by
  simp only [codeOperand, List.getD_eq_getElem?_getD, List.getElem?_map, List.getElem?_range hk, Option.map_some,
    Option.getD_some]

theorem codeBufOf_toList_getD (c : Code) (j : Nat) (hj : j < 8) :
    (codeBufOf c).toList.getD j 0 = codeWord c j := by
  unfold codeBufOf
  rcases j with _ | _ | _ | _ | _ | _ | _ | _ | j <;> first | rfl | omega

end Sys2Proof.Machine
end

