-- ==== Sys2Proof/Laws/State.lean ====
section
/-! SUPPORT. One lemma per field for each update of the state, so that no proof unfolds a record update. -/

namespace Sys2Proof.Machine

variable (s : State)

/-! ### setEngine -/

@[simp] theorem setEngine_arg0 (e : Engine) : (setEngine e s).arg0 = s.arg0 := rfl
@[simp] theorem setEngine_arg1 (e : Engine) : (setEngine e s).arg1 = s.arg1 := rfl
@[simp] theorem setEngine_result (e : Engine) : (setEngine e s).result = s.result := rfl
@[simp] theorem setEngine_codeBuf (e : Engine) : (setEngine e s).codeBuf = s.codeBuf := rfl
@[simp] theorem setEngine_err (e : Engine) : (setEngine e s).err = s.err := rfl
@[simp] theorem setEngine_errcode (e : Engine) : (setEngine e s).errcode = s.errcode := rfl
@[simp] theorem setEngine_errInfo (e : Engine) : (setEngine e s).errInfo = s.errInfo := rfl
@[simp] theorem setEngine_ovr (e : Engine) : (setEngine e s).ovr = s.ovr := rfl
@[simp] theorem setEngine_arena (e : Engine) : (setEngine e s).arena = s.arena := rfl
@[simp] theorem setEngine_nodeCount (e : Engine) : (setEngine e s).nodeCount = s.nodeCount := rfl
@[simp] theorem setEngine_leafmap (e : Engine) : (setEngine e s).leafmap = s.leafmap := rfl
@[simp] theorem setEngine_clt (e : Engine) : (setEngine e s).clt = s.clt := rfl
@[simp] theorem setEngine_cltValid (e : Engine) : (setEngine e s).cltValid = s.cltValid := rfl
@[simp] theorem setEngine_packAcc (e : Engine) : (setEngine e s).packAcc = s.packAcc := rfl
@[simp] theorem setEngine_packCnt (e : Engine) : (setEngine e s).packCnt = s.packCnt := rfl
@[simp] theorem setEngine_encBitcount (e : Engine) : (setEngine e s).encBitcount = s.encBitcount := rfl
@[simp] theorem setEngine_encLastbits (e : Engine) : (setEngine e s).encLastbits = s.encLastbits := rfl
@[simp] theorem setEngine_decSymcount (e : Engine) : (setEngine e s).decSymcount = s.decSymcount := rfl
@[simp] theorem setEngine_engine (e : Engine) : (setEngine e s).engine = e := rfl
@[simp] theorem setEngine_inQ (e : Engine) : (setEngine e s).inQ = s.inQ := rfl
@[simp] theorem setEngine_outQ (e : Engine) : (setEngine e s).outQ = s.outQ := rfl
@[simp] theorem setEngine_turns (e : Engine) : (setEngine e s).turns = s.turns := rfl
@[simp] theorem setEngine_responses (e : Engine) : (setEngine e s).responses = s.responses := rfl

/-! ### outPush -/

@[simp] theorem outPush_arg0 (b : Byte) : (outPush b s).arg0 = s.arg0 := rfl
@[simp] theorem outPush_arg1 (b : Byte) : (outPush b s).arg1 = s.arg1 := rfl
@[simp] theorem outPush_result (b : Byte) : (outPush b s).result = s.result := rfl
@[simp] theorem outPush_codeBuf (b : Byte) : (outPush b s).codeBuf = s.codeBuf := rfl
@[simp] theorem outPush_err (b : Byte) : (outPush b s).err = s.err := rfl
@[simp] theorem outPush_errcode (b : Byte) : (outPush b s).errcode = s.errcode := rfl
@[simp] theorem outPush_errInfo (b : Byte) : (outPush b s).errInfo = s.errInfo := rfl
@[simp] theorem outPush_ovr (b : Byte) : (outPush b s).ovr = s.ovr := rfl
@[simp] theorem outPush_arena (b : Byte) : (outPush b s).arena = s.arena := rfl
@[simp] theorem outPush_nodeCount (b : Byte) : (outPush b s).nodeCount = s.nodeCount := rfl
@[simp] theorem outPush_leafmap (b : Byte) : (outPush b s).leafmap = s.leafmap := rfl
@[simp] theorem outPush_clt (b : Byte) : (outPush b s).clt = s.clt := rfl
@[simp] theorem outPush_cltValid (b : Byte) : (outPush b s).cltValid = s.cltValid := rfl
@[simp] theorem outPush_packAcc (b : Byte) : (outPush b s).packAcc = s.packAcc := rfl
@[simp] theorem outPush_packCnt (b : Byte) : (outPush b s).packCnt = s.packCnt := rfl
@[simp] theorem outPush_encBitcount (b : Byte) : (outPush b s).encBitcount = s.encBitcount := rfl
@[simp] theorem outPush_encLastbits (b : Byte) : (outPush b s).encLastbits = s.encLastbits := rfl
@[simp] theorem outPush_decSymcount (b : Byte) : (outPush b s).decSymcount = s.decSymcount := rfl
@[simp] theorem outPush_engine (b : Byte) : (outPush b s).engine = s.engine := rfl
@[simp] theorem outPush_inQ (b : Byte) : (outPush b s).inQ = s.inQ := rfl
@[simp] theorem outPush_outQ (b : Byte) : (outPush b s).outQ = s.outQ ++ [b] := rfl
@[simp] theorem outPush_turns (b : Byte) : (outPush b s).turns = s.turns := rfl
@[simp] theorem outPush_responses (b : Byte) : (outPush b s).responses = s.responses := rfl

/-! ### outPushAll -/

@[simp] theorem outPushAll_arg0 (bs : List Byte) : (outPushAll bs s).arg0 = s.arg0 := rfl
@[simp] theorem outPushAll_arg1 (bs : List Byte) : (outPushAll bs s).arg1 = s.arg1 := rfl
@[simp] theorem outPushAll_result (bs : List Byte) : (outPushAll bs s).result = s.result := rfl
@[simp] theorem outPushAll_codeBuf (bs : List Byte) : (outPushAll bs s).codeBuf = s.codeBuf := rfl
@[simp] theorem outPushAll_err (bs : List Byte) : (outPushAll bs s).err = s.err := rfl
@[simp] theorem outPushAll_errcode (bs : List Byte) : (outPushAll bs s).errcode = s.errcode := rfl
@[simp] theorem outPushAll_errInfo (bs : List Byte) : (outPushAll bs s).errInfo = s.errInfo := rfl
@[simp] theorem outPushAll_ovr (bs : List Byte) : (outPushAll bs s).ovr = s.ovr := rfl
@[simp] theorem outPushAll_arena (bs : List Byte) : (outPushAll bs s).arena = s.arena := rfl
@[simp] theorem outPushAll_nodeCount (bs : List Byte) : (outPushAll bs s).nodeCount = s.nodeCount := rfl
@[simp] theorem outPushAll_leafmap (bs : List Byte) : (outPushAll bs s).leafmap = s.leafmap := rfl
@[simp] theorem outPushAll_clt (bs : List Byte) : (outPushAll bs s).clt = s.clt := rfl
@[simp] theorem outPushAll_cltValid (bs : List Byte) : (outPushAll bs s).cltValid = s.cltValid := rfl
@[simp] theorem outPushAll_packAcc (bs : List Byte) : (outPushAll bs s).packAcc = s.packAcc := rfl
@[simp] theorem outPushAll_packCnt (bs : List Byte) : (outPushAll bs s).packCnt = s.packCnt := rfl
@[simp] theorem outPushAll_encBitcount (bs : List Byte) : (outPushAll bs s).encBitcount = s.encBitcount := rfl
@[simp] theorem outPushAll_encLastbits (bs : List Byte) : (outPushAll bs s).encLastbits = s.encLastbits := rfl
@[simp] theorem outPushAll_decSymcount (bs : List Byte) : (outPushAll bs s).decSymcount = s.decSymcount := rfl
@[simp] theorem outPushAll_engine (bs : List Byte) : (outPushAll bs s).engine = s.engine := rfl
@[simp] theorem outPushAll_inQ (bs : List Byte) : (outPushAll bs s).inQ = s.inQ := rfl
@[simp] theorem outPushAll_outQ (bs : List Byte) : (outPushAll bs s).outQ = s.outQ ++ bs := rfl
@[simp] theorem outPushAll_turns (bs : List Byte) : (outPushAll bs s).turns = s.turns := rfl
@[simp] theorem outPushAll_responses (bs : List Byte) : (outPushAll bs s).responses = s.responses := rfl

/-! ### respond -/

@[simp] theorem respond_arg0 (r : Response) : (respond r s).arg0 = s.arg0 := rfl
@[simp] theorem respond_arg1 (r : Response) : (respond r s).arg1 = s.arg1 := rfl
@[simp] theorem respond_result (r : Response) : (respond r s).result = s.result := rfl
@[simp] theorem respond_codeBuf (r : Response) : (respond r s).codeBuf = s.codeBuf := rfl
@[simp] theorem respond_err (r : Response) : (respond r s).err = s.err := rfl
@[simp] theorem respond_errcode (r : Response) : (respond r s).errcode = s.errcode := rfl
@[simp] theorem respond_errInfo (r : Response) : (respond r s).errInfo = s.errInfo := rfl
@[simp] theorem respond_ovr (r : Response) : (respond r s).ovr = s.ovr := rfl
@[simp] theorem respond_arena (r : Response) : (respond r s).arena = s.arena := rfl
@[simp] theorem respond_nodeCount (r : Response) : (respond r s).nodeCount = s.nodeCount := rfl
@[simp] theorem respond_leafmap (r : Response) : (respond r s).leafmap = s.leafmap := rfl
@[simp] theorem respond_clt (r : Response) : (respond r s).clt = s.clt := rfl
@[simp] theorem respond_cltValid (r : Response) : (respond r s).cltValid = s.cltValid := rfl
@[simp] theorem respond_packAcc (r : Response) : (respond r s).packAcc = s.packAcc := rfl
@[simp] theorem respond_packCnt (r : Response) : (respond r s).packCnt = s.packCnt := rfl
@[simp] theorem respond_encBitcount (r : Response) : (respond r s).encBitcount = s.encBitcount := rfl
@[simp] theorem respond_encLastbits (r : Response) : (respond r s).encLastbits = s.encLastbits := rfl
@[simp] theorem respond_decSymcount (r : Response) : (respond r s).decSymcount = s.decSymcount := rfl
@[simp] theorem respond_engine (r : Response) : (respond r s).engine = s.engine := rfl
@[simp] theorem respond_inQ (r : Response) : (respond r s).inQ = s.inQ := rfl
@[simp] theorem respond_outQ (r : Response) : (respond r s).outQ = s.outQ := rfl
@[simp] theorem respond_turns (r : Response) : (respond r s).turns = s.turns := rfl
@[simp] theorem respond_responses (r : Response) : (respond r s).responses = s.responses ++ [r] := rfl

/-! ### pushSyms -/

@[simp] theorem pushSyms_arg0 (bs : List Byte) : (pushSyms bs s).arg0 = s.arg0 := rfl
@[simp] theorem pushSyms_arg1 (bs : List Byte) : (pushSyms bs s).arg1 = s.arg1 := rfl
@[simp] theorem pushSyms_result (bs : List Byte) : (pushSyms bs s).result = s.result := rfl
@[simp] theorem pushSyms_codeBuf (bs : List Byte) : (pushSyms bs s).codeBuf = s.codeBuf := rfl
@[simp] theorem pushSyms_err (bs : List Byte) : (pushSyms bs s).err = s.err := rfl
@[simp] theorem pushSyms_errcode (bs : List Byte) : (pushSyms bs s).errcode = s.errcode := rfl
@[simp] theorem pushSyms_errInfo (bs : List Byte) : (pushSyms bs s).errInfo = s.errInfo := rfl
@[simp] theorem pushSyms_ovr (bs : List Byte) : (pushSyms bs s).ovr = s.ovr := rfl
@[simp] theorem pushSyms_arena (bs : List Byte) : (pushSyms bs s).arena = s.arena := rfl
@[simp] theorem pushSyms_nodeCount (bs : List Byte) : (pushSyms bs s).nodeCount = s.nodeCount := rfl
@[simp] theorem pushSyms_leafmap (bs : List Byte) : (pushSyms bs s).leafmap = s.leafmap := rfl
@[simp] theorem pushSyms_clt (bs : List Byte) : (pushSyms bs s).clt = s.clt := rfl
@[simp] theorem pushSyms_cltValid (bs : List Byte) : (pushSyms bs s).cltValid = s.cltValid := rfl
@[simp] theorem pushSyms_packAcc (bs : List Byte) : (pushSyms bs s).packAcc = s.packAcc := rfl
@[simp] theorem pushSyms_packCnt (bs : List Byte) : (pushSyms bs s).packCnt = s.packCnt := rfl
@[simp] theorem pushSyms_encBitcount (bs : List Byte) : (pushSyms bs s).encBitcount = s.encBitcount := rfl
@[simp] theorem pushSyms_encLastbits (bs : List Byte) : (pushSyms bs s).encLastbits = s.encLastbits := rfl
@[simp] theorem pushSyms_decSymcount (bs : List Byte) : (pushSyms bs s).decSymcount = s.decSymcount + BitVec.ofNat 32 bs.length := rfl
@[simp] theorem pushSyms_engine (bs : List Byte) : (pushSyms bs s).engine = s.engine := rfl
@[simp] theorem pushSyms_inQ (bs : List Byte) : (pushSyms bs s).inQ = s.inQ := rfl
@[simp] theorem pushSyms_outQ (bs : List Byte) : (pushSyms bs s).outQ = s.outQ ++ bs := rfl
@[simp] theorem pushSyms_turns (bs : List Byte) : (pushSyms bs s).turns = s.turns := rfl
@[simp] theorem pushSyms_responses (bs : List Byte) : (pushSyms bs s).responses = s.responses := rfl

/-! ### clearError -/

@[simp] theorem clearError_arg0 : (clearError s).arg0 = s.arg0 := rfl
@[simp] theorem clearError_arg1 : (clearError s).arg1 = s.arg1 := rfl
@[simp] theorem clearError_result : (clearError s).result = s.result := rfl
@[simp] theorem clearError_codeBuf : (clearError s).codeBuf = s.codeBuf := rfl
@[simp] theorem clearError_err : (clearError s).err = false := rfl
@[simp] theorem clearError_errcode : (clearError s).errcode = .noError := rfl
@[simp] theorem clearError_errInfo : (clearError s).errInfo = 0 := rfl
@[simp] theorem clearError_ovr : (clearError s).ovr = false := rfl
@[simp] theorem clearError_arena : (clearError s).arena = s.arena := rfl
@[simp] theorem clearError_nodeCount : (clearError s).nodeCount = s.nodeCount := rfl
@[simp] theorem clearError_leafmap : (clearError s).leafmap = s.leafmap := rfl
@[simp] theorem clearError_clt : (clearError s).clt = s.clt := rfl
@[simp] theorem clearError_cltValid : (clearError s).cltValid = s.cltValid := rfl
@[simp] theorem clearError_packAcc : (clearError s).packAcc = s.packAcc := rfl
@[simp] theorem clearError_packCnt : (clearError s).packCnt = s.packCnt := rfl
@[simp] theorem clearError_encBitcount : (clearError s).encBitcount = s.encBitcount := rfl
@[simp] theorem clearError_encLastbits : (clearError s).encLastbits = s.encLastbits := rfl
@[simp] theorem clearError_decSymcount : (clearError s).decSymcount = s.decSymcount := rfl
@[simp] theorem clearError_engine : (clearError s).engine = s.engine := rfl
@[simp] theorem clearError_inQ : (clearError s).inQ = s.inQ := rfl
@[simp] theorem clearError_outQ : (clearError s).outQ = s.outQ := rfl
@[simp] theorem clearError_turns : (clearError s).turns = s.turns := rfl
@[simp] theorem clearError_responses : (clearError s).responses = s.responses := rfl

/-! ### raise (60_exceptions R262) -/

@[simp] theorem raise_arg0 (e : ErrCode) (w : Word) : (raise e w s).arg0 = s.arg0 := by
  unfold raise; split <;> rfl
@[simp] theorem raise_arg1 (e : ErrCode) (w : Word) : (raise e w s).arg1 = s.arg1 := by
  unfold raise; split <;> rfl
@[simp] theorem raise_result (e : ErrCode) (w : Word) : (raise e w s).result = s.result := by
  unfold raise; split <;> rfl
@[simp] theorem raise_codeBuf (e : ErrCode) (w : Word) : (raise e w s).codeBuf = s.codeBuf := by
  unfold raise; split <;> rfl
@[simp] theorem raise_err (e : ErrCode) (w : Word) : (raise e w s).err = true := by
  unfold raise; split <;> simp_all
@[simp] theorem raise_errcode (e : ErrCode) (w : Word) : (raise e w s).errcode = if s.err then s.errcode else e := by
  unfold raise; split <;> rfl
@[simp] theorem raise_errInfo (e : ErrCode) (w : Word) : (raise e w s).errInfo = if s.err then s.errInfo else w := by
  unfold raise; split <;> rfl
@[simp] theorem raise_ovr (e : ErrCode) (w : Word) : (raise e w s).ovr = s.ovr := by
  unfold raise; split <;> rfl
@[simp] theorem raise_arena (e : ErrCode) (w : Word) : (raise e w s).arena = s.arena := by
  unfold raise; split <;> rfl
@[simp] theorem raise_nodeCount (e : ErrCode) (w : Word) : (raise e w s).nodeCount = s.nodeCount := by
  unfold raise; split <;> rfl
@[simp] theorem raise_leafmap (e : ErrCode) (w : Word) : (raise e w s).leafmap = s.leafmap := by
  unfold raise; split <;> rfl
@[simp] theorem raise_clt (e : ErrCode) (w : Word) : (raise e w s).clt = s.clt := by
  unfold raise; split <;> rfl
@[simp] theorem raise_cltValid (e : ErrCode) (w : Word) : (raise e w s).cltValid = s.cltValid := by
  unfold raise; split <;> rfl
@[simp] theorem raise_packAcc (e : ErrCode) (w : Word) : (raise e w s).packAcc = s.packAcc := by
  unfold raise; split <;> rfl
@[simp] theorem raise_packCnt (e : ErrCode) (w : Word) : (raise e w s).packCnt = s.packCnt := by
  unfold raise; split <;> rfl
@[simp] theorem raise_encBitcount (e : ErrCode) (w : Word) : (raise e w s).encBitcount = s.encBitcount := by
  unfold raise; split <;> rfl
@[simp] theorem raise_encLastbits (e : ErrCode) (w : Word) : (raise e w s).encLastbits = s.encLastbits := by
  unfold raise; split <;> rfl
@[simp] theorem raise_decSymcount (e : ErrCode) (w : Word) : (raise e w s).decSymcount = s.decSymcount := by
  unfold raise; split <;> rfl
@[simp] theorem raise_engine (e : ErrCode) (w : Word) : (raise e w s).engine = s.engine := by
  unfold raise; split <;> rfl
@[simp] theorem raise_inQ (e : ErrCode) (w : Word) : (raise e w s).inQ = s.inQ := by
  unfold raise; split <;> rfl
@[simp] theorem raise_outQ (e : ErrCode) (w : Word) : (raise e w s).outQ = s.outQ := by
  unfold raise; split <;> rfl
@[simp] theorem raise_turns (e : ErrCode) (w : Word) : (raise e w s).turns = s.turns := by
  unfold raise; split <;> rfl
@[simp] theorem raise_responses (e : ErrCode) (w : Word) : (raise e w s).responses = s.responses := by
  unfold raise; split <;> rfl

/-! ### blockReset (70_reset R290) -/

@[simp] theorem blockReset_arg0 : (blockReset s).arg0 = State.reset.arg0 := rfl
@[simp] theorem blockReset_arg1 : (blockReset s).arg1 = State.reset.arg1 := rfl
@[simp] theorem blockReset_result : (blockReset s).result = State.reset.result := rfl
@[simp] theorem blockReset_codeBuf : (blockReset s).codeBuf = State.reset.codeBuf := rfl
@[simp] theorem blockReset_err : (blockReset s).err = State.reset.err := rfl
@[simp] theorem blockReset_errcode : (blockReset s).errcode = State.reset.errcode := rfl
@[simp] theorem blockReset_errInfo : (blockReset s).errInfo = State.reset.errInfo := rfl
@[simp] theorem blockReset_ovr : (blockReset s).ovr = State.reset.ovr := rfl
@[simp] theorem blockReset_arena : (blockReset s).arena = State.reset.arena := rfl
@[simp] theorem blockReset_nodeCount : (blockReset s).nodeCount = State.reset.nodeCount := rfl
@[simp] theorem blockReset_leafmap : (blockReset s).leafmap = State.reset.leafmap := rfl
@[simp] theorem blockReset_clt : (blockReset s).clt = State.reset.clt := rfl
@[simp] theorem blockReset_cltValid : (blockReset s).cltValid = State.reset.cltValid := rfl
@[simp] theorem blockReset_packAcc : (blockReset s).packAcc = State.reset.packAcc := rfl
@[simp] theorem blockReset_packCnt : (blockReset s).packCnt = State.reset.packCnt := rfl
@[simp] theorem blockReset_encBitcount : (blockReset s).encBitcount = State.reset.encBitcount := rfl
@[simp] theorem blockReset_encLastbits : (blockReset s).encLastbits = State.reset.encLastbits := rfl
@[simp] theorem blockReset_decSymcount : (blockReset s).decSymcount = State.reset.decSymcount := rfl
@[simp] theorem blockReset_engine : (blockReset s).engine = State.reset.engine := rfl
@[simp] theorem blockReset_inQ : (blockReset s).inQ = State.reset.inQ := rfl
@[simp] theorem blockReset_outQ : (blockReset s).outQ = State.reset.outQ := rfl
@[simp] theorem blockReset_turns : (blockReset s).turns = s.turns := rfl
@[simp] theorem blockReset_responses : (blockReset s).responses = s.responses := rfl

/-! ### putBit and putBits (43_encode R173): they write the packer and out_q only -/

@[simp] theorem putBit_arg0 (x : Bool) : (putBit x s).arg0 = s.arg0 := by
  unfold putBit; dsimp only; split <;> rfl
@[simp] theorem putBit_arg1 (x : Bool) : (putBit x s).arg1 = s.arg1 := by
  unfold putBit; dsimp only; split <;> rfl
@[simp] theorem putBit_result (x : Bool) : (putBit x s).result = s.result := by
  unfold putBit; dsimp only; split <;> rfl
@[simp] theorem putBit_codeBuf (x : Bool) : (putBit x s).codeBuf = s.codeBuf := by
  unfold putBit; dsimp only; split <;> rfl
@[simp] theorem putBit_err (x : Bool) : (putBit x s).err = s.err := by
  unfold putBit; dsimp only; split <;> rfl
@[simp] theorem putBit_errcode (x : Bool) : (putBit x s).errcode = s.errcode := by
  unfold putBit; dsimp only; split <;> rfl
@[simp] theorem putBit_errInfo (x : Bool) : (putBit x s).errInfo = s.errInfo := by
  unfold putBit; dsimp only; split <;> rfl
@[simp] theorem putBit_ovr (x : Bool) : (putBit x s).ovr = s.ovr := by
  unfold putBit; dsimp only; split <;> rfl
@[simp] theorem putBit_arena (x : Bool) : (putBit x s).arena = s.arena := by
  unfold putBit; dsimp only; split <;> rfl
@[simp] theorem putBit_nodeCount (x : Bool) : (putBit x s).nodeCount = s.nodeCount := by
  unfold putBit; dsimp only; split <;> rfl
@[simp] theorem putBit_leafmap (x : Bool) : (putBit x s).leafmap = s.leafmap := by
  unfold putBit; dsimp only; split <;> rfl
@[simp] theorem putBit_clt (x : Bool) : (putBit x s).clt = s.clt := by
  unfold putBit; dsimp only; split <;> rfl
@[simp] theorem putBit_cltValid (x : Bool) : (putBit x s).cltValid = s.cltValid := by
  unfold putBit; dsimp only; split <;> rfl
@[simp] theorem putBit_encBitcount (x : Bool) : (putBit x s).encBitcount = s.encBitcount := by
  unfold putBit; dsimp only; split <;> rfl
@[simp] theorem putBit_encLastbits (x : Bool) : (putBit x s).encLastbits = s.encLastbits := by
  unfold putBit; dsimp only; split <;> rfl
@[simp] theorem putBit_decSymcount (x : Bool) : (putBit x s).decSymcount = s.decSymcount := by
  unfold putBit; dsimp only; split <;> rfl
@[simp] theorem putBit_engine (x : Bool) : (putBit x s).engine = s.engine := by
  unfold putBit; dsimp only; split <;> rfl
@[simp] theorem putBit_inQ (x : Bool) : (putBit x s).inQ = s.inQ := by
  unfold putBit; dsimp only; split <;> rfl
@[simp] theorem putBit_turns (x : Bool) : (putBit x s).turns = s.turns := by
  unfold putBit; dsimp only; split <;> rfl
@[simp] theorem putBit_responses (x : Bool) : (putBit x s).responses = s.responses := by
  unfold putBit; dsimp only; split <;> rfl

@[simp] theorem putBits_arg0 (xs : List Bool) : (putBits xs s).arg0 = s.arg0 := by
  induction xs generalizing s with
  | nil => rfl
  | cons x xs ih => simp [putBits, ih]
@[simp] theorem putBits_arg1 (xs : List Bool) : (putBits xs s).arg1 = s.arg1 := by
  induction xs generalizing s with
  | nil => rfl
  | cons x xs ih => simp [putBits, ih]
@[simp] theorem putBits_result (xs : List Bool) : (putBits xs s).result = s.result := by
  induction xs generalizing s with
  | nil => rfl
  | cons x xs ih => simp [putBits, ih]
@[simp] theorem putBits_codeBuf (xs : List Bool) : (putBits xs s).codeBuf = s.codeBuf := by
  induction xs generalizing s with
  | nil => rfl
  | cons x xs ih => simp [putBits, ih]
@[simp] theorem putBits_err (xs : List Bool) : (putBits xs s).err = s.err := by
  induction xs generalizing s with
  | nil => rfl
  | cons x xs ih => simp [putBits, ih]
@[simp] theorem putBits_errcode (xs : List Bool) : (putBits xs s).errcode = s.errcode := by
  induction xs generalizing s with
  | nil => rfl
  | cons x xs ih => simp [putBits, ih]
@[simp] theorem putBits_errInfo (xs : List Bool) : (putBits xs s).errInfo = s.errInfo := by
  induction xs generalizing s with
  | nil => rfl
  | cons x xs ih => simp [putBits, ih]
@[simp] theorem putBits_ovr (xs : List Bool) : (putBits xs s).ovr = s.ovr := by
  induction xs generalizing s with
  | nil => rfl
  | cons x xs ih => simp [putBits, ih]
@[simp] theorem putBits_arena (xs : List Bool) : (putBits xs s).arena = s.arena := by
  induction xs generalizing s with
  | nil => rfl
  | cons x xs ih => simp [putBits, ih]
@[simp] theorem putBits_nodeCount (xs : List Bool) : (putBits xs s).nodeCount = s.nodeCount := by
  induction xs generalizing s with
  | nil => rfl
  | cons x xs ih => simp [putBits, ih]
@[simp] theorem putBits_leafmap (xs : List Bool) : (putBits xs s).leafmap = s.leafmap := by
  induction xs generalizing s with
  | nil => rfl
  | cons x xs ih => simp [putBits, ih]
@[simp] theorem putBits_clt (xs : List Bool) : (putBits xs s).clt = s.clt := by
  induction xs generalizing s with
  | nil => rfl
  | cons x xs ih => simp [putBits, ih]
@[simp] theorem putBits_cltValid (xs : List Bool) : (putBits xs s).cltValid = s.cltValid := by
  induction xs generalizing s with
  | nil => rfl
  | cons x xs ih => simp [putBits, ih]
@[simp] theorem putBits_encBitcount (xs : List Bool) : (putBits xs s).encBitcount = s.encBitcount := by
  induction xs generalizing s with
  | nil => rfl
  | cons x xs ih => simp [putBits, ih]
@[simp] theorem putBits_encLastbits (xs : List Bool) : (putBits xs s).encLastbits = s.encLastbits := by
  induction xs generalizing s with
  | nil => rfl
  | cons x xs ih => simp [putBits, ih]
@[simp] theorem putBits_decSymcount (xs : List Bool) : (putBits xs s).decSymcount = s.decSymcount := by
  induction xs generalizing s with
  | nil => rfl
  | cons x xs ih => simp [putBits, ih]
@[simp] theorem putBits_engine (xs : List Bool) : (putBits xs s).engine = s.engine := by
  induction xs generalizing s with
  | nil => rfl
  | cons x xs ih => simp [putBits, ih]
@[simp] theorem putBits_inQ (xs : List Bool) : (putBits xs s).inQ = s.inQ := by
  induction xs generalizing s with
  | nil => rfl
  | cons x xs ih => simp [putBits, ih]
@[simp] theorem putBits_turns (xs : List Bool) : (putBits xs s).turns = s.turns := by
  induction xs generalizing s with
  | nil => rfl
  | cons x xs ih => simp [putBits, ih]
@[simp] theorem putBits_responses (xs : List Bool) : (putBits xs s).responses = s.responses := by
  induction xs generalizing s with
  | nil => rfl
  | cons x xs ih => simp [putBits, ih]

end Sys2Proof.Machine
end

