-- ==== Sys2Proof/Laws/Tree.lean ====
section
/-! SUPPORT. The code tree: descent, paths, what making one node does, what growing a path does
(40_code_tree R121, R122; 41_tree_build R132, R137). -/

namespace Sys2Proof.Machine

abbrev Arena := Vector Node Config.nodeCap

theorem arena_get_set (a : Arena) (i j : NodeIdx) (v : Node) :
    Vector.get (Vector.set a i.val v i.isLt) j = if i = j then v else a.get j := by
  simp only [Vector.get_eq_getElem, Vector.getElem_set, Fin.ext_iff]

/-! ### child and descend -/

theorem child_eq_node {a : Arena} {i j : NodeIdx} {b : Bool} :
    child a i b = .node j ↔ ∃ l r, a.get i = .internal l r ∧ (if b then r else l) = some j := by
  unfold child
  split
  · rename_i l r h
    cases b
    · cases l <;> simp [h]
    · cases r <;> simp [h]
  · simp_all
  · simp_all

theorem child_eq_nil {a : Arena} {i : NodeIdx} {b : Bool} :
    child a i b = .nil ↔ ∃ l r, a.get i = .internal l r ∧ (if b then r else l) = none := by
  unfold child
  split
  · rename_i l r h
    cases b
    · cases l <;> simp [h]
    · cases r <;> simp [h]
  · simp_all
  · simp_all

theorem child_eq_structural {a : Arena} {i : NodeIdx} {b : Bool} :
    child a i b = .structural ↔ ∃ sym, a.get i = .leaf sym := by
  unfold child
  split
  · rename_i l r h
    cases b
    · cases l <;> simp [h]
    · cases r <;> simp [h]
  · simp_all
  · simp_all

theorem child_eq_free {a : Arena} {i : NodeIdx} {b : Bool} :
    child a i b = .free ↔ a.get i = .free := by
  unfold child
  split
  · rename_i l r h
    cases b
    · cases l <;> simp [h]
    · cases r <;> simp [h]
  · simp_all
  · simp_all

@[simp] theorem descend_nil (a : Arena) (i : NodeIdx) : descend a i [] = some i := rfl

theorem descend_cons {a : Arena} {i j : NodeIdx} {b : Bool} {c : Code} :
    descend a i (b :: c) = some j ↔ ∃ k, child a i b = .node k ∧ descend a k c = some j := by
  simp only [descend]
  split <;> simp_all

theorem descend_append {a : Arena} {i j : NodeIdx} {c d : Code} :
    descend a i (c ++ d) = some j ↔ ∃ k, descend a i c = some k ∧ descend a k d = some j := by
  induction c generalizing i with
  | nil => simp
  | cons b c ih =>
    simp only [List.cons_append, descend_cons, ih]
    constructor
    · rintro ⟨k, hk, m, hm, hd⟩; exact ⟨m, ⟨k, hk, hm⟩, hd⟩
    · rintro ⟨m, ⟨k, hk, hm⟩, hd⟩; exact ⟨k, hk, m, hm, hd⟩

theorem descend_snoc {a : Arena} {i j : NodeIdx} {c : Code} {b : Bool} :
    descend a i (c ++ [b]) = some j ↔ ∃ k, descend a i c = some k ∧ child a k b = .node j := by
  rw [descend_append]
  simp [descend_cons]

/-- The path of a code of the tree does not break. -/
theorem code_path {a : Arena} {sym : Byte} {c d : Code} {b : Bool} {cur : NodeIdx} (h : codeIs a sym (c ++ b :: d))
    (hd : descend a 0 c = some cur) : child a cur b ≠ .nil := by
  obtain ⟨j, hj, -⟩ := h
  obtain ⟨m, hm, hr⟩ := descend_append.mp hj
  obtain ⟨n, hn, -⟩ := descend_cons.mp hr
  rw [← Option.some.inj (hm.symm.trans hd), hn]
  simp

/-- The tree is the arena, NODE_COUNT and the leaf map, and nothing else. -/
theorem treeOk_congr {s t : State} (h : TreeOk s) (ha : t.arena = s.arena) (hn : t.nodeCount = s.nodeCount)
    (hm : t.leafmap = s.leafmap) : TreeOk t := by
  obtain ⟨a1, a2, a3, a4, a5, a6, a7, a8, a9, a10⟩ := h
  constructor <;> rw [ha] at * <;> first | rw [hn] | rw [hm] | skip
  all_goals assumption

/-! ### The shape every tree keeps, also between the nodes of one path -/

/-- The part of `TreeOk` that holds after each single node is made, for the arena with `n` nodes. -/
structure TreeShape (a : Arena) (n : Nat) : Prop where
  rootMade : 1 ≤ n
  allocated : ∀ i : NodeIdx, a.get i ≠ .free ↔ i.val < n
  childAbove : ∀ (i j : NodeIdx) (b : Bool), child a i b = .node j → i < j ∧ j.val < n
  oneParent : ∀ (i i' j : NodeIdx) (b b' : Bool), child a i b = .node j → child a i' b' = .node j → i = i' ∧ b = b'
  hasParent : ∀ j : NodeIdx, j ≠ 0 → a.get j ≠ .free → ∃ i b, child a i b = .node j

theorem TreeOk.shape {s : State} (h : TreeOk s) : TreeShape s.arena s.nodeCount :=
  ⟨h.countPos, h.allocated, h.childAbove, h.oneParent, h.hasParent⟩

theorem child_lt {a : Arena} {n : Nat} (h : TreeShape a n) {i j : NodeIdx} {b : Bool}
    (hc : child a i b = .node j) : i.val < n := by
  obtain ⟨l, r, hi, -⟩ := child_eq_node.mp hc
  exact (h.allocated i).mp (by simp [hi])

theorem descend_le {a : Arena} {n : Nat} (h : TreeShape a n) {i j : NodeIdx} {c : Code}
    (hd : descend a i c = some j) : i ≤ j := by
  induction c generalizing i with
  | nil => simp only [descend_nil, Option.some.injEq] at hd; exact hd ▸ le_refl _
  | cons b c ih =>
    obtain ⟨k, hk, hd⟩ := descend_cons.mp hd
    exact le_trans (le_of_lt (h.childAbove _ _ _ hk).1) (ih hd)

theorem descend_lt {a : Arena} {n : Nat} (h : TreeShape a n) {i j : NodeIdx} {c : Code}
    (hi : i.val < n) (hd : descend a i c = some j) : j.val < n := by
  induction c generalizing i with
  | nil => simp only [descend_nil, Option.some.injEq] at hd; exact hd ▸ hi
  | cons b c ih =>
    obtain ⟨k, hk, hd⟩ := descend_cons.mp hd
    exact ih (h.childAbove _ _ _ hk).2 hd

/-- A node has one path (R122: `path(i)` is well defined). -/
theorem path_unique {a : Arena} {n : Nat} (h : TreeShape a n) {c d : Code} {i : NodeIdx}
    (hc : descend a 0 c = some i) (hd : descend a 0 d = some i) : c = d := by
  induction c using List.reverseRecOn generalizing d i with
  | nil =>
    simp only [descend_nil, Option.some.injEq] at hc
    subst hc
    rcases List.eq_nil_or_concat d with rfl | ⟨e, x, rfl⟩
    · rfl
    · rw [List.concat_eq_append] at hd
      obtain ⟨k, -, hk⟩ := descend_snoc.mp hd
      exact absurd (h.childAbove _ _ _ hk).1 (by simp)
  | append_singleton c b ih =>
    obtain ⟨k, hk, hb⟩ := descend_snoc.mp hc
    rcases List.eq_nil_or_concat d with rfl | ⟨e, x, rfl⟩
    · simp only [descend_nil, Option.some.injEq] at hd
      subst hd
      exact absurd (h.childAbove _ _ _ hb).1 (by simp)
    · rw [List.concat_eq_append] at hd ⊢
      obtain ⟨m, hm, hx⟩ := descend_snoc.mp hd
      obtain ⟨rfl, rfl⟩ := h.oneParent _ _ _ _ _ hb hx
      rw [ih hk hm]

/-- Every node of the tree has a path (R122). -/
theorem path_exists {a : Arena} {n : Nat} (h : TreeShape a n) (i : NodeIdx) (hi : a.get i ≠ .free) :
    ∃ c, descend a 0 c = some i := by
  induction hm : i.val using Nat.strong_induction_on generalizing i with
  | _ m ih =>
    by_cases h0 : i = 0
    · exact ⟨[], by simp [h0]⟩
    · obtain ⟨p, b, hp⟩ := h.hasParent i h0 hi
      have hlt := (h.childAbove _ _ _ hp).1
      have hpf : a.get p ≠ .free := (h.allocated p).mpr (child_lt h hp)
      obtain ⟨c, hc⟩ := ih p.val (hm ▸ hlt) p hpf rfl
      exact ⟨c ++ [b], descend_snoc.mpr ⟨p, hc, hp⟩⟩

/-- A leaf has no descendant but itself (R123). -/
theorem leaf_descend {a : Arena} {i j : NodeIdx} {sym : Byte} {c : Code} (hi : a.get i = .leaf sym)
    (hd : descend a i c = some j) : c = [] ∧ j = i := by
  cases c with
  | nil => simpa using hd.symm
  | cons b c =>
    obtain ⟨k, hk, -⟩ := descend_cons.mp hd
    obtain ⟨l, r, hi', -⟩ := child_eq_node.mp hk
    simp [hi] at hi'

/-! ### Making one node below an Internal node whose side is NIL -/

/-- One round of the loop of R137: node `n` gets value `v`, and `p`'s side `b` leads to it. -/
def addNode (a : Arena) (p : NodeIdx) (b : Bool) (n : NodeIdx) (v : Node) : Arena :=
  linkChild (a.set n.val v n.isLt) p b n

theorem growPath_cons (a : Arena) (sym : Byte) (b : Bool) (bs : Code) (p : NodeIdx) (n : Nat) :
    growPath a sym (b :: bs) p n =
      growPath (addNode a p b (newIdx n) (if bs.isEmpty then .leaf sym else .internal none none)) sym bs
        (newIdx n) (n + 1) := rfl

theorem newIdx_val {n : Nat} (h : n < Config.nodeCap) : (newIdx n).val = n := by
  simp only [newIdx, Fin.ofNat]; exact Nat.mod_eq_of_lt h

/-- What the premises of one round are: `p` is in the tree with side `b` NIL, `n` is the lowest Free entry, `v` has no
children and is not Free. -/
structure AddOk (a : Arena) (p : NodeIdx) (b : Bool) (n : NodeIdx) (v : Node) : Prop where
  shape : TreeShape a n.val
  gap : child a p b = .nil
  bare : v = .internal none none ∨ ∃ sym, v = .leaf sym

theorem AddOk.ne {a : Arena} {p n : NodeIdx} {b : Bool} {v : Node} (h : AddOk a p b n v) : p < n := by
  obtain ⟨l, r, hp, -⟩ := child_eq_nil.mp h.gap
  exact (h.shape.allocated p).mp (by simp [hp])

theorem addNode_get {a : Arena} {p n : NodeIdx} {b : Bool} {v : Node} (h : AddOk a p b n v) (i : NodeIdx) :
    (addNode a p b n v).get i =
      if i = p then
        (match a.get p with
        | .internal l r => if b then .internal l (some n) else .internal (some n) r
        | .leaf sym => .leaf sym
        | .free => .free)
      else if i = n then v else a.get i := by
  have hne := h.ne
  obtain ⟨l, r, hp, -⟩ := child_eq_nil.mp h.gap
  have hnp : n ≠ p := fun e => by simp [e] at hne
  have h1 : Vector.get (Vector.set a n.val v n.isLt) p = .internal l r := by
    rw [arena_get_set, if_neg hnp, hp]
  unfold addNode linkChild
  rw [h1]
  simp only [arena_get_set, hp]
  by_cases e : i = p
  · subst e; simp
  · rw [if_neg (Ne.symm e), if_neg e]
    by_cases e' : i = n
    · simp [e']
    · rw [if_neg (Ne.symm e'), if_neg e']

theorem addNode_child {a : Arena} {p n : NodeIdx} {b : Bool} {v : Node} (h : AddOk a p b n v)
    (i j : NodeIdx) (x : Bool) :
    child (addNode a p b n v) i x = .node j ↔ child a i x = .node j ∨ (i = p ∧ x = b ∧ j = n) := by
  have hne := h.ne
  obtain ⟨l, r, hp, hlr⟩ := child_eq_nil.mp h.gap
  have hfree : a.get n = .free := by
    have := h.shape.allocated n
    simpa using this
  rw [child_eq_node, child_eq_node, addNode_get h]
  by_cases e : i = p
  · subst e
    simp only [if_true, hp]
    cases b <;> cases x <;> simp_all [eq_comm]
  · rw [if_neg e]
    by_cases e' : i = n
    · subst e'
      rw [if_pos rfl, hfree]
      rcases h.bare with rfl | ⟨sym, rfl⟩
      · cases x <;> simp [e]
      · simp [e]
    · rw [if_neg e']; simp [e]

theorem addNode_free {a : Arena} {p n : NodeIdx} {b : Bool} {v : Node} (h : AddOk a p b n v) (i : NodeIdx) :
    (addNode a p b n v).get i ≠ .free ↔ a.get i ≠ .free ∨ i = n := by
  obtain ⟨l, r, hp, -⟩ := child_eq_nil.mp h.gap
  rw [addNode_get h]
  by_cases e : i = p
  · subst e; simp only [if_true, hp]; cases b <;> simp
  · rw [if_neg e]
    by_cases e' : i = n
    · subst e'
      rcases h.bare with rfl | ⟨sym, rfl⟩ <;> simp
    · simp [e']

theorem addNode_leaf {a : Arena} {p n : NodeIdx} {b : Bool} {v : Node} (h : AddOk a p b n v) (i : NodeIdx)
    (sym : Byte) :
    (addNode a p b n v).get i = .leaf sym ↔ a.get i = .leaf sym ∨ (i = n ∧ v = .leaf sym) := by
  have hne := h.ne
  obtain ⟨l, r, hp, -⟩ := child_eq_nil.mp h.gap
  have hfree : a.get n = .free := by
    have := h.shape.allocated n
    simpa using this
  rw [addNode_get h]
  by_cases e : i = p
  · subst e; simp only [if_true, hp]
    have : i ≠ n := fun e => by simp [e] at hne
    cases b <;> simp [this]
  · rw [if_neg e]
    by_cases e' : i = n
    · subst e'; simp [hfree]
    · simp [e']

theorem addNode_shape {a : Arena} {p n : NodeIdx} {b : Bool} {v : Node} (h : AddOk a p b n v) :
    TreeShape (addNode a p b n v) (n.val + 1) where
  rootMade := by omega
  allocated i := by
    rw [addNode_free h, h.shape.allocated i, Fin.ext_iff]
    omega
  childAbove i j x hc := by
    rcases (addNode_child h i j x).mp hc with hc | ⟨rfl, rfl, rfl⟩
    · have := h.shape.childAbove _ _ _ hc
      exact ⟨this.1, by omega⟩
    · exact ⟨h.ne, by omega⟩
  oneParent i i' j x x' hc hc' := by
    rcases (addNode_child h i j x).mp hc with k | ⟨e1, e2, e3⟩ <;>
    rcases (addNode_child h i' j x').mp hc' with k' | ⟨e1', e2', e3'⟩
    · exact h.shape.oneParent _ _ _ _ _ k k'
    · subst e3'; have := (h.shape.childAbove _ _ _ k).2; omega
    · subst e3; have := (h.shape.childAbove _ _ _ k').2; omega
    · exact ⟨e1.trans e1'.symm, e2.trans e2'.symm⟩
  hasParent j h0 hj := by
    rcases (addNode_free h j).mp hj with hj | rfl
    · obtain ⟨i, x, hi⟩ := h.shape.hasParent j h0 hj
      exact ⟨i, x, (addNode_child h i j x).mpr (.inl hi)⟩
    · exact ⟨p, b, (addNode_child h p j b).mpr (.inr ⟨rfl, rfl, rfl⟩)⟩

/-- The paths after one round: the old ones, and the new node's. -/
theorem addNode_descend {a : Arena} {p n : NodeIdx} {b : Bool} {v : Node} (h : AddOk a p b n v) {q : Code}
    (hq : descend a 0 q = some p) (c : Code) (i : NodeIdx) :
    descend (addNode a p b n v) 0 c = some i ↔ descend a 0 c = some i ∨ (c = q ++ [b] ∧ i = n) := by
  induction c using List.reverseRecOn generalizing i with
  | nil => simp
  | append_singleton c x ih =>
    rw [descend_snoc, descend_snoc]
    constructor
    · rintro ⟨k, hk, hc⟩
      rcases (ih k).mp hk with hk' | ⟨rfl, rfl⟩
      · rcases (addNode_child h k i x).mp hc with hc | ⟨rfl, rfl, rfl⟩
        · exact .inl ⟨k, hk', hc⟩
        · exact .inr ⟨by rw [path_unique h.shape hk' hq], rfl⟩
      · rcases (addNode_child h k i x).mp hc with hc | ⟨hkp, -, -⟩
        · have := child_lt h.shape hc; omega
        · have := h.ne; rw [hkp] at this; exact absurd this (by simp)
    · rintro (⟨k, hk, hc⟩ | ⟨he, rfl⟩)
      · exact ⟨k, (ih k).mpr (.inl hk), (addNode_child h k i x).mpr (.inl hc)⟩
      · obtain ⟨rfl, hx⟩ := List.append_inj' he rfl
        simp only [List.cons.injEq, and_true] at hx
        subst hx
        exact ⟨p, (ih p).mpr (.inl hq), (addNode_child h p i x).mpr (.inr ⟨rfl, rfl, rfl⟩)⟩

/-! ### Growing a path (R137) -/

/-- Everything growing a path does: the shape is kept, the new paths are the prefixes of the new code past the gap,
the new leaf is the one at its end, and every other new node has a child. -/
structure Grown (a a' : Arena) (sym : Byte) (q rest : Code) (n : Nat) : Prop where
  shape : TreeShape a' (n + rest.length)
  paths : ∀ (c : Code) (i : NodeIdx), descend a' 0 c = some i ↔
    descend a 0 c = some i ∨ ∃ t, t < rest.length ∧ c = q ++ rest.take (t + 1) ∧ i.val = n + t
  leaves : ∀ (i : NodeIdx) (sym' : Byte), a'.get i = .leaf sym' ↔
    a.get i = .leaf sym' ∨ (sym' = sym ∧ i.val + 1 = n + rest.length)
  bare : ∀ i : NodeIdx, a'.get i = .internal none none → a.get i = .internal none none
  links : ∀ (i j : NodeIdx) (x : Bool), child a i x = .node j → child a' i x = .node j

theorem addNode_bare {a : Arena} {p n : NodeIdx} {b : Bool} {v : Node} (h : AddOk a p b n v) (i : NodeIdx)
    (hi : (addNode a p b n v).get i = .internal none none) :
    a.get i = .internal none none ∨ (i = n ∧ v = .internal none none) := by
  obtain ⟨l, r, hp, -⟩ := child_eq_nil.mp h.gap
  rw [addNode_get h] at hi
  by_cases e : i = p
  · subst e; simp only [if_true, hp] at hi; cases b <;> simp at hi
  · rw [if_neg e] at hi
    by_cases e' : i = n
    · subst e'; rw [if_pos rfl] at hi; exact .inr ⟨rfl, hi⟩
    · rw [if_neg e'] at hi; exact .inl hi

theorem growPath_grown {a : Arena} {sym : Byte} {q rest : Code} {p : NodeIdx} {n : Nat}
    (hs : TreeShape a n) (hq : descend a 0 q = some p) (hr : rest ≠ [])
    (hgap : child a p (rest.headD false) = .nil) (hn : n + rest.length ≤ Config.nodeCap) :
    Grown a (growPath a sym rest p n) sym q rest n := by
  induction rest generalizing a q p n with
  | nil => exact absurd rfl hr
  | cons b bs ih =>
    simp only [List.length_cons] at hn
    have hv : (newIdx n).val = n := newIdx_val (by omega)
    have hadd : AddOk a p b (newIdx n) (if bs.isEmpty then .leaf sym else .internal none none) :=
      ⟨by rw [hv]; exact hs, hgap, by cases bs <;> simp⟩
    have hshape := addNode_shape hadd
    rw [hv] at hshape
    rw [growPath_cons]
    have hfree : a.get (newIdx n) = .free := by
      have := hs.allocated (newIdx n)
      rw [hv] at this; simpa using this
    cases bs with
    | nil =>
      simp only [growPath, List.isEmpty_nil, if_true] at hadd hshape ⊢
      refine ⟨hshape, fun c i => ?_, fun i sym' => ?_, fun i hi => ?_, fun i j x hx => ?_⟩
      · rw [addNode_descend hadd hq]
        simp [Fin.ext_iff, hv]
      · rw [addNode_leaf hadd]
        simp only [Node.leaf.injEq, Fin.ext_iff, hv, List.length_cons, List.length_nil]
        constructor
        · rintro (h | ⟨h, h'⟩)
          · exact .inl h
          · exact .inr ⟨h'.symm, by omega⟩
        · rintro (h | ⟨h, h'⟩)
          · exact .inl h
          · exact .inr ⟨by omega, h.symm⟩
      · rcases addNode_bare hadd i hi with h | ⟨-, h⟩
        · exact h
        · simp at h
      · exact (addNode_child hadd _ _ _).mpr (.inl hx)
    | cons b' bs' =>
      simp only [List.isEmpty_cons] at hadd hshape ⊢
      set a1 := addNode a p b (newIdx n) (if false = true then .leaf sym else .internal none none) with ha1
      have hq1 : descend a1 0 (q ++ [b]) = some (newIdx n) :=
        (addNode_descend hadd hq _ _).mpr (.inr ⟨rfl, rfl⟩)
      have hget : a1.get (newIdx n) = .internal none none := by
        rw [ha1, addNode_get hadd, if_neg (ne_of_gt hadd.ne)]; simp
      have hgap1 : child a1 (newIdx n) ((b' :: bs').headD false) = .nil :=
        child_eq_nil.mpr ⟨_, _, hget, by simp⟩
      have g := ih hshape hq1 (by simp) hgap1 (by simp only [List.length_cons] at hn ⊢; omega)
      refine ⟨?_, fun c i => ?_, fun i sym' => ?_, fun i hi => ?_, fun i j x hx => ?_⟩
      · have := g.shape
        simp only [List.length_cons] at this ⊢
        rwa [show n + (bs'.length + 1 + 1) = n + 1 + (bs'.length + 1) by omega]
      · rw [g.paths, addNode_descend hadd hq]
        constructor
        · rintro ((h | ⟨h, h'⟩) | ⟨t, ht, hc, hi⟩)
          · exact .inl h
          · exact .inr ⟨0, by simp, by simpa using h, by rw [h', hv]; rfl⟩
          · refine .inr ⟨t + 1, by simp only [List.length_cons] at ht ⊢; omega, ?_, by omega⟩
            rw [hc]; simp
        · rintro (h | ⟨t, ht, hc, hi⟩)
          · exact .inl (.inl h)
          · cases t with
            | zero => exact .inl (.inr ⟨by simpa using hc, Fin.ext (by rw [hv]; omega)⟩)
            | succ t =>
              refine .inr ⟨t, by simp only [List.length_cons] at ht ⊢; omega, ?_, by omega⟩
              rw [hc]; simp
      · rw [g.leaves, addNode_leaf hadd]
        simp only [List.length_cons]
        constructor
        · rintro ((h | ⟨-, h⟩) | ⟨h, h'⟩)
          · exact .inl h
          · simp at h
          · exact .inr ⟨h, by omega⟩
        · rintro (h | ⟨h, h'⟩)
          · exact .inl (.inl h)
          · exact .inr ⟨h, by omega⟩
      · have h1 := g.bare i hi
        rcases addNode_bare hadd i h1 with h | ⟨rfl, -⟩
        · exact h
        · exfalso
          have hp := (g.paths (q ++ [b] ++ [b']) (newIdx (n + 1))).mpr (.inr ⟨0, by simp, by simp,
            by rw [newIdx_val (by simp only [List.length_cons] at hn; omega)]⟩)
          have hp0 := (g.paths (q ++ [b]) (newIdx n)).mpr (.inl hq1)
          obtain ⟨k, hk, hc⟩ := descend_snoc.mp hp
          rw [hp0] at hk
          simp only [Option.some.injEq] at hk
          subst hk
          obtain ⟨l, r, hlr, hs'⟩ := child_eq_node.mp hc
          rw [hi] at hlr
          simp only [Node.internal.injEq] at hlr
          obtain ⟨rfl, rfl⟩ := hlr
          cases b' <;> simp at hs'
      · exact g.links _ _ _ ((addNode_child hadd _ _ _).mpr (.inl hx))

end Sys2Proof.Machine
end

