-- ==== Sys2Proof/Laws/Decode.lean ====
section
/-! SUPPORT. The bit loop of the DECODE beat (44_decode R193). -/

namespace Sys2Proof.Machine

theorem leafSym_eq_some {a : Arena} {i : NodeIdx} {sym : Byte} : leafSym? a i = some sym ↔ a.get i = .leaf sym := by
  unfold leafSym?; split <;> simp_all

theorem leafSym_eq_none {a : Arena} {i : NodeIdx} : leafSym? a i = none ↔ ∀ sym, a.get i ≠ .leaf sym := by
  unfold leafSym?; split <;> simp_all

/-- The loop over more bits goes on where the first bits left it, or has stopped (R193). -/
theorem scanBits_append (a : Arena) (xs ys : List Bool) (cur : NodeIdx) (i start : Nat) :
    scanBits a (xs ++ ys) cur i start =
      let r := scanBits a xs cur i start
      if r.stop = none then
        let r' := scanBits a ys r.cur r.i r.start
        { r' with syms := r.syms ++ r'.syms }
      else r := by
  induction xs generalizing cur i start with
  | nil => simp [scanBits]
  | cons x xs ih =>
    rw [List.cons_append, scanBits, scanBits]
    cases child a cur x with
    | nil => simp
    | structural => simp
    | free => simp
    | node nxt =>
      dsimp only
      cases leafSym? a nxt with
      | none => exact ih nxt (i + 1) start
      | some sym =>
        dsimp only
        rw [ih 0 (i + 1) (i + 1)]
        dsimp only
        split <;> simp_all

theorem scanBits_syms_length (a : Arena) (xs : List Bool) (cur : NodeIdx) (i start : Nat) :
    (scanBits a xs cur i start).syms.length ≤ xs.length := by
  induction xs generalizing cur i start with
  | nil => simp [scanBits]
  | cons x xs ih =>
    rw [scanBits]
    cases child a cur x with
    | nil => simp
    | structural => simp
    | free => simp
    | node nxt =>
      dsimp only
      cases leafSym? a nxt with
      | none => have := ih nxt (i + 1) start; simp only [List.length_cons]; omega
      | some sym => have := ih 0 (i + 1) (i + 1); simp only [List.length_cons]; omega

/-- The loop over a code that leads from the cursor to a leaf, with no leaf on the way, pushes the leaf's symbol and is
back at the root (R193). -/
theorem scanBits_code {a : Arena} {c : Code} {cur j : NodeIdx} {sym : Byte} (i start : Nat) (hne : c ≠ [])
    (hd : descend a cur c = some j) (hl : a.get j = .leaf sym) :
    scanBits a c cur i start =
      { syms := [sym], cur := 0, i := i + c.length, start := i + c.length, stop := none } := by
  induction c generalizing cur i with
  | nil => exact absurd rfl hne
  | cons b c ih =>
    obtain ⟨nxt, hc, hd⟩ := descend_cons.mp hd
    rw [scanBits, hc]
    dsimp only
    cases c with
    | nil =>
      simp only [descend_nil, Option.some.injEq] at hd
      subst hd
      rw [leafSym_eq_some.mpr hl]
      simp [scanBits]
    | cons b' c' =>
      have hnl : leafSym? a nxt = none := by
        rw [leafSym_eq_none]
        intro sy hsy
        exact absurd (leaf_descend hsy hd).1 (by simp)
      rw [hnl]
      dsimp only
      rw [ih (i + 1) (by simp) hd]
      simp only [List.length_cons, Scan.mk.injEq, and_true, true_and]
      omega

/-- The loop over a concatenation of codes pushes their symbols and ends at the root (R197). -/
theorem scanBits_codes {a : Arena} (es : List (Byte × Code)) (i : Nat)
    (h : ∀ e ∈ es, e.2 ≠ [] ∧ codeIs a e.1 e.2) :
    scanBits a (es.flatMap (·.2)) 0 i i =
      { syms := es.map (·.1), cur := 0, i := i + (es.flatMap (·.2)).length,
        start := i + (es.flatMap (·.2)).length, stop := none } := by
  induction es generalizing i with
  | nil => simp [scanBits]
  | cons e es ih =>
    obtain ⟨hne, j, hj, hl⟩ := h e (by simp)
    rw [List.flatMap_cons, scanBits_append, scanBits_code i i hne hj hl]
    simp only [if_true]
    rw [ih _ (fun e' he' => h e' (by simp [he']))]
    simp only [List.map_cons, List.cons_append, List.nil_append, List.length_append, Scan.mk.injEq, and_true,
      true_and]
    omega

/-- What the loop keeps in a tree with an Internal root (R193): it stops only at a NIL child; while it has not stopped
it has counted every bit, the cursor is an Internal node, and it is the root exactly when a code begins. -/
theorem scanBits_inv {a : Arena} {n : Nat} (hs : TreeShape a n) (hroot : ∃ l r, a.get 0 = .internal l r)
    (xs : List Bool) (cur : NodeIdx) (i start : Nat) (hcur : ∃ l r, a.get cur = .internal l r)
    (hle : start ≤ i) (hz : cur = 0 ↔ start = i) :
    let r := scanBits a xs cur i start
    (r.stop = none ∨ r.stop = some .invalidCode) ∧
    (r.stop = none → r.i = i + xs.length ∧ r.start ≤ r.i ∧ (r.cur = 0 ↔ r.start = r.i) ∧
      ∃ l r', a.get r.cur = .internal l r') := by
  induction xs generalizing cur i start with
  | nil => simp [scanBits, hle, hz, hcur]
  | cons x xs ih =>
    rw [scanBits]
    cases hc : child a cur x with
    | nil => simp
    | structural =>
      obtain ⟨sym, h⟩ := child_eq_structural.mp hc
      obtain ⟨l, r, h'⟩ := hcur
      rw [h] at h'; simp at h'
    | free =>
      have h := child_eq_free.mp hc
      obtain ⟨l, r, h'⟩ := hcur
      rw [h] at h'; simp at h'
    | node nxt =>
      obtain ⟨hlt, hn⟩ := hs.childAbove _ _ _ hc
      have hnf : a.get nxt ≠ .free := (hs.allocated nxt).mpr hn
      have hn0 : nxt ≠ 0 := fun e => by subst e; simp at hlt
      dsimp only
      cases hl : leafSym? a nxt with
      | some sym =>
        have := ih 0 (i + 1) (i + 1) hroot (le_refl _) (by simp)
        dsimp only at this ⊢
        refine ⟨this.1, fun h => ?_⟩
        obtain ⟨h1, h2⟩ := this.2 h
        exact ⟨by rw [h1, List.length_cons]; omega, h2⟩
      | none =>
        have hint : ∃ l r, a.get nxt = .internal l r := by
          cases hg : a.get nxt with
          | free => exact absurd hg hnf
          | leaf sym => exact absurd hg (leafSym_eq_none.mp hl sym)
          | internal l r => exact ⟨l, r, rfl⟩
        have := ih nxt (i + 1) start hint (by omega) (by simp [hn0]; omega)
        dsimp only at this ⊢
        refine ⟨this.1, fun h => ?_⟩
        obtain ⟨h1, h2⟩ := this.2 h
        exact ⟨by rw [h1, List.length_cons]; omega, h2⟩

end Sys2Proof.Machine
end

