-- ==== Sys2Proof/Laws/Encode.lean ====
section
/-! SUPPORT. The bit-packer in closed form (43_encode R173, R174). -/

namespace Sys2Proof.Machine

/-- The unused low bits of pack_acc are 0 (R36). -/
def PackLow (s : State) : Prop := ∀ k, k < 8 - s.packCnt.val → s.packAcc.getLsbD k = false

@[simp] theorem heldBits_length (s : State) : (heldBits s).length = s.packCnt.val := by
  simp [heldBits]

theorem heldBits_getD (s : State) (t : Nat) (ht : t < s.packCnt.val) :
    (heldBits s).getD t false = s.packAcc.getLsbD (7 - t) := by
  have := s.packCnt.isLt
  rw [← byteBits_getD s.packAcc t (by omega)]
  simp only [heldBits, List.getD_eq_getElem?_getD, List.getElem?_take, ht, if_true]

/-- With its unused bits 0, pack_acc is the held bits padded with 0 (R36, R70). -/
theorem packAcc_eq {s : State} (h : PackLow s) :
    s.packAcc = wordOfBits 8 (heldBits s ++ List.replicate (8 - s.packCnt.val) false) := by
  have hc := s.packCnt.isLt
  apply BitVec.eq_of_getLsbD_eq
  intro j hj
  rw [wordOfBits_getLsbD _ (by simp) _ hj]
  by_cases ht : 7 - j < s.packCnt.val
  · rw [show 8 - 1 - j = 7 - j from rfl, List.getD_append _ _ _ _ (by simpa using ht), heldBits_getD s _ ht,
      show 7 - (7 - j) = j by omega]
  · rw [show 8 - 1 - j = 7 - j from rfl, List.getD_append_right _ _ _ _ (by simp; omega), h j (by omega)]
    simp only [List.getD_eq_getElem?_getD, List.getElem?_replicate]
    split <;> rfl

theorem putAcc_getLsbD (s : State) (x : Bool) (h : PackLow s) (j : Nat) (hj : j < 8) :
    (s.packAcc ||| ((BitVec.ofBool x).setWidth 8 <<< (7 - s.packCnt.val))).getLsbD j =
      (if j = 7 - s.packCnt.val then x else s.packAcc.getLsbD j) := by
  have hc := s.packCnt.isLt
  rw [BitVec.getLsbD_or, BitVec.getLsbD_shiftLeft, BitVec.getLsbD_setWidth]
  by_cases e : j = 7 - s.packCnt.val
  · subst e
    rw [if_pos rfl, h _ (by omega)]
    cases x
    · simp
    · simp; omega
  · rw [if_neg e]
    by_cases hlt : j < 7 - s.packCnt.val
    · simp [hlt]
    · have : (BitVec.ofBool x).getLsbD (j - (7 - s.packCnt.val)) = false := by
        apply BitVec.getLsbD_of_ge; omega
      simp [this]

/-- `PutBit` while the byte is not yet full: the bit joins the held ones. -/
theorem putBit_hold {s : State} (x : Bool) (h : PackLow s) (hc : s.packCnt.val + 1 < 8) :
    PackLow (putBit x s) ∧ heldBits (putBit x s) = heldBits s ++ [x] ∧
      (putBit x s).packCnt.val = s.packCnt.val + 1 ∧ (putBit x s).outQ = s.outQ := by
  have hput : putBit x s = { s with
      packAcc := s.packAcc ||| ((BitVec.ofBool x).setWidth 8 <<< (7 - s.packCnt.val))
      packCnt := ⟨s.packCnt.val + 1, hc⟩ } := by
    unfold putBit; dsimp only; rw [dif_pos hc]
  rw [hput]
  refine ⟨fun k hk => ?_, ?_, rfl, rfl⟩
  · dsimp only at hk ⊢
    rw [putAcc_getLsbD s x h k (by omega), if_neg (by omega)]
    exact h k (by omega)
  · apply bits_ext (by simp)
    intro t ht
    simp only [heldBits_length] at ht
    rw [heldBits_getD _ t (by simpa using ht)]
    dsimp only
    rw [putAcc_getLsbD s x h _ (by omega)]
    by_cases e : t = s.packCnt.val
    · subst e
      rw [if_pos rfl, List.getD_append_right _ _ _ _ (by simp)]
      simp
    · rw [if_neg (by omega), List.getD_append _ _ _ _ (by simp; omega), heldBits_getD s t (by omega)]

/-- `PutBit` of the eighth bit: the byte is pushed and the packer is empty. -/
theorem putBit_push {s : State} (x : Bool) (h : PackLow s) (hc : ¬ s.packCnt.val + 1 < 8) :
    PackLow (putBit x s) ∧ heldBits (putBit x s) = [] ∧ (putBit x s).packCnt.val = 0 ∧
      (putBit x s).outQ = s.outQ ++ [wordOfBits 8 (heldBits s ++ [x])] := by
  have hlt := s.packCnt.isLt
  have hput : putBit x s =
      { outPush (s.packAcc ||| ((BitVec.ofBool x).setWidth 8 <<< (7 - s.packCnt.val))) s with
        packAcc := 0, packCnt := 0 } := by
    unfold putBit; dsimp only; rw [dif_neg hc]
  rw [hput]
  refine ⟨fun k hk => by simp, ?_, rfl, ?_⟩
  · simp [heldBits]
  · dsimp only [outPush]
    congr 2
    apply BitVec.eq_of_getLsbD_eq
    intro j hj
    rw [putAcc_getLsbD s x h j hj, wordOfBits_getLsbD _ (by simp; omega) _ hj]
    by_cases e : j = 7 - s.packCnt.val
    · rw [if_pos e, List.getD_append_right _ _ _ _ (by simp; omega)]
      simp [show 8 - 1 - j - s.packCnt.val = 0 by omega]
    · rw [if_neg e, List.getD_append _ _ _ _ (by simp; omega), heldBits_getD s _ (by omega)]
      congr 1; omega

/-- The packer in closed form (R174): of the bits held and appended, S, the first `len(S) / 8` bytes of `pack(S)`
are pushed and the last `len(S) mod 8` bits are held. -/
theorem putBits_closed (xs : List Bool) (s : State) (h : PackLow s) :
    PackLow (putBits xs s) ∧
    (putBits xs s).packCnt.val = (s.packCnt.val + xs.length) % 8 ∧
    heldBits (putBits xs s) = (heldBits s ++ xs).drop (8 * ((s.packCnt.val + xs.length) / 8)) ∧
    (putBits xs s).outQ = s.outQ ++ (packBits (heldBits s ++ xs)).take ((s.packCnt.val + xs.length) / 8) := by
  induction xs generalizing s with
  | nil =>
    have hc := s.packCnt.isLt
    refine ⟨h, ?_, ?_, ?_⟩
    · simp [putBits]; omega
    · simp [putBits, show s.packCnt.val / 8 = 0 by omega]
    · simp [putBits, show s.packCnt.val / 8 = 0 by omega]
  | cons x xs ih =>
    rw [putBits]
    by_cases hc : s.packCnt.val + 1 < 8
    · obtain ⟨h1, h2, h3, h4⟩ := putBit_hold x h hc
      obtain ⟨i1, i2, i3, i4⟩ := ih _ h1
      rw [h3] at i2 i3 i4
      rw [h2] at i3 i4
      rw [h4] at i4
      have e : s.packCnt.val + 1 + xs.length = s.packCnt.val + (x :: xs).length := by simp; omega
      rw [e] at i2 i3 i4
      simp only [List.append_assoc, List.singleton_append] at i3 i4
      exact ⟨i1, i2, i3, i4⟩
    · obtain ⟨h1, h2, h3, h4⟩ := putBit_push x h hc
      obtain ⟨i1, i2, i3, i4⟩ := ih _ h1
      have hlt := s.packCnt.isLt
      have hcnt : s.packCnt.val = 7 := by omega
      rw [h3] at i2 i3 i4
      rw [h2] at i3 i4
      rw [h4] at i4
      have hl : (heldBits s ++ [x]).length = 8 := by simp [hcnt]
      have hS : heldBits s ++ x :: xs = (heldBits s ++ [x]) ++ xs := by simp
      have e : (s.packCnt.val + (x :: xs).length) / 8 = xs.length / 8 + 1 := by simp [hcnt]; omega
      refine ⟨i1, ?_, ?_, ?_⟩
      · rw [i2, hcnt]; simp; omega
      · rw [i3, e, hS, show 8 * (xs.length / 8 + 1) = 8 + 8 * (xs.length / 8) by omega,
          ← List.drop_drop, List.drop_left' hl]
        simp
      · rw [i4, e, hS, packBits_eight _ _ hl, List.take_succ_cons]
        simp

theorem putBits_outQ_length (xs : List Bool) (s : State) (h : PackLow s) :
    (putBits xs s).outQ.length = s.outQ.length + (s.packCnt.val + xs.length) / 8 := by
  rw [(putBits_closed xs s h).2.2.2]
  simp only [List.length_append, List.length_take, packBits_length, heldBits_length]
  rw [ceil8_eq]; omega

/-! ### What a beat and FLUSH push (R172, R176) -/

theorem encPushes_none (s : State) : encPushes none s = 0 := rfl

theorem encPushes_fits {s : State} {c : Code} (h : s.encBitcount.toNat + c.length ≤ 0xFFFFFFFF) :
    encPushes (some c) s = (s.packCnt.val + c.length) / 8 := if_pos h

theorem encPushes_over {s : State} {c : Code} (h : 0xFFFFFFFF < s.encBitcount.toNat + c.length) :
    encPushes (some c) s = 0 := if_neg (show ¬ s.encBitcount.toNat + c.length ≤ Config.countMax by
      simp only [Config.countMax]; omega)

theorem flushBytes_empty {s : State} (h : s.packCnt = 0) : flushBytes s = [] := by
  unfold flushBytes; rw [h]; rfl

theorem flushBytes_held {s : State} (h : s.packCnt ≠ 0) : flushBytes s = [s.packAcc] := by
  unfold flushBytes
  rw [if_pos]
  rcases Nat.eq_zero_or_pos s.packCnt.val with e | e
  · exact absurd (Fin.ext e) h
  · exact e

end Sys2Proof.Machine
end

