-- ==== Sys2Proof/Laws/Encoding.lean ====
section
/-! SUPPORT. The bits and fields of a CMD word, and which words decode (30_encoding R90 to R93). -/

namespace Sys2Proof

/-- The bits of a CMD word (R90). -/
theorem cmdWord_bit (op sym len : BitVec 8) (emit : Bool) (k : Nat) :
    (cmdWord op sym len emit).getLsbD k =
      if k < 8 then op.getLsbD k
      else if k < 16 then sym.getLsbD (k - 8)
      else if k < 24 then len.getLsbD (k - 16)
      else if k < 25 then (BitVec.ofBool emit).getLsbD (k - 24)
      else false := by
  have h : BitVec.getLsbD (w := 7 + 1 + 8 + 8 + 8) (0#7 ++ BitVec.ofBool emit ++ len ++ sym ++ op) k =
      if k < 8 then op.getLsbD k
      else if k < 16 then sym.getLsbD (k - 8)
      else if k < 24 then len.getLsbD (k - 16)
      else if k < 25 then (BitVec.ofBool emit).getLsbD (k - 24)
      else false := by
    simp only [BitVec.getLsbD_append]
    rw [show k - 8 - 8 = k - 16 by omega, show k - 16 - 8 = k - 24 by omega]
    by_cases h8 : k < 8
    · simp [h8]
    by_cases h16 : k < 16
    · simp [h8, h16, show k - 8 < 8 by omega]
    by_cases h24 : k < 24
    · simp [h8, h16, h24, show ¬ k - 8 < 8 by omega, show k - 16 < 8 by omega]
    by_cases h25 : k < 25
    · simp [h8, h16, h24, h25, show ¬ k - 8 < 8 by omega, show ¬ k - 16 < 8 by omega, show k - 24 < 1 by omega]
    · simp [h8, h16, h24, h25, show ¬ k - 8 < 8 by omega, show ¬ k - 16 < 8 by omega, show ¬ k - 24 < 1 by omega]
  exact h

theorem cmdWord_opcode (op sym len : BitVec 8) (emit : Bool) : fieldOpcode (cmdWord op sym len emit) = op := by
  apply BitVec.eq_of_getLsbD_eq
  intro i hi
  unfold fieldOpcode
  rw [BitVec.getLsbD_extractLsb', cmdWord_bit]
  simp [hi]

theorem cmdWord_sym (op sym len : BitVec 8) (emit : Bool) : fieldSym (cmdWord op sym len emit) = sym := by
  apply BitVec.eq_of_getLsbD_eq
  intro i hi
  unfold fieldSym
  rw [BitVec.getLsbD_extractLsb', cmdWord_bit]
  simp [hi, show ¬ 8 + i < 8 by omega, show 8 + i < 16 by omega]

theorem cmdWord_len (op sym len : BitVec 8) (emit : Bool) : fieldLen (cmdWord op sym len emit) = len := by
  apply BitVec.eq_of_getLsbD_eq
  intro i hi
  unfold fieldLen
  rw [BitVec.getLsbD_extractLsb', cmdWord_bit]
  simp [hi, show ¬ 16 + i < 8 by omega, show ¬ 16 + i < 16 by omega, show 16 + i < 24 by omega]

theorem cmdWord_emit (op sym len : BitVec 8) (emit : Bool) : fieldEmit (cmdWord op sym len emit) = emit := by
  unfold fieldEmit
  rw [cmdWord_bit]
  simp

theorem cmdWord_rsvd (op sym len : BitVec 8) (emit : Bool) : fieldRsvd (cmdWord op sym len emit) = 0 := by
  apply BitVec.eq_of_getLsbD_eq
  intro i hi
  unfold fieldRsvd
  rw [BitVec.getLsbD_extractLsb', cmdWord_bit]
  simp [show ¬ 25 + i < 8 by omega, show ¬ 25 + i < 16 by omega, show ¬ 25 + i < 24 by omega,
    show ¬ 25 + i < 25 by omega]

/-- A word with RSVD = 0 decodes by its opcode (R91); any other is illegal (R93). -/
theorem decodeCmd_cmdWord (op sym len : BitVec 8) (emit : Bool) :
    decodeCmd (cmdWord op sym len emit) = decodeOpcode (cmdWord op sym len emit) :=
  if_pos (cmdWord_rsvd op sym len emit)

/-- What a CMD word decodes to is well-formed and of the format CMD32. -/
theorem decodeCmd_wellFormed {w : Word} {i : Instr} (h : decodeCmd w = .ok i) :
    i.WellFormed = true ∧ i.format = .cmd32 := by
  unfold decodeCmd decodeOpcode at h
  split at h
  · split at h <;> simp only [Except.ok.injEq, reduceCtorEq] at h <;> subst h <;> try exact ⟨rfl, rfl⟩
    refine ⟨?_, rfl⟩
    simp only [Instr.WellFormed, decide_eq_true_eq, Config.maxCodeLen]
    have := (fieldLen w).isLt
    omega
  · simp at h

/-- What a CTRL word decodes to is one of the two actions (R94). -/
theorem decodeCtrl_action {w : Word} {i : Instr} (h : decodeCtrl w = .ok i) : i = .softReset ∨ i = .abort := by
  unfold decodeCtrl at h
  split at h
  · simp at h; exact .inl h.symm
  · split at h <;> simp at h
    exact .inr h.symm

end Sys2Proof
end

