-- ==== Sys2Proof/Laws/Ops.lean ====
section
/-! SUPPORT. What the shared operations of Machine/Ops.lean can do, said once for each. -/

namespace Sys2Proof.Machine

/-- The start step exists in PENDING (45_control R213). -/
theorem startStep_pending {s : State} {L : Latched} (h : s.engine = .pending L) (body : Latched → StepResult) :
    startStep s body = body L := by
  unfold startStep; rw [h]

/-- A start step that answers a next state was in PENDING. -/
theorem startStep_next {s t : State} {body : Latched → StepResult} (h : startStep s body = .next t) :
    ∃ L, s.engine = .pending L ∧ body L = .next t := by
  unfold startStep at h
  split at h <;> simp_all

/-- The error recorded by `raise` is the first since the last clear (60_exceptions R262). -/
theorem raise_first {s : State} (h : s.err = false) (e : ErrCode) (w : Word) :
    raise e w s = { s with err := true, errcode := e, errInfo := w } := by
  unfold raise; rw [h]; rfl

/-- While an error is recorded `raise` changes nothing (60_exceptions R262). -/
theorem raise_later {s : State} (h : s.err = true) (e : ErrCode) (w : Word) : raise e w s = s := by
  unfold raise; rw [h]; rfl

/-- Taking input and recording an error do not see each other. -/
theorem raise_withInQ (e : ErrCode) (w : Word) (q : List Byte) (s : State) :
    raise e w { s with inQ := q } = { raise e w s with inQ := q } := by
  unfold raise; dsimp only; split <;> rfl

theorem failWith_next {s t : State} {e : ErrCode} {w : Word} {g : Engine} (h : failWith e w g s = .next t) :
    t = setEngine g (raise e w s) := by
  unfold failWith at h; simpa using h.symm

@[simp] theorem outFree_reset : outFree State.reset = Config.outDepth := by
  simp [outFree, State.reset]

theorem latched_none {e : Engine} : latched? e = none ↔ e = .idle := by
  cases e <;> simp [latched?]

theorem statusBusy_false {s : State} : statusBusy s = false ↔ s.engine = .idle := by
  unfold statusBusy; split <;> simp_all

end Sys2Proof.Machine
end

