-- ==== Sys2Proof/Laws/Run.lean ====
section
/-! SUPPORT. Runs of several steps, and the step of an engine with no turn due. -/

namespace Sys2Proof.Machine

/-- A run whose first step answers goes on from there. -/
theorem run_step {s t : State} (n : Nat) (h : step s = .next t) : runSteps (n + 1) s = runSteps n t := by
  have e := Host.Core.run.eq_2 core s n
  have h' : core.step s = .next t := h
  rw [h'] at e
  exact e

theorem run_zero (s : State) : runSteps 0 s = .next s := rfl

/-- A run of m + n steps whose first m answer goes on from there. -/
theorem run_add {s t : State} (m n : Nat) (h : runSteps m s = .next t) : runSteps (m + n) s = runSteps n t := by
  induction m generalizing s with
  | zero => rw [Nat.zero_add, show s = t by simpa [run_zero] using h]
  | succ m ih =>
    have e := Host.Core.run.eq_2 core s m
    cases hs : step s with
    | next u =>
      rw [show m + 1 + n = m + n + 1 by omega, run_step _ hs]
      exact ih ((run_step m hs).symm.trans h)
    | fault f =>
      have h' : core.step s = .fault f := hs
      rw [h'] at e
      exact absurd (e.symm.trans h) (by simp)
    | refused r =>
      have h' : core.step s = .refused r := hs
      rw [h'] at e
      exact absurd (e.symm.trans h) (by simp)

/-- With no turn due the engine moves (log 1). -/
theorem step_engine {s : State} (h : s.turns = []) : step s = engineStep s := by
  unfold step takeTurn; rw [h]

/-- An IDLE engine has no step of its own: its turn passes (log 3). -/
theorem engineStep_idle {s : State} (h : s.engine = .idle) : engineStep s = .next s := by
  unfold engineStep; rw [h]

/-- A latched word that is no instruction raises ILLEGAL_CMD once the start rule of its opcode holds, and waits until
then (45_control R213, log 18). -/
theorem engineStep_illegal {s : State} {L : Latched} {r : Reject} (h : s.engine = .pending L)
    (hd : decodeCmd L.word = .error r) :
    engineStep s =
      if startReady (fieldOpcode L.word) s then failWith .illegalCmd L.word .idle s else .next s := by
  unfold engineStep; rw [h]; simp only [startCommand, hd]

/-- FLUSH's start rule (43_encode R176). -/
theorem flushReady_iff {s : State} : flushReady s = true ↔ s.packCnt = 0 ∨ 1 ≤ outFree s := by
  have hz : s.packCnt = 0 ↔ ¬ 0 < s.packCnt.val := by
    rw [Nat.not_lt, Nat.le_zero, ← Fin.val_eq_zero_iff]
  unfold flushReady flushBytes
  rw [decide_eq_true_iff, hz]
  split <;> simp_all

/-- The start rules of the opcodes (45_control R213). -/
theorem startReady_iff {op : BitVec 8} {s : State} :
    startReady op s = true ↔ op ≠ 0x06 ∨ s.packCnt = 0 ∨ 1 ≤ outFree s := by
  rw [← flushReady_iff]; unfold startReady; simp

/-- A latched command that decodes is run by the engine's next step (45_control R213). -/
theorem engineStep_pending {s : State} {L : Latched} {i : Instr} (h : s.engine = .pending L)
    (hd : decodeCmd L.word = .ok i) : engineStep s = exec i s := by
  unfold engineStep; rw [h]; simp only [startCommand, hd]

end Sys2Proof.Machine
end

