-- ==== Sys2Proof/Machine/RunEnd.lean ====
section
/-! DEFINITION. The end of a run, its result, and whether it has failed (70_reset R313, 92_eei_decisions D2). Nothing in
the block depends on this file. -/

namespace Sys2Proof.Machine

/-- A run has ended at a state where the engine is IDLE and the host takes no further step (R313): no host step is left
among the turns (log 21). -/
def runEnded (s : State) : Bool := !statusBusy s && (hostStepsOf s.turns).isEmpty

/-- The bytes among what the host has seen that it popped from out_q, in order. -/
def poppedBytes : List Response → List Byte
  | [] => []
  | .popped b :: rs => b :: poppedBytes rs
  | .rdata _ :: rs => poppedBytes rs
  | .written :: rs => poppedBytes rs
  | .busError :: rs => poppedBytes rs
  | .pushed :: rs => poppedBytes rs
  | .pushBlocked :: rs => poppedBytes rs
  | .popBlocked :: rs => poppedBytes rs
  | .resetDone :: rs => poppedBytes rs

/-- Every host register, in the order of the register map (10_state R20). -/
def allRegs : List Reg :=
  [.id, .param, .ctrl, .status, .cmd, .arg0, .arg1, .result, .errInfo, .encBitcount, .encLastbits, .decSymcount,
    .nodeCount, .leafCount, .fifoLevel] ++ (List.finRange 8).map Reg.code

/-- The result of a run (R313): the bytes popped, the bytes left in out_q, the register values, and ERR. -/
structure RunResult where
  popped : List Byte
  left : List Byte
  registers : List (Reg × Word)
  err : Bool
deriving DecidableEq, Repr

/-- The result of a run that began at `s` and has come to `t` (R313). -/
def runResult (s t : State) : RunResult where
  popped := poppedBytes (t.responses.drop s.responses.length)
  left := t.outQ
  registers := allRegs.map fun r => (r, readReg r t)
  err := t.err

/-- The next step is an ABORT (30_encoding R94) that stops a command (45_control R216). -/
def stopsByAbort (s : State) : Bool :=
  match s.turns with
  | .host (.write addr n strb v) :: _ =>
    statusBusy s && decide (addr = regOffset .ctrl ∧ n = 4 ∧ strb = 0b1111#4) && !v.getLsbD 0 && v.getLsbD 1
  | .host (.read _ _) :: _ => false
  | .host (.push _) :: _ => false
  | .host .pop :: _ => false
  | .host .reset :: _ => false
  | .engine :: _ => false
  | [] => false

/-- One of the next `n` steps from `s` stops a command by ABORT. -/
def abortsWithin : Nat → State → Bool
  | 0, _ => false
  | n + 1, s =>
    stopsByAbort s ||
      match step s with
      | .next t => abortsWithin n t
      | .fault _ => false
      | .refused _ => false

/-- A run of `n` steps that began at `s` and has come to `t` has failed (R313): ERR is 1 at its end, or a command was
stopped by ABORT on the way, whatever CLEAR_ERR or a reset has cleared since. DEDUCED, safe (log 21). -/
def runFailed (n : Nat) (s t : State) : Bool := t.err || abortsWithin n s

end Sys2Proof.Machine
end

