-- ==== Sys2Proof/Laws/Host.lean ====
section
/-! SUPPORT. Host programs and their schedules (30_encoding R102), HostSave of the block's tree (42_walk_lookup R155), and
the end of a run (70_reset R313). -/

namespace Sys2Proof.Machine

/-! ### Schedules -/

theorem hostStepsOf_append (xs ys : List Turn) : hostStepsOf (xs ++ ys) = hostStepsOf xs ++ hostStepsOf ys := by
  induction xs with
  | nil => rfl
  | cons x xs ih => cases x <;> simp [hostStepsOf, ih]

/-- Engine turns may stand anywhere in a schedule. -/
theorem isScheduleOf_insert {xs ys : List Turn} {lines : List Line} (h : IsScheduleOf (xs ++ ys) lines) :
    IsScheduleOf (xs ++ .engine :: ys) lines := by
  unfold IsScheduleOf at h ⊢
  rw [hostStepsOf_append] at h ⊢
  exact h

/-- The host's poll is its read of STATUS. -/
theorem hostStep_poll (s : State) : hostStep (hostRd .status) s = .next (pollStatus s).2 := rfl

/-! ### HostSave of the block's tree -/

/-- The records WALK lists are the pairs HostSave writes, in the same order (R155). -/
theorem visit_readTree (a : Vector Node Config.nodeCap) (d : Nat) (i : NodeIdx) (p : Code) (rs : List Record)
    (h : visit a d i p = .ok rs) : rs.map (fun r => (r.sym, r.code)) = hostLeafCodes (readTree a d i) p := by
  induction d generalizing i p rs with
  | zero => simp [visit] at h
  | succ d ih =>
    have side (n : Option NodeIdx) (q : Code) (us : List Record) (hs : visitSide (visit a d) n q = .ok us) :
        us.map (fun r => (r.sym, r.code)) = hostLeafCodes (readChild (readTree a d) n) q := by
      cases n with
      | none => cases hs; rfl
      | some k => exact ih k q us hs
    cases hn : a.get i with
    | leaf sym =>
      simp only [visit, readTree, hn] at h ⊢
      cases h; rfl
    | free =>
      simp only [visit, hn] at h
      cases h
    | internal l r =>
      simp only [visit, readTree, hn, hostLeafCodes] at h ⊢
      unfold visitJoin at h
      cases hl : visitSide (visit a d) l (p ++ [false]) with
      | error f => simp only [hl] at h; cases h
      | ok ls =>
        cases hr : visitSide (visit a d) r (p ++ [true]) with
        | error f => simp only [hl, hr] at h; cases h
        | ok us =>
          simp only [hl, hr] at h
          cases h
          rw [List.map_append, side _ _ _ hl, side _ _ _ hr]

/-- The lines HostSave writes of the block's tree are WALK's records as text (R155). -/
theorem hostSave_blockTree {s : State} {rs : List Record} (h : treeLeaves s.arena = .ok rs) :
    hostSave (blockTree s) = tableText (rs.map fun r => (r.sym, r.code)) := by
  unfold hostSave blockTree
  rw [visit_readTree _ _ _ _ _ h]

/-! ### The end of a run -/

theorem runEnded_iff {s : State} : runEnded s = true ↔ s.engine = .idle ∧ hostStepsOf s.turns = [] := by
  unfold runEnded statusBusy
  cases s.engine <;> simp

/-- The reads of the registers do not depend on the turns still to come. -/
theorem readReg_turns (r : Reg) (s : State) (ts : List Turn) : readReg r { s with turns := ts } = readReg r s := by
  cases r <;> rfl

/-- A run that has ended stays ended, with the same result (R313). -/
theorem runEnded_step {s0 s t : State} (h : runEnded s = true) (hs : step s = .next t) :
    runEnded t = true ∧ runResult s0 t = runResult s0 s := by
  obtain ⟨he, hh⟩ := runEnded_iff.mp h
  unfold step takeTurn at hs
  split at hs <;> rename_i ht
  · rw [engineStep_idle he] at hs
    cases hs
    exact ⟨h, rfl⟩
  · rename_i rest
    rw [engineStep_idle (s := { s with turns := rest }) he] at hs
    cases hs
    rw [ht] at hh
    refine ⟨runEnded_iff.mpr ⟨he, hh⟩, ?_⟩
    simp [runResult, readReg_turns]
  · rw [ht] at hh; simp [hostStepsOf] at hh

end Sys2Proof.Machine
end

