-- ==== Sys2Proof/Laws/Insert.lean ====
section
/-! SUPPORT. TREE_INSERT's walk (41_tree_build R132) and the trees it makes (R137). -/

namespace Sys2Proof.Machine

/-- Everything the walk of R132 can end in, from node `cur` reached by the path `q`: at a Leaf, at the end of the
code, at a gap, or at a Free entry. -/
theorem insertWalk_spec (a : Arena) (c : Code) (cur : NodeIdx) (k : Nat) :
    match insertWalk a c cur k with
    | .leafAt m => ∃ t i sym, m = k + t ∧ t < c.length ∧ descend a cur (c.take t) = some i ∧ a.get i = .leaf sym
    | .ends i => descend a cur c = some i
    | .gap i m rest => ∃ t, m = k + t ∧ t < c.length ∧ rest = c.drop t ∧ descend a cur (c.take t) = some i ∧
        child a i (rest.headD false) = .nil
    | .freeEntry => ∃ t i, t < c.length ∧ descend a cur (c.take t) = some i ∧ a.get i = .free := by
  induction c generalizing cur k with
  | nil => simp [insertWalk]
  | cons b bs ih =>
    rw [insertWalk]
    cases hc : child a cur b with
    | nil => exact ⟨0, rfl, by simp, by simp, by simp, by simpa using hc⟩
    | structural =>
      obtain ⟨sym, hs⟩ := child_eq_structural.mp hc
      exact ⟨0, cur, sym, rfl, by simp, by simp, hs⟩
    | free => exact ⟨0, cur, by simp, by simp, child_eq_free.mp hc⟩
    | node nxt =>
      have step : ∀ t i, descend a nxt (bs.take t) = some i → descend a cur ((b :: bs).take (t + 1)) = some i :=
        fun t i h => by rw [List.take_succ_cons]; exact descend_cons.mpr ⟨nxt, hc, h⟩
      have := ih nxt (k + 1)
      dsimp only
      split at this <;> rename_i heq
      · obtain ⟨t, i, sym, h1, h2, h3, h4⟩ := this
        exact ⟨t + 1, i, sym, by omega, by simp; omega, step t i h3, h4⟩
      · exact descend_cons.mpr ⟨nxt, hc, this⟩
      · obtain ⟨t, h1, h2, h3, h4, h5⟩ := this
        exact ⟨t + 1, by omega, by simp; omega, by simpa using h3, step t _ h4, h5⟩
      · obtain ⟨t, i, h2, h3, h4⟩ := this
        exact ⟨t + 1, i, by simp; omega, step t i h3, h4⟩

/-- The walk along a path that reaches a Leaf with bits left ends there (R133). -/
theorem insertWalk_leafAt {a : Arena} {c : Code} {cur i : NodeIdx} {k t : Nat} {sym : Byte}
    (ht : t < c.length) (hd : descend a cur (c.take t) = some i) (hl : a.get i = .leaf sym) :
    insertWalk a c cur k = .leafAt (k + t) := by
  induction c generalizing cur k t with
  | nil => simp at ht
  | cons b bs ih =>
    rw [insertWalk]
    cases t with
    | zero =>
      simp only [List.take_zero, descend_nil, Option.some.injEq] at hd
      rw [child_eq_structural.mpr ⟨sym, hd ▸ hl⟩]; rfl
    | succ t =>
      rw [List.take_succ_cons] at hd
      obtain ⟨nxt, hc, hd⟩ := descend_cons.mp hd
      rw [hc]
      simp only [ih (by simpa using ht) hd]
      congr 1; omega

/-- The walk along a code whose whole path exists ends at its node (R134, R135). -/
theorem insertWalk_ends {a : Arena} {c : Code} {cur i : NodeIdx} {k : Nat}
    (hd : descend a cur c = some i) : insertWalk a c cur k = .ends i := by
  induction c generalizing cur k with
  | nil => simpa [insertWalk] using hd
  | cons b bs ih =>
    obtain ⟨nxt, hc, hd⟩ := descend_cons.mp hd
    rw [insertWalk, hc]
    exact ih hd

/-- The walk along a code whose path breaks at depth t ends at that gap (R136). -/
theorem insertWalk_gap {a : Arena} {c : Code} {cur i : NodeIdx} {k t : Nat}
    (ht : t < c.length) (hd : descend a cur (c.take t) = some i) (hg : child a i (c.getD t false) = .nil) :
    insertWalk a c cur k = .gap i (k + t) (c.drop t) := by
  induction c generalizing cur k t with
  | nil => simp at ht
  | cons b bs ih =>
    rw [insertWalk]
    cases t with
    | zero =>
      simp only [List.take_zero, descend_nil, Option.some.injEq] at hd
      subst hd
      simp only [List.getD_cons_zero] at hg
      rw [hg]; rfl
    | succ t =>
      rw [List.take_succ_cons] at hd
      obtain ⟨nxt, hc, hd⟩ := descend_cons.mp hd
      rw [hc]
      simp only [List.getD_cons_succ] at hg
      simp only [ih (by simpa using ht) hd hg, List.drop_succ_cons]
      congr 1; omega

/-! ### Leaves below a node -/

/-- Below every node but a childless root there is a leaf (R47 item 3). -/
theorem leaf_below {s : State} (h : TreeOk s) (i : NodeIdx) (hi : s.arena.get i ≠ .free)
    (hb : s.arena.get i ≠ .internal none none) :
    ∃ c j sym, descend s.arena i c = some j ∧ s.arena.get j = .leaf sym := by
  induction hm : Config.nodeCap - i.val using Nat.strong_induction_on generalizing i with
  | _ m ih =>
    cases hn : s.arena.get i with
    | free => exact absurd hn hi
    | leaf sym => exact ⟨[], i, sym, rfl, hn⟩
    | internal l r =>
      obtain ⟨b, j, hc⟩ : ∃ b j, child s.arena i b = .node j := by
        cases hl : l with
        | some j => exact ⟨false, j, child_eq_node.mpr ⟨l, r, hn, by simpa using hl⟩⟩
        | none =>
          cases hr : r with
          | some j => exact ⟨true, j, child_eq_node.mpr ⟨l, r, hn, by simpa using hr⟩⟩
          | none => subst hl hr; exact absurd hn hb
      obtain ⟨hlt, hjn⟩ := h.childAbove _ _ _ hc
      have hj0 : j ≠ 0 := fun e => by subst e; simp at hlt
      have hlt' : i.val < j.val := hlt
      obtain ⟨c, k, sym, hd, hk⟩ := ih (Config.nodeCap - j.val) (by omega) j
        ((h.allocated j).mpr hjn) (fun e => hj0 (h.hasChild j e)) rfl
      exact ⟨b :: c, k, sym, descend_cons.mpr ⟨j, hc, hd⟩, hk⟩

/-! ### The tree after an insert -/

/-- The tree after a path is grown below its gap: a tree still, with the new code besides the codes it had (R137). -/
theorem treeOk_of_grown {s t : State} {sym : Byte} {c : Code} {p : NodeIdx} {k : Nat}
    (h : TreeOk s) (hlen : c.length ≤ Config.maxCodeLen) (hk : k < c.length)
    (hd : descend s.arena 0 (c.take k) = some p) (hg : child s.arena p ((c.drop k).headD false) = .nil)
    (hcap : s.nodeCount + (c.drop k).length ≤ Config.nodeCap)
    (hnew : s.leafmap.get (symIdx sym) = false)
    (ha : t.arena = growPath s.arena sym (c.drop k) p s.nodeCount)
    (hn : t.nodeCount = s.nodeCount + (c.drop k).length)
    (hm : t.leafmap = s.leafmap.set (symIdx sym).val true (symIdx sym).isLt) :
    TreeOk t ∧ ∀ sym' c', codeIs t.arena sym' c' ↔ codeIs s.arena sym' c' ∨ (sym' = sym ∧ c' = c) := by
  have hne : c.drop k ≠ [] := by simp; omega
  have g := growPath_grown (sym := sym) h.shape hd hne hg hcap
  rw [← ha] at g
  have hsh := g.shape
  rw [← hn] at hsh
  have hlenD : (c.drop k).length = c.length - k := by simp
  have hnoleaf : ∀ i, s.arena.get i ≠ .leaf sym := fun i hi => by
    have := (h.leafMarked sym).mpr ⟨i, hi⟩
    rw [hnew] at this; exact absurd this (by simp)
  have hlast : ∃ i : NodeIdx, i.val + 1 = s.nodeCount + (c.drop k).length :=
    ⟨⟨s.nodeCount + (c.drop k).length - 1, by omega⟩, by simp; omega⟩
  have hget : ∀ sy : Byte, t.leafmap.get (symIdx sy) = true ↔ sy = sym ∨ s.leafmap.get (symIdx sy) = true := by
    intro sy
    rw [hm]
    simp only [Vector.get_eq_getElem, Vector.getElem_set]
    have : (symIdx sym).val = (symIdx sy).val ↔ sy = sym := by
      simp only [symIdx]
      exact ⟨fun e => (BitVec.eq_of_toNat_eq e).symm, fun e => by rw [e]⟩
    by_cases e : sy = sym
    · simp [e]
    · rw [if_neg (fun e' => e (this.mp e'))]; simp [e]
  have hfreeNew : ∀ i : NodeIdx, s.nodeCount ≤ i.val → s.arena.get i = .free := fun i hi => by
    have := h.allocated i
    by_contra hcon
    have := this.mp hcon
    omega
  refine ⟨⟨hsh.rootMade, by omega, hsh.allocated, hsh.childAbove, hsh.oneParent, hsh.hasParent, ?_, ?_, ?_, ?_⟩, ?_⟩
  · intro i hi
    exact h.hasChild i (g.bare i hi)
  · intro sy
    rw [hget, h.leafMarked]
    constructor
    · rintro (rfl | ⟨i, hi⟩)
      · obtain ⟨i, hi⟩ := hlast
        exact ⟨i, (g.leaves i sy).mpr (.inr ⟨rfl, hi⟩)⟩
      · exact ⟨i, (g.leaves i sy).mpr (.inl hi)⟩
    · rintro ⟨i, hi⟩
      rcases (g.leaves i sy).mp hi with hi | ⟨rfl, -⟩
      · exact .inr ⟨i, hi⟩
      · exact .inl rfl
  · intro sy i j hi hj
    rcases (g.leaves i sy).mp hi with hi | ⟨rfl, hi⟩ <;> rcases (g.leaves j sy).mp hj with hj | ⟨e, hj⟩
    · exact h.leafUnique sy i j hi hj
    · subst e; exact absurd hi (hnoleaf i)
    · exact absurd hj (hnoleaf j)
    · exact Fin.ext (by omega)
  · intro c' i hc'
    rcases (g.paths c' i).mp hc' with hc' | ⟨u, hu, rfl, -⟩
    · exact h.depthLe c' i hc'
    · simp only [List.length_append, List.length_take, List.length_drop]
      omega
  · intro sym' c'
    constructor
    · rintro ⟨i, hi, hl⟩
      rcases (g.paths c' i).mp hi with hi' | ⟨u, hu, rfl, hiu⟩
      · rcases (g.leaves i sym').mp hl with hl' | ⟨rfl, hl'⟩
        · exact .inl ⟨i, hi', hl'⟩
        · exfalso
          have hlt := descend_lt (i := 0) h.shape (show (0 : NodeIdx).val < s.nodeCount from h.countPos) hi'
          simp only [hlenD] at hl'
          omega
      · rcases (g.leaves i sym').mp hl with hl' | ⟨rfl, hl'⟩
        · rw [hfreeNew i (by omega)] at hl'; exact absurd hl' (by simp)
        · refine .inr ⟨rfl, ?_⟩
          rw [show u + 1 = (c.drop k).length by omega, List.take_length, List.take_append_drop]
    · rintro (⟨i, hi, hl⟩ | ⟨rfl, rfl⟩)
      · exact ⟨i, (g.paths _ _).mpr (.inl hi), (g.leaves _ _).mpr (.inl hl)⟩
      · obtain ⟨i, hi⟩ := hlast
        refine ⟨i, (g.paths _ _).mpr (.inr ⟨(c'.drop k).length - 1, by omega, ?_, by omega⟩),
          (g.leaves _ _).mpr (.inr ⟨rfl, hi⟩)⟩
        rw [show (c'.drop k).length - 1 + 1 = (c'.drop k).length by omega, List.take_length, List.take_append_drop]

/-- A childless root means the empty tree: one node, no leaf (R137, R47 item 3). -/
theorem empty_of_bareRoot {s : State} (h : TreeOk s) (h0 : s.arena.get 0 = .internal none none)
    (i : NodeIdx) : s.arena.get i ≠ .free → i = 0 := by
  intro hi
  obtain ⟨c, hc⟩ := path_exists h.shape i hi
  cases c with
  | nil => simpa using hc.symm
  | cons b c =>
    obtain ⟨k, hk, -⟩ := descend_cons.mp hc
    obtain ⟨l, r, hlr, hs⟩ := child_eq_node.mp hk
    rw [h0] at hlr
    simp only [Node.internal.injEq] at hlr
    obtain ⟨rfl, rfl⟩ := hlr
    cases b <;> simp at hs

/-- The tree after the empty code is inserted into the empty tree: a root-is-leaf tree (R137, R140 case 1). -/
theorem treeOk_of_rootLeaf {s t : State} {sym : Byte} (h : TreeOk s)
    (h0 : s.arena.get 0 = .internal none none)
    (ha : t.arena = s.arena.set (0 : NodeIdx).val (.leaf sym) (0 : NodeIdx).isLt)
    (hn : t.nodeCount = s.nodeCount)
    (hm : t.leafmap = s.leafmap.set (symIdx sym).val true (symIdx sym).isLt) :
    TreeOk t ∧ ∀ sym' c', codeIs t.arena sym' c' ↔ codeIs s.arena sym' c' ∨ (sym' = sym ∧ c' = []) := by
  have hget : ∀ i, t.arena.get i = if 0 = i then .leaf sym else s.arena.get i := fun i => by
    rw [ha]; exact arena_get_set _ _ _ _
  have hother : ∀ i, i ≠ 0 → t.arena.get i = .free := fun i hi => by
    rw [hget, if_neg (Ne.symm hi)]
    by_contra hcon
    exact hi (empty_of_bareRoot h h0 i hcon)
  have hroot : t.arena.get 0 = .leaf sym := by rw [hget]; simp
  have hchild : ∀ i j b, child t.arena i b ≠ .node j := fun i j b hc => by
    obtain ⟨l, r, hlr, -⟩ := child_eq_node.mp hc
    by_cases e : i = 0
    · subst e; rw [hroot] at hlr; simp at hlr
    · rw [hother i e] at hlr; simp at hlr
  have hsdesc : ∀ c i, descend t.arena 0 c = some i → c = [] ∧ i = 0 := fun c i hc => leaf_descend hroot hc
  have hsym : ∀ sy i, s.arena.get i ≠ .leaf sy := fun sy i hi => by
    have : i = 0 := empty_of_bareRoot h h0 i (by simp [hi])
    subst this; rw [h0] at hi; simp at hi
  have hmark : ∀ sy : Byte, t.leafmap.get (symIdx sy) = true ↔ sy = sym := by
    intro sy
    have hfalse : s.leafmap.get (symIdx sy) ≠ true := fun e => by
      obtain ⟨i, hi⟩ := (h.leafMarked sy).mp e
      exact hsym sy i hi
    rw [hm]
    simp only [Vector.get_eq_getElem, Vector.getElem_set] at hfalse ⊢
    have : (symIdx sym).val = (symIdx sy).val ↔ sy = sym := by
      simp only [symIdx]
      exact ⟨fun e => (BitVec.eq_of_toNat_eq e).symm, fun e => by rw [e]⟩
    by_cases e : sy = sym
    · simp [e]
    · rw [if_neg (fun e' => e (this.mp e'))]; simp [e, hfalse]
  refine ⟨⟨by rw [hn]; exact h.countPos, by rw [hn]; exact h.countLe, ?_, ?_, ?_, ?_, ?_, ?_, ?_, ?_⟩, ?_⟩
  · intro i
    rw [hn, ← h.allocated i]
    by_cases e : i = 0
    · subst e; simp [hroot, h0]
    · rw [hget, if_neg (Ne.symm e)]
  · intro i j b hc; exact absurd hc (hchild i j b)
  · intro i i' j b b' hc; exact absurd hc (hchild i j b)
  · intro j hj hf; exact absurd (hother j hj) hf
  · intro i hi
    by_contra e
    rw [hother i e] at hi; simp at hi
  · intro sy
    rw [hmark]
    constructor
    · rintro rfl; exact ⟨0, hroot⟩
    · rintro ⟨i, hi⟩
      by_cases e : i = 0
      · subst e; rw [hroot] at hi; simpa using hi.symm
      · rw [hother i e] at hi; simp at hi
  · intro sy i j hi hj
    have hz : ∀ i, t.arena.get i = .leaf sy → i = 0 := fun i hi => by
      by_contra e
      rw [hother i e] at hi; simp at hi
    rw [hz i hi, hz j hj]
  · intro c i hc
    rw [(hsdesc c i hc).1]; simp
  · intro sym' c'
    constructor
    · rintro ⟨i, hi, hl⟩
      obtain ⟨rfl, rfl⟩ := hsdesc c' i hi
      rw [hroot] at hl
      exact .inr ⟨by simpa using hl.symm, rfl⟩
    · rintro (⟨i, hi, hl⟩ | ⟨rfl, rfl⟩)
      · exact absurd hl (hsym sym' i)
      · exact ⟨0, rfl, hroot⟩

/-- The arena of the empty tree, entry by entry (R32). -/
theorem emptyArena_get (i : NodeIdx) : emptyArena.get i = if i = 0 then .internal none none else .free := by
  have : emptyArena = Vector.set (Vector.replicate Config.nodeCap Node.free) (0 : NodeIdx).val
    (.internal none none) (0 : NodeIdx).isLt := rfl
  rw [this, arena_get_set]
  by_cases e : i = 0
  · simp [e]
  · rw [if_neg (Ne.symm e), if_neg e]; simp [Vector.get_eq_getElem]

/-- The empty tree is a tree (R32, R130). -/
theorem treeOk_empty {t : State} (ha : t.arena = emptyArena) (hn : t.nodeCount = 1)
    (hm : t.leafmap = Vector.replicate Config.nsym false) : TreeOk t := by
  have hc : ∀ i j b, child t.arena i b ≠ .node j := fun i j b hc => by
    obtain ⟨l, r, hlr, hs⟩ := child_eq_node.mp hc
    rw [ha, emptyArena_get] at hlr
    split at hlr
    · simp only [Node.internal.injEq] at hlr
      obtain ⟨rfl, rfl⟩ := hlr
      cases b <;> simp at hs
    · simp at hlr
  have hl : ∀ i sym, t.arena.get i ≠ .leaf sym := fun i sym h => by
    rw [ha, emptyArena_get] at h
    split at h <;> simp at h
  refine ⟨by omega, by rw [hn]; decide, ?_, ?_, ?_, ?_, ?_, ?_, ?_, ?_⟩
  · intro i
    rw [ha, emptyArena_get, hn]
    by_cases e : i = 0
    · simp [e]
    · have : i.val ≠ 0 := fun e' => e (Fin.ext e')
      simp [e]
  · intro i j b h; exact absurd h (hc i j b)
  · intro i i' j b b' h; exact absurd h (hc i j b)
  · intro j hj hf
    rw [ha, emptyArena_get, if_neg hj] at hf; simp at hf
  · intro i hi
    by_contra e
    rw [ha, emptyArena_get, if_neg e] at hi; simp at hi
  · intro sym
    rw [hm]
    constructor
    · intro h; simp [Vector.get_eq_getElem] at h
    · rintro ⟨i, hi⟩; exact absurd hi (hl i sym)
  · intro sym i j hi; exact absurd hi (hl i sym)
  · intro c i h
    cases c with
    | nil => simp
    | cons b c =>
      obtain ⟨k, hk, -⟩ := descend_cons.mp h
      exact absurd hk (hc _ _ _)

end Sys2Proof.Machine
end

