-- ==== Sys2Proof/Laws/PerInstr.lean ====
section
/-! SUPPORT. The family of statements about each instruction as syntax: its words and its row of
spec/opcode_table.json. -/

namespace Sys2Proof.Laws.TableRow

/-- The `mask` of an instruction's row. -/
def rowMask : Instr → Word
  | .nop => 0xFE0000FF
  | .treeClear => 0xFE0000FF
  | .treeInsert _ _ => 0xFE0000FF
  | .walk _ => 0xFE0000FF
  | .lookup _ => 0xFE0000FF
  | .encode => 0xFE0000FF
  | .flush => 0xFE0000FF
  | .decode => 0xFE0000FF
  | .clearErr => 0xFE0000FF
  | .encReset => 0xFE0000FF
  | .softReset => 0x00000001
  | .abort => 0x00000003

/-- The `match` of an instruction's row; within a format it names the row. -/
def rowMatch : Instr → Word
  | .nop => 0x00
  | .treeClear => 0x01
  | .treeInsert _ _ => 0x02
  | .walk _ => 0x03
  | .lookup _ => 0x04
  | .encode => 0x05
  | .flush => 0x06
  | .decode => 0x07
  | .clearErr => 0x08
  | .encReset => 0x09
  | .softReset => 0x01
  | .abort => 0x02

/-- An instruction's word matches its row, and every word that matches the row decodes to an instruction of it. -/
def Statement (i : Instr) : Prop :=
  encode i &&& rowMask i = rowMatch i ∧
  ∀ w : Word, w &&& rowMask i = rowMatch i →
    ∃ j, decodeWord i.format w = .ok j ∧ j.format = i.format ∧ rowMatch j = rowMatch i

/-- The mask of the CMD rows keeps OPCODE and RSVD. -/
theorem cmdMask_bit (k : Nat) :
    (0xFE0000FF : Word).getLsbD k = decide (k < 8 ∨ (25 ≤ k ∧ k < 32)) := by
  by_cases h : k < 32
  · interval_cases k <;> rfl
  · rw [BitVec.getLsbD_of_ge _ _ (by omega)]
    simp; omega

theorem encode_masked (op sym len : BitVec 8) (emit : Bool) :
    cmdWord op sym len emit &&& 0xFE0000FF = op.setWidth 32 := by
  apply BitVec.eq_of_getLsbD_eq
  intro k hk
  rw [BitVec.getLsbD_and, cmdMask_bit, cmdWord_bit, BitVec.getLsbD_setWidth]
  by_cases h8 : k < 8
  · simp [h8, hk]
  by_cases h25 : 25 ≤ k
  · rw [BitVec.getLsbD_of_ge op k (by omega)]
    simp [h8, show ¬ k < 16 by omega, show ¬ k < 24 by omega, show ¬ k < 25 by omega]
  · rw [BitVec.getLsbD_of_ge op k (by omega)]
    simp [h8, h25]

/-- A word that matches a CMD row has the row's OPCODE, and RSVD = 0. -/
theorem masked_fields {w : Word} {op : BitVec 8} (h : w &&& 0xFE0000FF = op.setWidth 32) :
    fieldOpcode w = op ∧ fieldRsvd w = 0 := by
  have hb : ∀ k, k < 8 ∨ (25 ≤ k ∧ k < 32) → w.getLsbD k = (op.setWidth 32).getLsbD k := by
    intro k hk
    rw [← h, BitVec.getLsbD_and, cmdMask_bit]
    simp [hk]
  constructor
  · apply BitVec.eq_of_getLsbD_eq
    intro i hi
    unfold fieldOpcode
    rw [BitVec.getLsbD_extractLsb', hb _ (.inl (by omega)), BitVec.getLsbD_setWidth]
    simp [hi, show i < 32 by omega]
  · apply BitVec.eq_of_getLsbD_eq
    intro i hi
    unfold fieldRsvd
    rw [BitVec.getLsbD_extractLsb', hb _ (.inr ⟨by omega, by omega⟩), BitVec.getLsbD_setWidth]
    rw [BitVec.getLsbD_of_ge op _ (by omega)]
    simp

/-- Decoding a word of a CMD row whose opcode number is known. -/
theorem decode_row {w : Word} {op : BitVec 8} (h : w &&& 0xFE0000FF = op.setWidth 32) :
    decodeCmd w = decodeOpcode w ∧ (fieldOpcode w).toNat = op.toNat := by
  obtain ⟨h1, h2⟩ := masked_fields h
  exact ⟨if_pos h2, by rw [h1]⟩

theorem nop : Statement .nop := by
  refine ⟨encode_masked _ _ _ _, fun w h => ⟨.nop, ?_, rfl, rfl⟩⟩
  obtain ⟨h1, h2⟩ := decode_row (op := 0x00) h
  simp only [decodeWord, h1]; unfold decodeOpcode; rw [h2]; rfl

theorem treeClear : Statement .treeClear := by
  refine ⟨encode_masked _ _ _ _, fun w h => ⟨.treeClear, ?_, rfl, rfl⟩⟩
  obtain ⟨h1, h2⟩ := decode_row (op := 0x01) h
  simp only [decodeWord, h1]; unfold decodeOpcode; rw [h2]; rfl

theorem treeInsert (sym : Byte) (len : Nat) : Statement (.treeInsert sym len) := by
  refine ⟨encode_masked _ _ _ _, fun w h => ⟨.treeInsert (fieldSym w) (fieldLen w).toNat, ?_, rfl, rfl⟩⟩
  obtain ⟨h1, h2⟩ := decode_row (op := 0x02) h
  simp only [decodeWord, h1]; unfold decodeOpcode; rw [h2]; rfl

theorem walk (emit : Bool) : Statement (.walk emit) := by
  refine ⟨encode_masked _ _ _ _, fun w h => ⟨.walk (fieldEmit w), ?_, rfl, rfl⟩⟩
  obtain ⟨h1, h2⟩ := decode_row (op := 0x03) h
  simp only [decodeWord, h1]; unfold decodeOpcode; rw [h2]; rfl

theorem lookup (sym : Byte) : Statement (.lookup sym) := by
  refine ⟨encode_masked _ _ _ _, fun w h => ⟨.lookup (fieldSym w), ?_, rfl, rfl⟩⟩
  obtain ⟨h1, h2⟩ := decode_row (op := 0x04) h
  simp only [decodeWord, h1]; unfold decodeOpcode; rw [h2]; rfl

theorem encode : Statement .encode := by
  refine ⟨encode_masked _ _ _ _, fun w h => ⟨.encode, ?_, rfl, rfl⟩⟩
  obtain ⟨h1, h2⟩ := decode_row (op := 0x05) h
  simp only [decodeWord, h1]; unfold decodeOpcode; rw [h2]; rfl

theorem flush : Statement .flush := by
  refine ⟨encode_masked _ _ _ _, fun w h => ⟨.flush, ?_, rfl, rfl⟩⟩
  obtain ⟨h1, h2⟩ := decode_row (op := 0x06) h
  simp only [decodeWord, h1]; unfold decodeOpcode; rw [h2]; rfl

theorem decode : Statement .decode := by
  refine ⟨encode_masked _ _ _ _, fun w h => ⟨.decode, ?_, rfl, rfl⟩⟩
  obtain ⟨h1, h2⟩ := decode_row (op := 0x07) h
  simp only [decodeWord, h1]; unfold decodeOpcode; rw [h2]; rfl

theorem clearErr : Statement .clearErr := by
  refine ⟨encode_masked _ _ _ _, fun w h => ⟨.clearErr, ?_, rfl, rfl⟩⟩
  obtain ⟨h1, h2⟩ := decode_row (op := 0x08) h
  simp only [decodeWord, h1]; unfold decodeOpcode; rw [h2]; rfl

theorem encReset : Statement .encReset := by
  refine ⟨encode_masked _ _ _ _, fun w h => ⟨.encReset, ?_, rfl, rfl⟩⟩
  obtain ⟨h1, h2⟩ := decode_row (op := 0x09) h
  simp only [decodeWord, h1]; unfold decodeOpcode; rw [h2]; rfl

/-- The bits 0 and 1 a CTRL row fixes. -/
theorem ctrl_bit {w m v : Word} {k : Nat} (h : w &&& m = v) (hm : m.getLsbD k = true) :
    w.getLsbD k = v.getLsbD k := by
  rw [← h, BitVec.getLsbD_and, hm, Bool.and_true]

theorem softReset : Statement .softReset := by
  refine ⟨by decide, fun w h => ⟨.softReset, ?_, rfl, rfl⟩⟩
  have h0 := ctrl_bit (k := 0) h rfl
  simp only [Instr.format, decodeWord, decodeCtrl]
  rw [h0]; rfl

theorem abort : Statement .abort := by
  refine ⟨by decide, fun w h => ⟨.abort, ?_, rfl, rfl⟩⟩
  have h0 := ctrl_bit (k := 0) h rfl
  have h1 := ctrl_bit (k := 1) h rfl
  simp only [Instr.format, decodeWord, decodeCtrl]
  rw [h0, h1]; rfl

end Sys2Proof.Laws.TableRow
end

