-- ==== Sys2Proof/Laws/Walk.lean ====
section
/-! SUPPORT. WALK's leaf enumeration and the table it fills (42_walk_lookup R151). -/

namespace Sys2Proof.Machine

/-- The enumeration of R151 answers, in a tree without Free entries below `i` and not deeper than `d`, and lists
exactly the leaves below `i`, each with its path. -/
theorem visit_ok {a : Arena} {d : Nat} {i : NodeIdx} {p : Code}
    (hd : ∀ c j, descend a i c = some j → c.length < d) (hf : ∀ c j, descend a i c = some j → a.get j ≠ .free) :
    ∃ rs, visit a d i p = .ok rs ∧
      ∀ r : Record, r ∈ rs ↔ ∃ c j, r.code = p ++ c ∧ descend a i c = some j ∧ a.get j = .leaf r.sym := by
  induction d generalizing i p with
  | zero => exact absurd (hd [] i rfl) (by simp)
  | succ d ih =>
    rw [visit]
    cases hn : a.get i with
    | free => exact absurd hn (hf [] i rfl)
    | leaf sym =>
      refine ⟨_, rfl, fun r => ?_⟩
      simp only [List.mem_singleton]
      constructor
      · rintro rfl; exact ⟨[], i, by simp, rfl, hn⟩
      · rintro ⟨c, j, h1, h2, h3⟩
        obtain ⟨rfl, rfl⟩ := leaf_descend hn h2
        rw [hn] at h3
        simp only [Node.leaf.injEq] at h3
        cases r; simp_all
    | internal l r =>
      have side : ∀ (n : Option NodeIdx) (b : Bool), (if b then r else l) = n →
          ∃ rs, visitSide (visit a d) n (p ++ [b]) = .ok rs ∧
            ∀ r : Record, r ∈ rs ↔
              ∃ c j, r.code = p ++ b :: c ∧ descend a i (b :: c) = some j ∧ a.get j = .leaf r.sym := by
        intro n b hb
        cases n with
        | none =>
          refine ⟨[], rfl, fun x => ?_⟩
          simp only [List.not_mem_nil, false_iff]
          rintro ⟨c, j, -, h2, -⟩
          obtain ⟨k, hk, -⟩ := descend_cons.mp h2
          rw [child_eq_nil.mpr ⟨l, r, hn, hb⟩] at hk
          simp at hk
        | some k =>
          have hc : child a i b = .node k := child_eq_node.mpr ⟨l, r, hn, hb⟩
          obtain ⟨rs, h1, h2⟩ := ih (i := k) (p := p ++ [b])
            (fun c j h => by have := hd (b :: c) j (descend_cons.mpr ⟨k, hc, h⟩); simpa using this)
            (fun c j h => hf (b :: c) j (descend_cons.mpr ⟨k, hc, h⟩))
          refine ⟨rs, h1, fun x => (h2 x).trans ?_⟩
          constructor
          · rintro ⟨c, j, h3, h4, h5⟩
            exact ⟨c, j, by simpa using h3, descend_cons.mpr ⟨k, hc, h4⟩, h5⟩
          · rintro ⟨c, j, h3, h4, h5⟩
            obtain ⟨k', hk', h4⟩ := descend_cons.mp h4
            rw [hc] at hk'
            simp only [Child.node.injEq] at hk'
            subst hk'
            exact ⟨c, j, by simpa using h3, h4, h5⟩
      obtain ⟨ls, hl1, hl2⟩ := side l false (by simp)
      obtain ⟨rs, hr1, hr2⟩ := side r true (by simp)
      refine ⟨ls ++ rs, by dsimp only; rw [hl1, hr1]; rfl, fun x => ?_⟩
      rw [List.mem_append, hl2, hr2]
      constructor
      · rintro (⟨c, j, h⟩ | ⟨c, j, h⟩)
        · exact ⟨_, j, h⟩
        · exact ⟨_, j, h⟩
      · rintro ⟨c, j, h1, h2, h3⟩
        cases c with
        | nil =>
          simp only [descend_nil, Option.some.injEq] at h2
          subst h2; rw [hn] at h3; simp at h3
        | cons b c => cases b
                      · exact .inl ⟨c, j, h1, h2, h3⟩
                      · exact .inr ⟨c, j, h1, h2, h3⟩

/-- Nothing the root leads to is Free. -/
theorem descend_notFree {s : State} (h : TreeOk s) {c : Code} {j : NodeIdx} (hd : descend s.arena 0 c = some j) :
    s.arena.get j ≠ .free :=
  (h.allocated j).mpr (descend_lt (i := 0) h.shape (show (0 : NodeIdx).val < s.nodeCount from h.countPos) hd)

/-- WALK's enumeration of a tree answers the leaves with their codes (R151). -/
theorem treeLeaves_ok {s : State} (h : TreeOk s) :
    ∃ rs, treeLeaves s.arena = .ok rs ∧ ∀ r : Record, r ∈ rs ↔ codeIs s.arena r.sym r.code := by
  obtain ⟨rs, h1, h2⟩ := visit_ok (a := s.arena) (d := Config.maxCodeLen + 1) (i := 0) (p := [])
    (fun c j hc => by have := h.depthLe c j hc; omega) (fun c j hc => descend_notFree h hc)
  refine ⟨rs, h1, fun r => (h2 r).trans ?_⟩
  simp only [List.nil_append, codeIs]
  constructor
  · rintro ⟨c, j, rfl, h3, h4⟩; exact ⟨j, h3, h4⟩
  · rintro ⟨j, h3, h4⟩; exact ⟨_, j, rfl, h3, h4⟩

/-- A symbol has at most one code (R47 item 4, R122). -/
theorem code_unique {s : State} (h : TreeOk s) {sym : Byte} {c d : Code} (hc : codeIs s.arena sym c)
    (hd : codeIs s.arena sym d) : c = d := by
  obtain ⟨i, hi, hl⟩ := hc
  obtain ⟨j, hj, hm⟩ := hd
  have := h.leafUnique sym i j hl hm
  subst this
  exact path_unique h.shape hi hj

theorem symIdx_inj {a b : Byte} : (symIdx a).val = (symIdx b).val ↔ a = b :=
  ⟨fun e => BitVec.eq_of_toNat_eq e, fun e => by rw [e]⟩

/-- An entry of the table filled from `rs` over the table `t` (R151): the last record of the symbol, else t's entry. -/
theorem tableFill_get (rs : List Record) (t : Vector (Option Code) Config.nsym) (sym : Byte) (c : Code)
    (hu : ∀ r ∈ rs, ∀ r' ∈ rs, r.sym = r'.sym → r = r') :
    (rs.foldl (fun t r => t.set (symIdx r.sym).val (some r.code) (symIdx r.sym).isLt) t).get (symIdx sym) = some c ↔
      (⟨sym, c⟩ : Record) ∈ rs ∨ (t.get (symIdx sym) = some c ∧ ∀ r ∈ rs, r.sym ≠ sym) := by
  induction rs generalizing t with
  | nil => simp
  | cons r rs ih =>
    rw [List.foldl_cons, ih _ (fun x hx y hy => hu x (List.mem_cons_of_mem _ hx) y (List.mem_cons_of_mem _ hy))]
    have hg : Vector.get (Vector.set t (symIdx r.sym).val (some r.code) (symIdx r.sym).isLt) (symIdx sym) =
        if r.sym = sym then some r.code else t.get (symIdx sym) := by
      simp only [Vector.get_eq_getElem, Vector.getElem_set, symIdx_inj]
    rw [hg]
    constructor
    · rintro (h | ⟨h, hn⟩)
      · exact .inl (List.mem_cons_of_mem _ h)
      · split at h
        · rename_i e
          simp only [Option.some.injEq] at h
          refine .inl ?_
          rw [← e, ← h]; exact List.mem_cons_self
        · rename_i e
          refine .inr ⟨h, fun x hx => ?_⟩
          rcases List.mem_cons.mp hx with rfl | hx
          · exact e
          · exact hn x hx
    · rintro (h | ⟨h, hn⟩)
      · rcases List.mem_cons.mp h with h | h
        · by_cases hr : ∃ x ∈ rs, x.sym = sym
          · obtain ⟨x, hx, hxs⟩ := hr
            have := hu x (List.mem_cons_of_mem _ hx) r List.mem_cons_self (by rw [hxs, ← h])
            exact .inl (by rw [h, ← this]; exact hx)
          · refine .inr ⟨?_, fun x hx e => hr ⟨x, hx, e⟩⟩
            rw [← h]; simp
        · exact .inl h
      · refine .inr ⟨?_, fun x hx => hn x (List.mem_cons_of_mem _ hx)⟩
        rw [if_neg (hn r List.mem_cons_self)]; exact h

/-- The table WALK fills: entry c for symbol sym exactly when the leaf (sym, c) was listed (R151). -/
theorem tableOf_get (rs : List Record) (sym : Byte) (c : Code)
    (hu : ∀ r ∈ rs, ∀ r' ∈ rs, r.sym = r'.sym → r = r') :
    (tableOf rs).get (symIdx sym) = some c ↔ (⟨sym, c⟩ : Record) ∈ rs := by
  unfold tableOf
  rw [tableFill_get rs _ sym c hu]
  simp [Vector.get_eq_getElem]

/-- The table after WALK holds each symbol's code and nothing else (R151, R47 item 5). -/
theorem walkTable_get {s : State} (h : TreeOk s) {rs : List Record}
    (hrs : ∀ r : Record, r ∈ rs ↔ codeIs s.arena r.sym r.code) (sym : Byte) (c : Code) :
    (tableOf rs).get (symIdx sym) = some c ↔ codeIs s.arena sym c := by
  rw [tableOf_get rs sym c, hrs]
  intro r hr r' hr' e
  have h1 := (hrs r).mp hr
  have h2 := (hrs r').mp hr'
  rw [← e] at h2
  have := code_unique h h1 h2
  cases r; cases r'; simp_all

end Sys2Proof.Machine
end

