-- ==== Sys2Proof/Tests/Slice0.lean ====
section
/-! SUPPORT. The model's own tests, their expected results from spec/95_test_vectors.md and the rules it cites, and the
witnesses of the statements' hypotheses. -/

namespace Sys2Proof.Tests

open Sys2Proof Sys2Proof.Machine

/-! ### Small states -/

/-- A latched command whose code starts with the word given. -/
def cmd (w arg0 arg1 code0 : Word) : Latched :=
  { word := w, arg0 := arg0, arg1 := arg1, code := #v[code0, 0, 0, 0, 0, 0, 0, 0] }

/-- `s` with a command latched and not yet started. -/
def pend (L : Latched) (s : State) : State := { s with engine := .pending L }

/-- The next state, where there is one. -/
def next? (r : StepResult) : Option State :=
  match r with
  | .next t => some t
  | .fault _ => none
  | .refused _ => none

theorem pend_arena (L : Latched) (s : State) : (pend L s).arena = s.arena := rfl
theorem pend_nodeCount (L : Latched) (s : State) : (pend L s).nodeCount = s.nodeCount := rfl
theorem pend_leafmap (L : Latched) (s : State) : (pend L s).leafmap = s.leafmap := rfl

/-- A field of the next state. -/
def after {α : Type} (r : StepResult) (f : State → α) : Option α := (next? r).map f

/-- The first two inserts of V1: 97 -> "0", 98 -> "10". -/
def t3Two : State :=
  { State.reset with
    arena := (((emptyArena.set 0 (.internal (some 1) (some 2))).set 1 (.leaf 97)).set 2
      (.internal (some 3) none)).set 3 (.leaf 98)
    nodeCount := 4
    leafmap := (State.reset.leafmap.set 97 true).set 98 true }

/-- T3 (V1): 97 -> "0", 98 -> "10", 99 -> "11", the arena as V1 lists it. -/
def t3 : State :=
  { t3Two with
    arena := (t3Two.arena.set 2 (.internal (some 3) (some 4))).set 4 (.leaf 99)
    nodeCount := 5
    leafmap := t3Two.leafmap.set 99 true }

/-- T3 after `walk` (WL-2). -/
def t3Walked : State :=
  { t3 with
    clt := ((State.reset.clt.set 97 (some [false])).set 98 (some [true, false])).set 99 (some [true, true])
    cltValid := true }

/-- Leaf 65, the root-is-leaf tree of TB-1. -/
def leaf65 : State :=
  { State.reset with arena := emptyArena.set 0 (.leaf 65), leafmap := State.reset.leafmap.set 65 true }

/-- A state with an error recorded: CT-3. -/
def errored : State := { State.reset with err := true, errcode := .illegalCmd, errInfo := 0x0000000A }

/-! ### Well-formedness: the one check, and a term it refuses -/

theorem test_wf_len_max : (Instr.treeInsert 97 255).WellFormed = true := by decide
theorem test_wf_len_over : (Instr.treeInsert 97 256).WellFormed = false := by decide

/-! ### Decoding: words from 30_encoding R90 to R94 and ENC-1 to ENC-18 -/

theorem test_decode_nop : decodeCmd 0x00000000 = .ok .nop := by decide
theorem test_decode_treeClear : decodeCmd 0x00000001 = .ok .treeClear := by decide
theorem test_decode_treeInsert : decodeCmd 0x00280702 = .ok (.treeInsert 7 40) := by decide
theorem test_decode_treeInsert_ignores_emit : decodeCmd 0x01000002 = .ok (.treeInsert 0 0) := by decide
theorem test_decode_walk : decodeCmd 0x00000003 = .ok (.walk false) := by decide
theorem test_decode_walk_emit : decodeCmd 0x01000003 = .ok (.walk true) := by decide
theorem test_decode_lookup : decodeCmd 0x00006104 = .ok (.lookup 97) := by decide
theorem test_decode_encode : decodeCmd 0x00000005 = .ok .encode := by decide
theorem test_decode_flush : decodeCmd 0x00000006 = .ok .flush := by decide
theorem test_decode_decode : decodeCmd 0x00000007 = .ok .decode := by decide
theorem test_decode_clearErr : decodeCmd 0x00000008 = .ok .clearErr := by decide
theorem test_decode_encReset : decodeCmd 0x00000009 = .ok .encReset := by decide
theorem test_decode_softReset : decodeCtrl 0x00000001 = .ok .softReset := by decide
theorem test_decode_softReset_wins : decodeCtrl 0x00000003 = .ok .softReset := by decide
theorem test_decode_abort : decodeCtrl 0x00000002 = .ok .abort := by decide
theorem test_decode_ctrl_ignores_high_bits : decodeCtrl 0xFFFFFFFC = .error .noAction := by decide
theorem test_decode_reserved : decodeCmd 0x02000000 = .error .reservedBits := by decide
theorem test_decode_opcode_over : decodeCmd 0x0000000A = .error .opcode := by decide
theorem test_decode_lanes : decodeLanes .cmd32 [0x02, 0x61, 0x01, 0x00] = some (.ok (.treeInsert 97 1)) := by decide

/-- The word of each constructor, from the opcode map (R91) with the unused fields 0 (R103). -/
theorem test_encode_words :
    encode (.treeInsert 98 4) = 0x00046202 ∧ encode (.walk true) = 0x01000003 ∧ encode (.lookup 97) = 0x00006104 ∧
    encode .decode = 0x00000007 ∧ encode .encReset = 0x00000009 ∧ encode .abort = 0x00000002 := by decide

theorem test_table_ctrl_row : decodeTableWord 8 0x01 = some .softReset := by decide
theorem test_table_cmd_row : decodeTableWord 32 0x01 = some .treeClear := by decide

/-! ### One step per instruction -/

/-- CT-4 after the step: OPCODE 0 is taken while ERR = 1, and NOP changes nothing. -/
theorem test_nop : after (step (pend (cmd 0x00000000 0 0 0) errored)) (fun t => (t.engine, t.errcode, t.errInfo)) =
      some (.idle, .illegalCmd, 0x0000000A) := by decide +kernel

/-- TB-15: T3, then tree_clear. -/
theorem test_treeClear :
    after (step (pend (cmd 0x00000001 0 0 0) t3)) (fun t => (t.nodeCount, t.arena.get 4, t.leafmap.get 99, statusWord t)) =
      some (1, .free, false, 0x00000060) := by decide

/-- V1, third row: (99,"11") makes node 2 Internal(3, 4) and node 4 Leaf(99). -/
theorem test_treeInsert :
    after (step (pend (cmd 0x00026302 0 0 0xC0000000) t3Two))
      (fun t => (t.nodeCount, t.arena.get 2, t.arena.get 4)) =
      some (5, .internal (some 3) (some 4), .leaf 99) := by decide

/-- TB-6 over T3: (1,"01") passes the leaf of "0" at depth 1. -/
theorem test_treeInsert_prefix :
    after (step (pend (cmd 0x00020102 0 0 0x40000000) t3)) (fun t => (t.nodeCount, t.errcode, t.errInfo)) =
      some (5, .formatPrefix, 1) := by decide

/-- V1: `walk emit` lists 97, 98, 99 with their codes. -/
theorem test_walk_emit :
    after (step (pend (cmd 0x01000003 0 0 0) t3)) (fun t => t.engine) =
      some (.walk (cmd 0x01000003 0 0 0) [⟨97, [false]⟩, ⟨98, [true, false]⟩, ⟨99, [true, true]⟩]) := by decide

/-- WL-6: the largest record, 34 bytes. -/
theorem test_record_bytes :
    recordBytes ⟨7, List.replicate 255 true⟩ = 0x07 :: 0xFF :: (List.replicate 31 0xFF ++ [0xFE]) := by decide +kernel

/-- V1, second record: 62 02 80. -/
theorem test_walk_beat :
    after (step { t3Walked with engine := .walk (cmd 0x01000003 0 0 0) [⟨98, [true, false]⟩, ⟨99, [true, true]⟩] })
      (fun t => (t.outQ, t.engine)) =
      some ([0x62, 0x02, 0x80], .walk (cmd 0x01000003 0 0 0) [⟨99, [true, true]⟩]) := by decide

/-- WL-10. -/
theorem test_lookup :
    after (step (pend (cmd 0x00006304 0 0 0) t3Walked)) (fun t => (t.result, t.codeBuf.get 0, t.codeBuf.get 1)) =
      some (0x80000002, 0xC0000000, 0) := by decide +kernel

/-- WL-21. -/
theorem test_lookup_stale :
    after (step (pend (cmd 0x00006104 0 0 0) t3)) (fun t => (statusWord t, t.errInfo)) =
      some (0x00000962, 0x00006104) := by decide

/-- EN-15: the start step of `encode 3` with a stale table. -/
theorem test_encode_stale :
    after (step (pend (cmd 0x00000005 3 0 0) t3)) (fun t => (t.errcode, t.errInfo, t.engine)) =
      some (.notReady, 0x00000005, .drain (cmd 0x00000005 3 0 0) 3) := by decide

/-- EN-17, beat 1: the bit count would pass 2^32 - 1. -/
theorem test_encode_overflow :
    after (step { t3Walked with
        engine := .enc (cmd 0x00000005 3 0 0) 2 1, inQ := [0x62, 0x61], encBitcount := 0xFFFFFFFF, packCnt := 7 })
      (fun t => (t.errcode, t.errInfo, t.encBitcount, t.inQ)) =
      some (.bitcountOverflow, 1, 0xFFFFFFFF, [0x61]) := by decide

/-- EN-10, the third beat: "1100" "100" held, "0" completes 98. -/
theorem test_encode_beat :
    after (step { t3Walked with
        engine := .enc (cmd 0x00000005 4 0 0) 2 2, inQ := [0x61, 0x65], encBitcount := 7, packAcc := 0x98, packCnt := 7 })
      (fun t => (t.outQ, t.packAcc, t.packCnt, t.encBitcount)) =
      some ([0x98], 0, 0, 8) := by decide

/-- EN-2: FLUSH after "abca". -/
theorem test_flush :
    after (step (pend (cmd 0x00000006 0 0 0) { t3Walked with packAcc := 0x58, packCnt := 6, encBitcount := 6 }))
      (fun t => (t.outQ, t.encBitcount, t.encLastbits, t.packCnt)) =
      some ([0x58], 0, 6, 0) := by decide

/-- EN-4: FLUSH with nothing held. -/
theorem test_flush_empty :
    after (step (pend (cmd 0x00000006 0 0 0) { t3Walked with encBitcount := 16 }))
      (fun t => (t.outQ, t.encBitcount, t.encLastbits)) = some ([], 0, 16) := by decide

/-- DEC-1: one byte, four symbols. -/
theorem test_decode_beat :
    after (step { t3 with engine := .dec (cmd 0x00000007 6 0 0) 6 0 0 0, inQ := [0x58] })
      (fun t => (t.outQ, t.decSymcount, t.engine, t.err)) =
      some ([0x61, 0x62, 0x63, 0x61], 4, .idle, false) := by decide

/-- DEC-15: bits given for a root-is-leaf tree. -/
theorem test_decode_root_leaf :
    after (step (pend (cmd 0x00000007 3 10 0) leaf65)) (fun t => (t.errcode, t.errInfo, t.engine)) =
      some (.structural, 0, .drain (cmd 0x00000007 3 10 0) 1) := by decide

/-- DEC-14, one beat. -/
theorem test_decLeaf_beat :
    after (step { leaf65 with engine := .decLeaf (cmd 0x00000007 0 10 0) 10 65 })
      (fun t => (t.outQ, t.decSymcount, t.engine)) =
      some ([0x41], 1, .decLeaf (cmd 0x00000007 0 10 0) 9 65) := by decide

/-- CT-1 step 5. -/
theorem test_clearErr :
    after (step (pend (cmd 0x00000008 0 0 0)
        { t3Walked with err := true, errcode := .aborted, errInfo := 5, ovr := true }))
      (fun t => (statusWord t, t.errInfo)) = some (0x00000068, 0) := by decide

/-- EN-8. -/
theorem test_encReset :
    after (step (pend (cmd 0x00000009 0 0 0) { t3Walked with packAcc := 0xB8, packCnt := 6, encBitcount := 6 }))
      (fun t => (t.encBitcount, t.packCnt, t.encLastbits, statusWord t)) = some (0, 0, 0, 0x00000068) := by decide

/-- R290: SOFT_RESET in the middle of a command empties everything. -/
theorem test_softReset :
    after (exec .softReset { t3Walked with engine := .enc (cmd 5 4 0 0) 4 0, err := true, inQ := [1], packCnt := 3 })
      (fun t => (statusWord t, t.engine, t.inQ, t.arena.get 1)) = some (0x00000060, .idle, [], .free) := by decide

/-- CT-1 step 3. -/
theorem test_abort :
    after (exec .abort { t3Walked with engine := .enc (cmd 0x00000005 4 0 0) 4 0, ovr := true })
      (fun t => (statusWord t, t.errInfo)) = some (0x00000C6E, 0x00000005) := by decide

/-- CT-3: an illegal opcode, started. -/
theorem test_illegal :
    after (step (pend (cmd 0x0000000A 0 0 0) State.reset)) (fun t => (statusWord t, t.errInfo)) =
      some (0x00000A62, 0x0000000A) := by decide

/-- CT-1 steps 1 and 2: NOP written while busy sets OVR. -/
theorem test_overrun :
    after (hostStep (.write 0x10 4 0xF 0) { t3Walked with engine := .enc (cmd 0x00000005 4 0 0) 4 0 })
      (fun t => statusWord t) = some 0x0000006D := by decide

/-- R63: a halfword read is a bus error and leaves the block alone. -/
theorem test_bus_error :
    after (hostStep (.read 0x0C 2) t3) (fun t => (t.responses, t.engine)) = some ([.busError], .idle) := by decide

/-- R21, R61: ID at offset 0. -/
theorem test_read_id : after (hostStep (.read 0x00 4) State.reset) (fun t => t.responses) = some [.rdata 0x48554631] := by
  decide

/-- EN-1: STATUS with PACK_CNT 6 and a valid table. -/
theorem test_status : statusWord { t3Walked with packCnt := 6 } = 0x00060068 := by decide

/-- R213, R176: a word with FLUSH's opcode and RSVD != 0 waits while out_q has no room for FLUSH's byte. -/
theorem test_illegal_flush_waits (s : State) (h : s.packCnt ≠ 0) (hf : outFree s = 0) :
    step (pend (cmd 0x02000006 0 0 0) { s with turns := [] }) = .next (pend (cmd 0x02000006 0 0 0) { s with turns := [] }) := by
  rw [step_engine rfl, engineStep_illegal (r := .reservedBits) rfl (by decide), if_neg]
  rw [startReady_iff]
  rintro (h1 | h1 | h1)
  · exact h1 (by decide)
  · exact h h1
  · rw [show outFree (pend (cmd 0x02000006 0 0 0) { s with turns := [] }) = outFree s from rfl, hf] at h1
    omega

/-- R213: with room, or with nothing held, it raises ILLEGAL_CMD like every illegal word. -/
theorem test_illegal_flush_raises :
    after (step (pend (cmd 0x02000006 0 0 0) State.reset)) (fun t => (statusWord t, t.errInfo)) =
      some (0x00000A62, 0x02000006) := by decide

/-! ### The end of a run (R313) -/

/-- The engine is IDLE and no host step is left. -/
theorem test_runEnded :
    (runEnded State.reset, runEnded { State.reset with turns := [.host .pop] },
      runEnded { State.reset with engine := .pending (cmd 0 0 0 0) }) = (true, false, false) := by decide

/-- A run with a command stopped by ABORT has failed, though CLEAR_ERR has left ERR = 0 at its end; ABORT in IDLE is no
failure. -/
theorem test_runFailed_abort :
    let s (e : Engine) : State := { State.reset with engine := e, turns := [.host (hostWr .ctrl 2)] }
    (runFailed 1 (s (.pending (cmd 5 4 0 0))) State.reset, runFailed 1 (s .idle) State.reset) = (true, false) := by decide

theorem test_runResult_popped :
    (runResult State.reset { State.reset with responses := [.pushed, .popped 7, .rdata 0, .popped 9] }).popped = [7, 9] := by
  decide

/-! ### Host reference functions -/

/-- R240 for a table-mode tree with a gap (97 -> "01" and nothing else), and for the empty tree. -/
theorem test_hostSave_gap :
    hostSave (.node (.node .nil (.leaf 97)) .nil) = ['9', '7', '\n', '0', '1', '\n'] ∧
    hostSave (.node .nil .nil) = [] := by decide

/-- R155, R240: HostSave of the block's tree T3 writes the source's table text (R245). -/
theorem test_hostSave_block :
    hostSave (readTree t3.arena 4 0) =
      ['9', '7', '\n', '0', '\n', '9', '8', '\n', '1', '0', '\n', '9', '9', '\n', '1', '1', '\n'] := by decide

/-- R243: FORMAT_DUP_CODE (STATUS 0x262) is FormatError; TRUNCATED (0x562) is none of the four; ERR = 0 is no error. -/
theorem test_statusError :
    statusError 0x00000262 = some .formatError ∧ statusError 0x00000562 = some (.blockError 0x5) ∧
    statusError 0x00000060 = none := by decide

/-- R243: a text that does not parse is FormatError, and the block is as it was. -/
theorem test_hostLoad_unparsed (s : State) :
    hostLoad ['6', '5', '\n'] s = { error := some .formatError, block := s } := by
  have h : hostParse ['6', '5', '\n'] = .error .formatError := by decide
  unfold hostLoad; rw [h]

/-- R243: the empty table is a `tree_clear` and a `walk`; it gives the empty tree and a valid table (R245). -/
theorem test_hostLoad_empty :
    let r := hostLoad [] t3
    r.error = none ∧ r.block.nodeCount = 1 ∧ r.block.cltValid = true := by decide

/-- R243: two symbols with the empty code: the second insert's FORMAT_DUP_CODE is FormatError, and the block keeps the
first symbol's leaf. -/
theorem test_hostLoad_dup :
    let r := hostLoad ['6', '5', '\n', '\n', '6', '6', '\n', '\n'] State.reset
    r.error = some .formatError ∧ r.block.arena.get 0 = .leaf 65 ∧ r.block.errcode = .formatDupCode := by decide +kernel

/-- V3: the codes of the six-symbol table, in the order of the saved text. -/
theorem test_hostBuild :
    (hostBuild (List.replicate 97 0 ++ [5, 9, 12, 13, 16, 45])).map (fun t => (hostLeafCodes t []).map (·.1)) =
      .ok [102, 99, 100, 97, 98, 101] := by decide

/-- V6. -/
theorem test_hostParse_bad_symbol :
    hostParse ['6', '5', '\n', '0', '1', '\n', 'X', 'Y', '\n', '1', '0', '\n'] = .error .formatError := by decide

/-- V4: an empty code is an empty line. -/
theorem test_hostParse_empty_code : hostParse ['6', '5', '\n', '\n'] = .ok [(65, [])] := by decide

/-! ### Witnesses: for each statement with hypotheses, states and operands that meet them -/

theorem reset_treeOk : TreeOk State.reset := treeOk_empty rfl rfl rfl

theorem reset_packOk : PackOk State.reset := ⟨fun _ _ => BitVec.getLsbD_zero, rfl⟩

theorem reset_queuesOk : QueuesOk State.reset := ⟨Nat.zero_le _, Nat.zero_le _⟩

theorem reset_noCode (sym : Byte) (c : Code) : ¬ codeIs State.reset.arena sym c := by
  rintro ⟨i, -, h⟩
  rw [show State.reset.arena = emptyArena from rfl, emptyArena_get] at h
  split at h <;> simp at h

/-- The tree with the one code c for sym, over the reset state (TB-9, TB-10). -/
def single (sym : Byte) (c : Code) : State :=
  { State.reset with
    arena := growPath emptyArena sym c 0 1
    nodeCount := 1 + c.length
    leafmap := State.reset.leafmap.set (symIdx sym).val true (symIdx sym).isLt }

theorem reset_child (b : Bool) : child State.reset.arena 0 b = .nil := by
  cases b <;> decide

theorem single_treeOk (sym : Byte) (c : Code) (hne : c ≠ []) (hl : c.length ≤ 255) :
    TreeOk (single sym c) ∧ ∀ sym' c', codeIs (single sym c).arena sym' c' ↔ sym' = sym ∧ c' = c := by
  have hpos : 0 < c.length := List.length_pos_iff.mpr hne
  have h := treeOk_of_grown (s := State.reset) (t := single sym c) (sym := sym) (c := c) (p := 0) (k := 0)
    reset_treeOk hl hpos rfl (reset_child _)
    (show 1 + (c.drop 0).length ≤ 511 by simp; omega)
    (by simp [State.reset, Vector.get_eq_getElem]) rfl rfl rfl
  refine ⟨h.1, fun sym' c' => (h.2 sym' c').trans ?_⟩
  simp [reset_noCode]

/-- The one-code tree has no leaf at its root. -/
theorem single_root (sym : Byte) (c : Code) (hne : c ≠ []) (hl : c.length ≤ 255) (sym' : Byte) :
    (single sym c).arena.get 0 ≠ .leaf sym' := by
  intro h
  have := ((single_treeOk sym c hne hl).2 sym' []).mp ⟨0, rfl, h⟩
  exact hne this.2.symm

/-- A state with the invariant, in which a streaming command drains its last byte. -/
def draining : State :=
  { State.reset with err := true, errcode := .notReady, engine := .drain (cmd 0x00000005 1 0 0) 1, inQ := [0x61] }

theorem draining_inv : Inv draining where
  tree := treeOk_empty rfl rfl rfl
  table := fun h => absurd (show false = true from h) (by simp)
  pack := reset_packOk
  queues := ⟨by have := Config.inDepth_pos; simpa [draining] using this, Nat.zero_le _⟩
  error := ⟨by simp [draining], fun h => absurd (show true = false from h) (by simp)⟩
  engine := by simp [EngineOk, draining, cmd]

theorem outFree_atLeast {s : State} (h : s.outQ = []) : 34 ≤ outFree s := by
  have := Config.outDepth_ge
  simp [outFree, h]; omega

/-- out_q full: no room at all. -/
def outFull (s : State) : State := { s with outQ := List.replicate Config.outDepth 0 }

theorem outFull_free (s : State) : outFree (outFull s) = 0 := by simp [outFree, outFull]

theorem witness_EncodeThenDecode : (Instr.treeInsert 0xFF 255).WellFormed = true := by decide

theorem witness_IllegalWordRaises :
    (pend (cmd 0x0000000A 0 0 0) State.reset).engine = .pending (cmd 0x0000000A 0 0 0) ∧
    0x0A ≤ (fieldOpcode 0x0000000A).toNat ∧ fieldRsvd 0x0000000A = 0 ∧
    (fieldOpcode 0x02000000).toNat = 0 ∧ fieldRsvd 0x02000000 ≠ 0 ∧ fieldOpcode 0x0000000A ≠ 0x06 ∧
    (fieldOpcode 0x02000006 = 0x06 ∧ fieldRsvd 0x02000006 ≠ 0 ∧ State.reset.packCnt = 0) := by decide

theorem witness_CtrlWriteActs :
    (0x3 : Word).getLsbD 0 = true ∧ (0x2 : Word).getLsbD 0 = false ∧ (0x2 : Word).getLsbD 1 = true ∧
    (0xFFFFFFFC : Word).getLsbD 0 = false ∧ (0xFFFFFFFC : Word).getLsbD 1 = false := by decide

theorem witness_StepTakesTheTurn :
    State.reset.turns = [] ∧ ({ State.reset with turns := [.engine] } : State).turns = .engine :: [] ∧
    ({ State.reset with turns := [.host .pop] } : State).turns = .host .pop :: [] := ⟨rfl, rfl, rfl⟩

theorem witness_StepRunsTheDecodedInstruction :
    decodeCmd (cmd 0x00006104 0 0 0).word = .ok (.lookup 97) ∧ (pend (cmd 0x00006104 0 0 0) State.reset).turns = [] ∧
    decodeCtrl 0x00000002 = .ok .abort := by decide

theorem witness_CmdWriteEffects :
    draining.engine ≠ .idle ∧
    (errored.engine = .idle ∧ errored.err = true ∧ fieldOpcode 0x00000003 ≠ 0x00 ∧ fieldOpcode 0x00000003 ≠ 0x08) ∧
    (State.reset.engine = .idle ∧ State.reset.err = false) ∧ fieldOpcode 0x02000008 = 0x08 := by decide

theorem witness_RaiseKeepsTheFirstError : State.reset.err = false ∧ errored.err = true := ⟨rfl, rfl⟩

theorem witness_NopResult :
    (pend (cmd 0x00000000 0 0 0) errored).engine = .pending (cmd 0x00000000 0 0 0) ∧
    errored.engine = .idle ∧ errored.err = true ∧ fieldOpcode 0x00000000 = 0x00 ∧
    (fieldOpcode (cmd 0x02000000 0 0 0).word = 0x00 ∧ fieldRsvd (cmd 0x02000000 0 0 0).word ≠ 0) := by decide

theorem witness_ClearErrResult :
    errored.engine = .idle ∧ errored.err = true ∧ fieldOpcode 0x00000008 = 0x08 ∧
    (pend (cmd 0x02000008 0 0 0) errored).engine = .pending (cmd 0x02000008 0 0 0) ∧
    fieldOpcode 0x02000008 = 0x08 ∧ fieldRsvd 0x02000008 ≠ 0 ∧ (pend (cmd 0x02000008 0 0 0) errored).err = true := by
  decide

theorem witness_AbortResult :
    State.reset.engine = .idle ∧
    (latched? (pend (cmd 5 4 0 0) State.reset).engine = some (cmd 5 4 0 0) ∧
      (pend (cmd 5 4 0 0) State.reset).err = false) ∧
    (latched? draining.engine = some (cmd 0x00000005 1 0 0) ∧ draining.err = true) ∧
    ((0xFFFFFFFE : Word).getLsbD 0 = false ∧ (0xFFFFFFFE : Word).getLsbD 1 = true) := by decide

theorem witness_ResetResult : (0x00000003 : Word).getLsbD 0 = true := by decide

theorem witness_DrainTakesTheRest :
    draining.turns = [] ∧ draining.engine = .drain (cmd 0x00000005 1 0 0) 1 ∧ 0 < 1 ∧ 1 ≤ draining.inQ.length ∧
    (({ draining with inQ := [] } : State).engine = .drain (cmd 0x00000005 1 0 0) 1 ∧
      ({ draining with inQ := [] } : State).inQ = []) := by
  decide

theorem witness_TreeClearResult : (pend (cmd 1 0 0 0) t3).engine = .pending (cmd 1 0 0 0) := rfl

/-- The room TREE_INSERT needs for a code: that of the path below its break (R136). -/
def HasRoom (s : State) (code : Vector Word 8) (len : Nat) : Prop :=
  ∀ (k : Nat) (cur : NodeIdx), k < len → descend s.arena 0 ((codeOperand code len).take k) = some cur →
    child s.arena cur (codeBit code k) = .nil → s.nodeCount + (len - k) ≤ Config.nodeCap

/-- Every code of at most 255 bits into the empty tree, the empty code too. -/
theorem witness_TreeInsertAddsItsCode_empty (len : Nat) (hl : len ≤ 255) :
    let s := pend (cmd 0x00000002 0 0 0) State.reset
    TreeOk s ∧ s.engine = .pending (cmd 0x00000002 0 0 0) ∧ len ≤ Config.maxCodeLen ∧
    s.leafmap.get (symIdx 65) = false ∧
    (∀ sym' c', codeIs s.arena sym' c' → CodesApart (codeOperand (cmd 0x00000002 0 0 0).code len) c') ∧
    HasRoom s (cmd 0x00000002 0 0 0).code len :=
  ⟨treeOk_empty rfl rfl rfl, rfl, hl, by simp [pend, State.reset, Vector.get_eq_getElem],
    fun sym' c' h => absurd h (reset_noCode sym' c'), fun k _ _ _ _ => show 1 + (len - k) ≤ 511 by omega⟩

/-- "0" m + 1 times, and "1" with n times "0" after it. -/
def zeros (m : Nat) : Code := List.replicate (m + 1) false
def oneZeros (n : Nat) : Code := true :: List.replicate n false

theorem zeros_length (m : Nat) : (zeros m).length = m + 1 := by rw [zeros, List.length_replicate]
theorem oneZeros_length (n : Nat) : (oneZeros n).length = n + 1 := by
  rw [oneZeros, List.length_cons, List.length_replicate]
theorem zeros_ne (m : Nat) : zeros m ≠ [] := by rw [zeros, List.replicate_succ]; exact List.cons_ne_nil _ _
theorem oneZeros_succ (n : Nat) : oneZeros (n + 1) = oneZeros n ++ [false] := by
  rw [oneZeros, List.replicate_succ', oneZeros, List.cons_append]

/-- The tree with the two codes. -/
def twoCodes (m n : Nat) : State :=
  { single 97 (zeros m) with
    arena := growPath (single 97 (zeros m)).arena 98 (oneZeros n) 0 (1 + (m + 1))
    nodeCount := 1 + (m + 1) + (n + 1)
    leafmap := (single 97 (zeros m)).leafmap.set (symIdx 98).val true (symIdx 98).isLt }

theorem twoCodes_nodeCount (m n : Nat) : (twoCodes m n).nodeCount = 1 + (m + 1) + (n + 1) := rfl

theorem twoCodes_leafmap (m n : Nat) :
    (twoCodes m n).leafmap = (State.reset.leafmap.set 97 true (by decide)).set 98 true (by decide) := rfl

theorem twoCodes_treeOk (m n : Nat) (hm : m + 1 ≤ 255) (hn : n + 1 ≤ 255) (hs : 1 + (m + 1) + (n + 1) ≤ 511) :
    TreeOk (twoCodes m n) ∧ ∀ sym' c', codeIs (twoCodes m n).arena sym' c' ↔
      (sym' = 97 ∧ c' = zeros m) ∨ (sym' = 98 ∧ c' = oneZeros n) := by
  have hl : (zeros m).length ≤ 255 := by rw [zeros_length]; exact hm
  have h := single_treeOk 97 (zeros m) (zeros_ne m) hl
  have hcnt : (single 97 (zeros m)).nodeCount = 1 + (m + 1) := by
    show 1 + (zeros m).length = _; rw [zeros_length]
  have hg : child (single 97 (zeros m)).arena 0 true = .nil := by
    cases hc : child (single 97 (zeros m)).arena 0 true with
    | nil => rfl
    | node i =>
      obtain ⟨hlt, hin⟩ := h.1.childAbove _ _ _ hc
      have hi0 : i ≠ 0 := fun e => by rw [e] at hlt; exact absurd hlt (lt_irrefl _)
      obtain ⟨c, j, sym, hd, hj⟩ := leaf_below h.1 i ((h.1.allocated i).mpr hin) (fun e => hi0 (h.1.hasChild i e))
      have e := ((h.2 sym (true :: c)).mp ⟨j, descend_cons.mpr ⟨i, hc, hd⟩, hj⟩).2
      rw [zeros, List.replicate_succ] at e
      simp at e
    | structural =>
      obtain ⟨sym, hs⟩ := child_eq_structural.mp hc
      exact absurd hs (single_root 97 (zeros m) (zeros_ne m) hl sym)
    | free => exact absurd (child_eq_free.mp hc) ((h.1.allocated 0).mpr h.1.countPos)
  have g := treeOk_of_grown (s := single 97 (zeros m)) (t := twoCodes m n) (sym := 98) (c := oneZeros n) (p := 0) (k := 0)
    h.1 (by rw [oneZeros_length]; exact hn) (by rw [oneZeros_length]; omega) rfl hg
    (by rw [hcnt, List.drop_zero, oneZeros_length]; exact hs) (by simp [single]; decide)
    (by rw [hcnt]; rfl) (by rw [hcnt, List.drop_zero, oneZeros_length]; rfl) rfl
  exact ⟨g.1, fun sym' c' => (g.2 sym' c').trans (or_congr (h.2 sym' c') Iff.rfl)⟩

theorem apart_head (c d : Code) : CodesApart (true :: c) (false :: d) := by simp [CodesApart]

theorem apart_last (c : Code) : CodesApart (c ++ [true]) (c ++ [false]) := by
  simp [CodesApart, List.prefix_append_right_inj]

/-- The last node (TB-13's shape): NODE_COUNT is 510, and "1" "0"*252 "1" leaves the path of "1" "0"*253 at depth 253, so
that one node is needed, where NODE_COUNT + len is far above 511. -/
theorem witness_TreeInsertAddsItsCode :
    let L : Latched := { word := 0x00FE6302, arg0 := 0, arg1 := 0, code := #v[0x80000000, 0, 0, 0, 0, 0, 0, 4] }
    let s := pend L (twoCodes 254 253)
    s.nodeCount = 510 ∧
    TreeOk s ∧ s.engine = .pending L ∧ 254 ≤ Config.maxCodeLen ∧ s.leafmap.get (symIdx 99) = false ∧
    (∀ sym' c', codeIs s.arena sym' c' → CodesApart (codeOperand L.code 254) c') ∧ HasRoom s L.code 254 := by
  intro L s
  obtain ⟨hT, hcodes⟩ := twoCodes_treeOk 254 253 (by omega) (by omega) (by omega)
  rw [← pend_arena L] at hcodes
  have hop : codeOperand L.code 254 = oneZeros 252 ++ [true] := by decide +kernel
  have hcnt : s.nodeCount = 510 := (pend_nodeCount L _).trans (twoCodes_nodeCount 254 253)
  refine ⟨hcnt, treeOk_congr hT (pend_arena L _) (pend_nodeCount L _) (pend_leafmap L _), rfl, by decide, ?_, fun sym' c' hc => ?_, fun k cur hk hd hg => ?_⟩
  · exact (congrArg (fun v => Vector.get v (symIdx 99)) ((pend_leafmap L _).trans (twoCodes_leafmap 254 253))).trans (by decide)
  · rw [hop]
    rcases (hcodes sym' c').mp hc with ⟨-, e⟩ | ⟨-, e⟩ <;> rw [e]
    · rw [zeros, List.replicate_succ, oneZeros, List.cons_append]
      exact apart_head _ _
    · rw [oneZeros_succ 252]
      exact apart_last _
  · rw [hcnt]
    show 510 + (254 - k) ≤ 511
    by_contra hlt
    have hlen : k < (oneZeros 252).length := by rw [oneZeros_length]; omega
    have hcode := (hcodes 98 (oneZeros 253)).mpr (.inr ⟨rfl, rfl⟩)
    have hbit : codeBit L.code k = (oneZeros 252)[k] := by
      have e : (codeOperand L.code 254).getD k false = codeBit L.code k := by
        rw [List.getD_eq_getElem _ _ (by rw [codeOperand, List.length_map, List.length_range]; exact hk)]
        simp [codeOperand]
      rw [← e, hop, List.getD_append _ _ _ _ hlen, List.getD_eq_getElem _ _ hlen]
    rw [hop, List.take_append_of_le_length hlen.le] at hd
    rw [hbit] at hg
    rw [oneZeros_succ 252, ← List.take_append_drop k (oneZeros 252), List.append_assoc,
      List.drop_eq_getElem_cons hlen, List.cons_append] at hcode
    exact code_path hcode hd hg

/-- One node left, and none left (TB-12). -/
theorem witness_TreeInsertNodeCount :
    let s (n : Nat) := { pend (cmd 0x00000002 0 0 0) State.reset with nodeCount := n }
    (s 510).leafmap.get (symIdx 3) = false ∧ descend (s 510).arena 0 ((codeOperand (cmd 2 0 0 0).code 1).take 0) = some 0 ∧
    child (s 510).arena 0 (codeBit (cmd 2 0 0 0).code 0) = .nil ∧
    (s 510).nodeCount + (1 - 0) ≤ Config.nodeCap ∧ Config.nodeCap < (s 511).nodeCount + (1 - 0) := by decide

/-- TB-6 and TB-7's shapes, over T3: "00" passes the leaf of "0"; "1" ends at the Internal node 2. -/
theorem witness_TreeInsertPrefixErrors :
    t3.leafmap.get (symIdx 1) = false ∧
    (1 < 2 ∧ descend t3.arena 0 ((codeOperand (cmd 2 0 0 0).code 2).take 1) = some 1 ∧ t3.arena.get 1 = .leaf 97) ∧
    (descend t3.arena 0 (codeOperand (cmd 2 0 0 0x80000000).code 1) = some 2 ∧
      t3.arena.get 2 = .internal (some 3) (some 4)) := by decide +kernel

/-- TB-4 and TB-5's shapes, over T3. -/
theorem witness_TreeInsertDuplicates :
    t3.leafmap.get (symIdx 97) = true ∧ t3.leafmap.get (symIdx 1) = false ∧
    descend t3.arena 0 (codeOperand (cmd 2 0 0 0).code 1) = some 1 ∧ t3.arena.get 1 = .leaf 97 := by decide +kernel

theorem witness_TreeInsertIsAtomic :
    after (exec (.treeInsert 97 1) (pend (cmd 2 0 0 0) t3)) (fun t => t.err) = some true ∧ t3.err = false := by
  decide +kernel

theorem witness_WalkFillsTheTable :
    TreeOk (pend (cmd 3 0 0 0) State.reset) ∧ (pend (cmd 3 0 0 0) State.reset).engine = .pending (cmd 3 0 0 0) :=
  ⟨treeOk_empty rfl rfl rfl, rfl⟩

theorem witness_WalkBeatResult :
    let s := { State.reset with engine := .walk (cmd 3 0 0 0) [⟨65, []⟩] }
    (s.engine = .walk (cmd 3 0 0 0) (⟨65, []⟩ :: []) ∧ 2 + ceil8 ([] : Code).length ≤ outFree s) ∧
    outFree (outFull s) < 2 + ceil8 ([] : Code).length :=
  ⟨⟨rfl, by decide⟩, by rw [outFull_free]; decide⟩

theorem witness_LookupResult :
    (pend (cmd 4 0 0 0) t3).cltValid = false ∧
    (t3Walked.cltValid = true ∧ t3Walked.clt.get (symIdx 98) = some [true, false] ∧ [true, false].length ≤ 255) ∧
    t3Walked.clt.get (symIdx 100) = none := by decide +kernel

theorem witness_LookupLayoutIsInsertLayout : (List.replicate 255 true).length ≤ 256 := by
  rw [List.length_replicate]; omega

theorem witness_EncodeStartResult :
    (t3Walked.cltValid = true ∧ 0 < (cmd 5 1 0 0).arg0.toNat ∧ (cmd 5 0 0 0).arg0 = 0) ∧ t3.cltValid = false := by
  decide

/-- The code takes ENC_BITCOUNT to its last value and completes a byte. -/
theorem witness_EncodeBeatAppends :
    let s := { t3Walked with
      engine := .enc (cmd 5 1 0 0) 1 0, inQ := [0x61], packCnt := 6, encBitcount := 0xFFFFFFFE }
    PackOk s ∧ s.engine = .enc (cmd 5 1 0 0) 1 0 ∧ s.inQ = 0x61 :: [] ∧ s.clt.get (symIdx 0x61) = some [false] ∧
    s.encBitcount.toNat + [false].length ≤ 0xFFFFFFFF ∧ (s.packCnt.val + [false].length) / 8 ≤ outFree s :=
  ⟨⟨fun _ _ => BitVec.getLsbD_zero, rfl⟩, rfl, rfl, by decide +kernel, by decide, by decide⟩

theorem witness_EncodeBeatErrors :
    let s := { t3Walked with engine := .enc (cmd 5 1 0 0) 1 0, packCnt := 7 }
    (s.engine = .enc (cmd 5 1 0 0) 1 0 ∧ s.inQ = []) ∧
    (({ s with inQ := [0x78] } : State).inQ = 0x78 :: [] ∧ s.clt.get (symIdx 0x78) = none) ∧
    (s.clt.get (symIdx 0x61) = some [false] ∧ 0xFFFFFFFF < (0xFFFFFFFF : Word).toNat + [false].length) ∧
    (s.encBitcount.toNat + [false].length ≤ 0xFFFFFFFF ∧ outFree (outFull s) < (s.packCnt.val + [false].length) / 8) :=
  ⟨⟨rfl, rfl⟩, ⟨rfl, by decide +kernel⟩, ⟨by decide +kernel, by decide⟩, by decide, by rw [outFull_free]; decide⟩

/-- No symbol at all, and one symbol whose bit completes a byte. -/
theorem witness_EncodeRunResult :
    let s (n : Word) (q : List Byte) : State := { pend (cmd 5 n 0 0) t3Walked with
      inQ := q, packCnt := 7, encBitcount := 7 }
    (PackOk (s 0 []) ∧ (cmd 5 0 0 0).arg0.toNat = ([] : List (Byte × Code)).length) ∧
    PackOk (s 1 [0x61]) ∧ (s 1 [0x61]).turns = [] ∧ (s 1 [0x61]).engine = .pending (cmd 5 1 0 0) ∧
    decodeCmd (cmd 5 1 0 0).word = .ok .encode ∧ (s 1 [0x61]).cltValid = true ∧
    (cmd 5 1 0 0).arg0.toNat = [((0x61 : Byte), [false])].length ∧
    (s 1 [0x61]).inQ = [((0x61 : Byte), [false])].map (·.1) ++ [] ∧
    (s 1 [0x61]).clt.get (symIdx 0x61) = some [false] ∧
    (s 1 [0x61]).encBitcount.toNat + ([((0x61 : Byte), [false])].flatMap (·.2)).length ≤ 0xFFFFFFFF ∧
    (s 1 [0x61]).outQ.length + ((s 1 [0x61]).packCnt.val + ([((0x61 : Byte), [false])].flatMap (·.2)).length) / 8 ≤
      Config.outDepth :=
  ⟨⟨⟨fun _ _ => BitVec.getLsbD_zero, rfl⟩, rfl⟩, ⟨fun _ _ => BitVec.getLsbD_zero, rfl⟩, rfl, rfl, by decide, rfl, rfl,
    rfl, by decide +kernel, by decide, by have := Config.outDepth_ge; show 1 ≤ Config.outDepth; omega⟩

theorem witness_FlushResult :
    State.reset.packCnt = 0 ∧ (t3Walked.outQ = [] ∧ ({ t3Walked with packCnt := 1 } : State).packCnt ≠ 0) ∧
    1 ≤ outFree t3Walked ∧ outFree (outFull { t3Walked with packCnt := 7 }) = 0 ∧
    fieldOpcode (cmd 0x00000006 0 0 0).word = 0x06 ∧ fieldOpcode (cmd 0x02000006 0 0 0).word = 0x06 :=
  ⟨rfl, ⟨rfl, by decide⟩, by have := outFree_atLeast (s := t3Walked) rfl; omega, outFull_free _, by decide, by decide⟩

theorem witness_FlushPadsWithZero :
    let s := pend (cmd 6 0 0 0) { State.reset with packAcc := 0x80, packCnt := 1, encBitcount := 1 }
    PackOk s ∧ s.engine = .pending (cmd 6 0 0 0) ∧ 1 ≤ outFree s :=
  ⟨⟨by decide, by decide⟩, rfl, by decide⟩

theorem witness_EncResetResult : (pend (cmd 9 0 0 0) t3).engine = .pending (cmd 9 0 0 0) := rfl

theorem witness_DecodeStartResult :
    (∀ sym, (pend (cmd 7 0 0 0) State.reset).arena.get 0 ≠ .leaf sym) ∧
    (leaf65.arena.get 0 = .leaf 65 ∧ (cmd 7 0 10 0).arg0 = 0 ∧ 0 < (cmd 7 3 10 0).arg0.toNat) :=
  ⟨by intro sym h; rw [show (pend (cmd 7 0 0 0) State.reset).arena = emptyArena from rfl, emptyArena_get] at h
      simp at h, by decide⟩

/-- "0" once, in TB-9's tree, with the padding bits all 1. -/
theorem witness_DecodeRunResult :
    let L := cmd 7 1 0 0
    let s := { pend L (single 97 [false]) with inQ := [0x7F, 0xAA] }
    TreeOk s ∧ s.turns = [] ∧ s.engine = .pending L ∧ decodeCmd L.word = .ok .decode ∧
    (∀ sym, s.arena.get 0 ≠ .leaf sym) ∧ codeIs s.arena 97 [false] ∧
    L.arg0.toNat = ([((97 : Byte), [false])].flatMap (·.2)).length ∧ s.inQ = [0x7F] ++ [0xAA] ∧
    [(0x7F : Byte)].length = ceil8 L.arg0.toNat ∧
    (unpackBits [0x7F]).take L.arg0.toNat = [((97 : Byte), [false])].flatMap (·.2) ∧
    s.outQ.length + [((97 : Byte), [false])].length ≤ Config.outDepth := by
  intro L s
  have h := single_treeOk 97 [false] (by simp) (by simp)
  refine ⟨?_, rfl, rfl, by decide, single_root 97 [false] (by simp) (by simp), (h.2 97 [false]).mpr ⟨rfl, rfl⟩, rfl, rfl,
    by decide, by decide, by have := Config.outDepth_ge; show 1 ≤ Config.outDepth; omega⟩
  exact treeOk_congr h.1 rfl rfl rfl

/-- "01" once and then its first bit. -/
theorem witness_DecodeRunTruncated :
    let L := cmd 7 3 0 0
    let c : Code := [false, true]
    let s := { pend L (single 97 c) with inQ := [0x40] }
    TreeOk s ∧ s.turns = [] ∧ s.engine = .pending L ∧ decodeCmd L.word = .ok .decode ∧
    (∀ sym, s.arena.get 0 ≠ .leaf sym) ∧ codeIs s.arena 97 c ∧ [false] <+: c ∧ [false] ≠ c ∧ [false] ≠ ([] : Code) ∧
    L.arg0.toNat = ([((97 : Byte), c)].flatMap (·.2) ++ [false]).length ∧ s.inQ = [0x40] ++ [] ∧
    [(0x40 : Byte)].length = ceil8 L.arg0.toNat ∧
    (unpackBits [0x40]).take L.arg0.toNat = [((97 : Byte), c)].flatMap (·.2) ++ [false] ∧
    s.outQ.length + [((97 : Byte), c)].length ≤ Config.outDepth := by
  intro L c s
  have h := single_treeOk 97 c (by simp [c]) (by simp [c])
  refine ⟨?_, rfl, rfl, by decide, single_root 97 c (by simp [c]) (by simp [c]), (h.2 97 c).mpr ⟨rfl, rfl⟩, by simp [c],
    by simp [c], by simp, rfl, rfl, by decide, by decide, by have := Config.outDepth_ge; show 1 ≤ Config.outDepth; omega⟩
  exact treeOk_congr h.1 rfl rfl rfl

/-- DEC-13 without its last byte: "0" twice, then a 1 that leads nowhere, and a byte to drain. -/
theorem witness_DecodeRunInvalidCode :
    let L := cmd 7 9 0 0
    let es : List (Byte × Code) := [(97, [false]), (97, [false])]
    let ys : Code := [false, false, false, false, false, false]
    let s := { pend L (single 97 [false]) with inQ := [0x20, 0x00] }
    TreeOk s ∧ s.turns = [] ∧ s.engine = .pending L ∧ decodeCmd L.word = .ok .decode ∧
    (∀ sym, s.arena.get 0 ≠ .leaf sym) ∧ (∀ e ∈ es, codeIs s.arena e.1 e.2) ∧ descend s.arena 0 [] = some 0 ∧
    child s.arena 0 true = .nil ∧ L.arg0.toNat = (es.flatMap (·.2) ++ ([] : Code) ++ true :: ys).length ∧
    s.inQ = [0x20, 0x00] ++ [] ∧ [(0x20 : Byte), 0x00].length = ceil8 L.arg0.toNat ∧
    (unpackBits [0x20, 0x00]).take L.arg0.toNat = es.flatMap (·.2) ++ ([] : Code) ++ true :: ys ∧
    s.outQ.length + es.length ≤ Config.outDepth := by
  intro L es ys s
  have h := single_treeOk 97 [false] (by simp) (by simp)
  refine ⟨?_, rfl, rfl, by decide, single_root 97 [false] (by simp) (by simp), ?_, rfl, by decide, rfl, rfl, by decide,
    by decide, by have := Config.outDepth_ge; show 2 ≤ Config.outDepth; omega⟩
  · exact treeOk_congr h.1 rfl rfl rfl
  · intro e he
    have he' : e = (97, [false]) := by simpa [es] using he
    subst he'
    exact (h.2 97 [false]).mpr ⟨rfl, rfl⟩

/-- The DECODE beat with no input, and with a byte whose one symbol finds no room. -/
theorem witness_DecodeRunInvalidCode_waits :
    let s := outFull { t3 with engine := .dec (cmd 7 1 0 0) 1 0 0 0, inQ := [0x00] }
    s.engine = .dec (cmd 7 1 0 0) 1 0 0 0 ∧ ({ s with inQ := [] } : State).inQ = [] ∧ s.inQ = 0x00 :: [] ∧
    outFree s < (scanBits s.arena (payloadBits 0x00 1) 0 0 0).syms.length := by
  intro s
  refine ⟨rfl, rfl, rfl, ?_⟩
  rw [outFull_free]
  show 0 < (scanBits t3.arena (payloadBits 0x00 1) 0 0 0).syms.length
  decide

theorem witness_DecodeRootLeafRun_waits :
    let s := outFull { leaf65 with engine := .decLeaf (cmd 7 0 1 0) 1 65 }
    s.engine = .decLeaf (cmd 7 0 1 0) 1 65 ∧ outFree s = 0 := ⟨rfl, outFull_free _⟩

theorem witness_DecodeRootLeafRun :
    let L := cmd 7 0 10 0
    let s := pend L leaf65
    s.turns = [] ∧ s.engine = .pending L ∧ decodeCmd L.word = .ok .decode ∧ s.arena.get 0 = .leaf 65 ∧ L.arg0 = 0 ∧
    s.outQ.length + L.arg1.toNat ≤ Config.outDepth :=
  ⟨rfl, rfl, by decide, by decide, rfl, by have := Config.outDepth_ge; show 10 ≤ Config.outDepth; omega⟩

/-- One symbol 97 -> "0" through ENCODE, FLUSH and DECODE. -/
theorem witness_RoundTrip :
    let LE := cmd 5 1 0 0
    let s := { pend LE (single 97 [false]) with
      inQ := [97], cltValid := true, clt := State.reset.clt.set (symIdx 97).val (some [false]) (symIdx 97).isLt }
    let es : List (Byte × Code) := [(97, [false])]
    TreeOk s ∧ TableOk s ∧ s.cltValid = true ∧ (∀ sym, s.arena.get 0 ≠ .leaf sym) ∧ codeIs s.arena 97 [false] ∧
    s.packAcc = 0 ∧ s.packCnt = 0 ∧ s.encBitcount = 0 ∧ s.turns = [] ∧ s.outQ = [] ∧ s.inQ = es.map (·.1) ∧
    s.engine = .pending LE ∧ decodeCmd LE.word = .ok .encode ∧ decodeCmd (cmd 6 0 0 0).word = .ok .flush ∧
    decodeCmd (cmd 7 1 0 0).word = .ok .decode ∧ LE.arg0.toNat = es.length ∧
    (cmd 7 1 0 0).arg0.toNat = (es.flatMap (·.2)).length ∧ ceil8 (es.flatMap (·.2)).length ≤ Config.outDepth ∧
    es.length ≤ Config.outDepth := by
  intro LE s es
  have h := single_treeOk 97 [false] (by simp) (by simp)
  have ho := Config.outDepth_ge
  refine ⟨?_, fun _ sym c => ?_, rfl, single_root 97 [false] (by simp) (by simp), (h.2 97 [false]).mpr ⟨rfl, rfl⟩, rfl,
    rfl, rfl, rfl, rfl, rfl, rfl, by decide, by decide, by decide, rfl, rfl, ?_, ?_⟩
  · exact treeOk_congr h.1 rfl rfl rfl
  · rw [show codeIs s.arena sym c ↔ sym = 97 ∧ c = [false] from h.2 sym c]
    simp only [s, Vector.get_eq_getElem, Vector.getElem_set]
    by_cases e : sym = 97
    · subst e; simp [eq_comm]
    · have hn : ¬ (symIdx 97).val = (symIdx sym).val := fun hv => e (BitVec.eq_of_toNat_eq hv.symm)
      simp only [State.reset, Vector.getElem_replicate, if_neg hn]
      simp [show ¬ sym = 97#8 from e]
  · rw [show ceil8 (es.flatMap (·.2)).length = 1 by decide]; omega
  · show 1 ≤ Config.outDepth; omega

theorem witness_BusAccesses :
    ((2 : Nat) ≠ 4 ∨ (0x0C : BitVec 7).toNat % 4 ≠ 0) ∧ ((4 : Nat) ≠ 4 ∨ (0x0D : BitVec 7).toNat % 4 ≠ 0) ∧
    (0b0111#4 : BitVec 4) ≠ 0b1111#4 ∧ ({ State.reset with nodeCount := 511 } : State).nodeCount ≤ 511 := by decide

theorem witness_ReservedOffsets :
    (0x3C : BitVec 7).toNat % 4 = 0 ∧ (0x3C : BitVec 7).toNat = 0x3C ∧
    ((0x60 : BitVec 7).toNat % 4 = 0 ∧ 0x60 ≤ (0x60 : BitVec 7).toNat) ∧
    ((0x7C : BitVec 7).toNat % 4 = 0 ∧ 0x60 ≤ (0x7C : BitVec 7).toNat) := by decide

theorem witness_PlainRegisterAccess : (Reg.code 7 = .arg0 ∨ Reg.code 7 = .arg1 ∨ ∃ k, Reg.code 7 = .code k) ∧
    Reg.fifoLevel ∈ [Reg.id, .fifoLevel] := ⟨.inr (.inr ⟨7, rfl⟩), by decide⟩

theorem witness_ParamAndFifoLevel : QueuesOk (outFull State.reset) :=
  ⟨Nat.zero_le _, by simp [outFull]⟩

theorem witness_PushAndPop :
    State.reset.inQ.length < Config.inDepth ∧
    Config.inDepth ≤ ({ State.reset with inQ := List.replicate Config.inDepth 0 } : State).inQ.length ∧
    ({ State.reset with outQ := [1] } : State).outQ = 1 :: [] ∧ State.reset.outQ = [] :=
  ⟨Config.inDepth_pos, by simp, rfl, rfl⟩

theorem witness_StepKeepsInvariant : Inv draining ∧ after (step draining) (fun t => t.engine) = some .idle :=
  ⟨draining_inv, by decide⟩

theorem witness_StepNeverStops : Inv draining := draining_inv

theorem witness_StepKeepsQueueCapacity : QueuesOk draining ∧ after (step draining) (fun t => t.inQ) = some [] :=
  ⟨draining_inv.queues, by decide⟩

theorem witness_StepKeepsPacker : PackOk draining ∧ after (step draining) (fun t => t.inQ) = some [] :=
  ⟨draining_inv.pack, by decide⟩

theorem witness_CodesArePrefixFree :
    TreeOk (single 97 [false]) ∧ codeIs (single 97 [false]).arena 97 [false] ∧ [false] <+: [false] :=
  ⟨(single_treeOk 97 [false] (by simp) (by simp)).1,
    ((single_treeOk 97 [false] (by simp) (by simp)).2 97 [false]).mpr ⟨rfl, rfl⟩, List.prefix_refl _⟩

theorem witness_WritersOfResultAndLastbits :
    after (engineStep (pend (cmd 0x00006104 0 0 0) t3Walked)) (fun t => t.result) = some 0x80000001 ∧
    after (engineStep (pend (cmd 6 0 0 0) { State.reset with encBitcount := 8 })) (fun t => t.encLastbits) = some 8 ∧
    after (hostStep (.write 0x08 4 0xF 2) State.reset) (fun t => t.result) = some 0 ∧
    resetsBlock (.write 0x08 4 0xF 2) = false := by decide +kernel

theorem witness_WritersOfTreeAndTable :
    after (engineStep (pend (cmd 1 0 0 0) t3Walked)) (fun t => (t.nodeCount, t.cltValid)) = some (1, false) ∧
    after (engineStep (pend (cmd 3 0 0 0) t3)) (fun t => (t.cltValid, t.clt.get 97)) = some (true, some [false]) ∧
    resetsBlock .pop = false := by decide +kernel

theorem witness_OperandRegistersAreTheHosts :
    after (engineStep (pend (cmd 0x00006304 0 0 0) t3Walked)) (fun t => t.codeBuf.get 0) = some 0xC0000000 := by
  decide +kernel

theorem witness_ErrorIsSticky :
    after (engineStep draining) (fun t => t.errcode) = some .notReady ∧ draining.err = true ∧
    ¬ starts draining .clearErr ∧ resetsBlock (.push 0) = false :=
  ⟨by decide, rfl, fun h => by obtain ⟨L, h, -⟩ := h; simp [draining] at h, rfl⟩

theorem witness_EngineStepMovesWholeBytes : after (engineStep draining) (fun t => t.inQ) = some [] := by decide

theorem witness_BeatsMakeProgress :
    Inv draining ∧ draining.engine ≠ .idle ∧ (∀ L, draining.engine ≠ .pending L) ∧ draining.inQ ≠ [] ∧
    34 ≤ outFree draining ∧ after (engineStep draining) (fun t => t.engine) = some .idle :=
  ⟨draining_inv, by decide, fun L h => by simp [draining] at h, by decide, outFree_atLeast rfl, by decide⟩

theorem witness_HostParseOfTableText : ∀ e ∈ [((65 : Byte), List.replicate 255 true)], e.2.length ≤ Config.maxCodeLen := by
  intro e he
  rw [List.mem_singleton.mp he, List.length_replicate]

end Sys2Proof.Tests
end

section
/-! The schedule of a step (20_memory R73, log 1): which agent moves, one equation per turn that may be due. The empty
queue of turns is `step_engine`. -/

namespace Sys2Proof.Machine

/-- An engine turn that is due is taken before the engine moves (log 1). -/
theorem step_engineTurn {s : State} {ts : List Turn} (h : s.turns = .engine :: ts) :
    step s = engineStep { s with turns := ts } := by
  unfold step takeTurn; rw [h]

/-- A host turn that is due is taken before the host acts (log 1). -/
theorem step_hostTurn {s : State} {a : HostStep} {ts : List Turn} (h : s.turns = .host a :: ts) :
    step s = hostStep a { s with turns := ts } := by
  unfold step takeTurn; rw [h]

/-- Settles O6: one equation of `step` for each shape of the queue of turns. -/
theorem stepTakesTheTurn : Obligations.StepTakesTheTurn :=
  ⟨fun _ => step_engine, fun _ _ => step_engineTurn, fun _ _ _ => step_hostTurn⟩

end Sys2Proof.Machine
end

section
/-! The computed registers, STATUS, PARAM and FIFO_LEVEL field by field (10_state R22, R24, R44), and the register map
(R20). The block appends the fields of a register; the width of such a word is written below as the sum of its fields'
widths, so that the library's lemmas about `++` see it. -/

namespace Sys2Proof.Machine

/-! ### The register map (R20) -/

@[simp] theorem regAt_regOffset (r : Reg) : regAt (regOffset r) = some r := by
  cases r with
  | code k => revert k; decide
  | _ => rfl

/-- A register answers at its own offset and at no other. -/
theorem regAt_eq_some {addr : BitVec 7} {r : Reg} : regAt addr = some r ↔ addr = regOffset r := by
  refine ⟨fun h => ?_, fun h => h ▸ regAt_regOffset r⟩
  unfold regAt at h
  split at h <;> cases h <;> exact BitVec.eq_of_toNat_eq ‹_›

/-- Settles O39: `regAt` is a left inverse of `regOffset`. -/
theorem registerMapIsInjective : Obligations.RegisterMapIsInjective := by
  refine ⟨⟨rfl, rfl, rfl, rfl, rfl, rfl, rfl, rfl, rfl, rfl, rfl, rfl, rfl, rfl, rfl, by decide⟩, regAt_regOffset,
    fun r r' h => ?_⟩
  exact Option.some.inj ((regAt_regOffset r).symm.trans (regAt_eq_some.mpr h))

/-! ### STATUS (R24) -/

theorem statusBusy_iff {s : State} : statusBusy s = true ↔ s.engine ≠ .idle := by
  rw [← Bool.not_eq_false, not_congr statusBusy_false]

theorem statusDrain_iff {s : State} : statusDrain s = true ↔ ∃ L rem, s.engine = .drain L rem := by
  unfold statusDrain; split <;> simp_all

theorem statusRootLeaf_iff {s : State} : statusRootLeaf s = true ↔ ∃ sym, s.arena.get 0 = .leaf sym := by
  simp only [statusRootLeaf, Option.isSome_iff_exists, leafSym_eq_some]

/-- The flags of STATUS, bit 0 first. -/
theorem statusWord_flag (s : State) (k : Nat) (hk : k < 8) :
    (statusWord s).getLsbD k =
      [statusBusy s, s.err, s.ovr, s.cltValid, statusRootLeaf s, s.inQ.isEmpty, s.outQ.isEmpty, statusDrain s].getD k
        false := by
  show BitVec.getLsbD (w := 13 + 3 + 4 + 4 + 1 + 1 + 1 + 1 + 1 + 1 + 1 + 1) (statusWord s) k = _
  unfold statusWord
  simp only [BitVec.getLsbD_append]
  interval_cases k <;> simp

/-- Above its eight flags STATUS holds PACK_CNT and ERRCODE, with reserved bits over each. -/
theorem statusWord_above_flags (s : State) (start len : Nat) (h : 8 ≤ start) :
    (statusWord s).extractLsb' start len =
      (0#13 ++ BitVec.ofNat 3 s.packCnt.val ++ 0#4 ++ errCodeBits s.errcode).extractLsb' (start - 8) len := by
  show BitVec.extractLsb' (n := 13 + 3 + 4 + 4 + 1 + 1 + 1 + 1 + 1 + 1 + 1 + 1) start len (statusWord s) = _
  unfold statusWord
  simp (disch := omega) only [BitVec.extractLsb'_append_eq_of_le, Nat.sub_sub]

theorem statusWord_errcode (s : State) : (statusWord s).extractLsb' 8 4 = errCodeBits s.errcode := by
  rw [statusWord_above_flags s 8 4 (by decide)]
  exact BitVec.extractLsb'_append_eq_right

theorem statusWord_packCnt (s : State) : ((statusWord s).extractLsb' 16 3).toNat = s.packCnt.val := by
  rw [statusWord_above_flags s 16 3 (by decide)]
  simp (disch := decide) only [BitVec.extractLsb'_append_eq_of_le, BitVec.extractLsb'_append_eq_of_add_le]
  simp

theorem statusWord_reserved (s : State) :
    (statusWord s).extractLsb' 12 4 = 0 ∧ (statusWord s).extractLsb' 19 13 = 0 := by
  rw [statusWord_above_flags s 12 4 (by decide), statusWord_above_flags s 19 13 (by decide)]
  simp (disch := decide) only [BitVec.extractLsb'_append_eq_of_le, BitVec.extractLsb'_append_eq_of_add_le]
  simp

/-- Settles O43: the closed parts by evaluation, the fields by the lemmas about `statusWord`. -/
theorem statusFields : Obligations.StatusFields := by
  refine ⟨by decide, by decide, fun s => ?_⟩
  have flag := statusWord_flag s
  refine ⟨?busy, flag 1 (by decide), flag 2 (by decide), flag 3 (by decide), ?rootLeaf, ?inEmpty, ?outEmpty, ?drain,
    statusWord_errcode s, (statusWord_reserved s).1, statusWord_packCnt s, (statusWord_reserved s).2⟩
  case busy => rw [flag 0 (by decide)]; exact statusBusy_iff
  case rootLeaf => rw [flag 4 (by decide)]; exact statusRootLeaf_iff
  case inEmpty => rw [flag 5 (by decide)]; exact List.isEmpty_iff
  case outEmpty => rw [flag 6 (by decide)]; exact List.isEmpty_iff
  case drain => rw [flag 7 (by decide)]; exact statusDrain_iff

/-! ### PARAM and FIFO_LEVEL (R22, R44) -/

/-- The two halves of a word that holds two 16-bit numbers, as PARAM and FIFO_LEVEL do. -/
theorem halves_toNat {hi lo : Nat} (hhi : hi ≤ 65535) (hlo : lo ≤ 65535) :
    ((BitVec.ofNat 16 hi ++ BitVec.ofNat 16 lo).extractLsb' 0 16).toNat = lo ∧
    ((BitVec.ofNat 16 hi ++ BitVec.ofNat 16 lo).extractLsb' 16 16).toNat = hi := by
  rw [BitVec.extractLsb'_append_eq_right, BitVec.extractLsb'_append_eq_left]
  simp only [BitVec.toNat_ofNat]
  omega

/-- Settles O44: depths and levels are 16-bit numbers, by R10's bounds and R43's. -/
theorem paramAndFifoLevel : Obligations.ParamAndFifoLevel := by
  refine ⟨fun _ => halves_toNat Config.outDepth_le Config.inDepth_le, fun s h => ?_, by decide⟩
  obtain ⟨hin, hout⟩ := h
  exact halves_toNat (hout.trans Config.outDepth_le) (hin.trans Config.inDepth_le)

end Sys2Proof.Machine
end

section
/-! What an engine step can do (45_control R213, R218): every engine step that answers has an effect of a short list on
the block and then sets the engine state, perhaps with an error recorded. The writers of a register and the invariants
of the buffers and the packer are read off this list. -/

namespace Sys2Proof.Machine

/-! ### The list of effects -/

/-- What a start step or a beat does to the block before it records an error, if it does, and sets the engine state. The
commands that write the tree, the table, RESULT, the code buffer, ENC_LASTBITS and the error state are named, and every
push comes with the room for it (R219). -/
inductive EngineEffect (s : State) : State → Prop
  /-- NOP, ENCODE's start, a command that only raises, and a step that is not enabled. -/
  | none : EngineEffect s s
  /-- CLEAR_ERR (R211). -/
  | errorCleared (h : starts s .clearErr) : EngineEffect s (clearError s)
  /-- TREE_CLEAR (R130) and the commit of TREE_INSERT (R137). -/
  | treeWritten (h : starts s .treeClear ∨ ∃ sym len, starts s (.treeInsert sym len))
      (a : Vector Node Config.nodeCap) (n : Nat) (m : Vector Bool Config.nsym) :
      EngineEffect s { s with arena := a, nodeCount := n, leafmap := m, cltValid := false }
  /-- WALK (R151). -/
  | tableFilled (emit : Bool) (h : starts s (.walk emit)) (t : Vector (Option Code) Config.nsym) :
      EngineEffect s { s with clt := t, cltValid := true }
  /-- LOOKUP with a valid table (R158). -/
  | lookedUp (sym : Byte) (h : starts s (.lookup sym)) (r : Word) (c : Vector Word 8) :
      EngineEffect s { s with result := r, codeBuf := c }
  /-- FLUSH (R176). -/
  | flushed (h : starts s .flush) (room : (flushBytes s).length ≤ outFree s) :
      EngineEffect s { outPushAll (flushBytes s) s with
        encLastbits := s.encBitcount, encBitcount := 0, packAcc := 0, packCnt := 0 }
  /-- ENC_RESET (R178). -/
  | packerReset (h : starts s .encReset) : EngineEffect s { s with packAcc := 0, packCnt := 0, encBitcount := 0 }
  /-- DECODE's start (R191). -/
  | symcountReset (h : starts s .decode) : EngineEffect s { s with decSymcount := 0 }
  /-- A beat that takes a byte and emits nothing: a discarded byte (R214), a byte ENCODE has no code for (R172). -/
  | taken (b : Byte) (rest : List Byte) (h : s.inQ = b :: rest) : EngineEffect s { s with inQ := rest }
  /-- An ENCODE beat that appends a code (R172). -/
  | encoded (b : Byte) (rest : List Byte) (c : Code) (h : s.inQ = b :: rest)
      (fits : s.encBitcount.toNat + c.length ≤ Config.countMax) (room : (s.packCnt.val + c.length) / 8 ≤ outFree s) :
      EngineEffect s { putBits c { s with inQ := rest } with
        encBitcount := s.encBitcount + BitVec.ofNat 32 c.length }
  /-- A DECODE beat (R193). -/
  | decoded (b : Byte) (rest syms : List Byte) (h : s.inQ = b :: rest) (room : syms.length ≤ outFree s) :
      EngineEffect s (pushSyms syms { s with inQ := rest })
  /-- A beat of a root-is-leaf DECODE (R194). -/
  | leafDecoded (sym : Byte) (room : 1 ≤ outFree s) : EngineEffect s (pushSyms [sym] s)
  /-- A WALK beat (R153). -/
  | recordPushed (r : Record) (room : recordSize r ≤ outFree s) : EngineEffect s (outPushAll (recordBytes r) s)

/-- `t` is `s` after an effect of an engine step, the error it records, if any, and its setting of the engine state. -/
def EngineMoves (s t : State) : Prop :=
  ∃ u g, EngineEffect s u ∧ (t = setEngine g u ∨ ∃ e w, t = setEngine g (raise e w u))

variable {s t u : State}

/-- A step that ends without an error. -/
theorem EngineEffect.done (he : EngineEffect s u) {g : Engine}
    (h : (.next (setEngine g u) : StepResult) = .next t) : EngineMoves s t := by
  cases h
  exact ⟨u, g, he, .inl rfl⟩

/-- A step that ends with an error. -/
theorem EngineEffect.failed (he : EngineEffect s u) {e : ErrCode} {w : Word} {g : Engine}
    (h : failWith e w g u = .next t) : EngineMoves s t :=
  ⟨u, g, he, .inr ⟨e, w, failWith_next h⟩⟩

/-- A step that is not enabled (R218, log 3). -/
theorem EngineMoves.stay (h : (.next s : StepResult) = .next t) : EngineMoves s t :=
  EngineEffect.none.done (g := s.engine) h

/-- An error recorded is seen in the error state only. -/
theorem raise_frame (e : ErrCode) (w : Word) (s : State) :
    raise e w s =
      { s with err := (raise e w s).err, errcode := (raise e w s).errcode, errInfo := (raise e w s).errInfo } := by
  unfold raise; split <;> rfl

/-- But for the engine state and the error state, what an engine step leaves is its effect. -/
theorem EngineMoves.frame (hm : EngineMoves s t) :
    ∃ u, EngineEffect s u ∧
      t = { u with engine := t.engine, err := t.err, errcode := t.errcode, errInfo := t.errInfo } := by
  obtain ⟨u, g, he, rfl | ⟨e, w, rfl⟩⟩ := hm
  · exact ⟨u, he, rfl⟩
  · exact ⟨u, he, congrArg (setEngine g) (raise_frame e w u)⟩

/-! ### The start steps -/

theorem execTreeInsert_moves {sym : Byte} {len : Nat} (hs : starts s (.treeInsert sym len))
    (h : execTreeInsert sym len s = .next t) : EngineMoves s t := by
  have commit : ∀ a n, insertDone sym a n s = .next t → EngineMoves s t := fun a n h =>
    (EngineEffect.treeWritten (.inr ⟨sym, len, hs⟩) a n _).done (g := .idle) h
  obtain ⟨L, -, h⟩ := startStep_next h
  split at h
  · exact EngineEffect.none.failed h
  · unfold insertAfterWalk at h
    split at h
    · exact EngineEffect.none.failed h
    · split at h
      · exact EngineEffect.none.failed h
      · exact commit _ _ h
      · exact EngineEffect.none.failed h
      · cases h
    · split at h
      · exact EngineEffect.none.failed h
      · exact commit _ _ h
    · cases h

theorem execWalk_moves {emit : Bool} (hs : starts s (.walk emit)) (h : execWalk emit s = .next t) :
    EngineMoves s t := by
  obtain ⟨L, -, h⟩ := startStep_next h
  split at h
  · cases h
  · exact (EngineEffect.tableFilled emit hs _).done h

theorem execLookup_moves {sym : Byte} (hs : starts s (.lookup sym)) (h : execLookup sym s = .next t) :
    EngineMoves s t := by
  have answer := EngineEffect.lookedUp sym hs
  obtain ⟨L, -, h⟩ := startStep_next h
  split at h
  · split at h
    next c _ => exact (answer (resultWord c) (codeBufOf c)).done (g := .idle) h
    next => exact (answer 0 (Vector.replicate 8 0)).done (g := .idle) h
  · exact EngineEffect.none.failed h

theorem execEncode_moves (h : execEncode s = .next t) : EngineMoves s t := by
  obtain ⟨L, -, h⟩ := startStep_next h
  split at h
  · exact EngineEffect.none.done h
  · exact EngineEffect.none.failed h

theorem execFlush_moves (hs : starts s .flush) (h : execFlush s = .next t) : EngineMoves s t := by
  obtain ⟨L, -, h⟩ := startStep_next h
  split at h
  next ready => exact (EngineEffect.flushed hs (of_decide_eq_true ready)).done (g := .idle) h
  next => exact .stay h

theorem execDecode_moves (hs : starts s .decode) (h : execDecode s = .next t) : EngineMoves s t := by
  have start := EngineEffect.symcountReset hs
  obtain ⟨L, -, h⟩ := startStep_next h
  dsimp only at h
  split at h
  · split at h
    · exact start.failed h
    · exact start.done h
  · exact start.done h

/-- A command that starts does what the list says of it. -/
theorem exec_moves {i : Instr} (hs : starts s i) (h : exec i s = .next t) : EngineMoves s t := by
  have hcmd : i.format = .cmd32 := by
    obtain ⟨L, -, hd⟩ := hs
    exact (decodeCmd_wellFormed hd).2
  cases i with
  | nop =>
    obtain ⟨L, -, h⟩ := startStep_next h
    exact EngineEffect.none.done h
  | treeClear =>
    obtain ⟨L, -, h⟩ := startStep_next h
    exact (EngineEffect.treeWritten (.inl hs) _ _ _).done (g := .idle) h
  | treeInsert sym len => exact execTreeInsert_moves hs h
  | walk emit => exact execWalk_moves hs h
  | lookup sym => exact execLookup_moves hs h
  | encode => exact execEncode_moves h
  | flush => exact execFlush_moves hs h
  | decode => exact execDecode_moves hs h
  | clearErr =>
    obtain ⟨L, -, h⟩ := startStep_next h
    exact (EngineEffect.errorCleared hs).done h
  | encReset =>
    obtain ⟨L, -, h⟩ := startStep_next h
    exact (EngineEffect.packerReset hs).done (g := .idle) h
  | softReset => cases hcmd
  | abort => cases hcmd

theorem startCommand_moves {L : Latched} (hL : s.engine = .pending L) (h : startCommand L s = .next t) :
    EngineMoves s t := by
  unfold startCommand at h
  split at h
  next hd => exact exec_moves ⟨L, hL, hd⟩ h
  next =>
    split at h
    · exact EngineEffect.none.failed h
    · exact .stay h

/-! ### The beats -/

theorem encByte_moves {L : Latched} {rem j : Nat} {b : Byte} {rest : List Byte} (hq : s.inQ = b :: rest)
    (room : encPushes (s.clt.get (symIdx b)) s ≤ outFree s)
    (h : encByte L rem j b { s with inQ := rest } = .next t) : EngineMoves s t := by
  have take := EngineEffect.taken b rest hq
  unfold encByte at h
  split at h
  next => exact take.failed h
  next c hc =>
    split at h
    next => exact take.failed h
    next hfit =>
      have fits : s.encBitcount.toNat + c.length ≤ Config.countMax := Nat.not_lt.mp hfit
      have hc : s.clt.get (symIdx b) = some c := hc
      rw [hc, encPushes_fits fits] at room
      exact (EngineEffect.encoded b rest c hq fits room).done h

theorem encBeat_moves {L : Latched} {rem j : Nat} (h : encBeat L rem j s = .next t) : EngineMoves s t := by
  unfold encBeat at h
  split at h
  next => exact .stay h
  next b rest hq =>
    split at h
    next room => exact encByte_moves hq room h
    next => exact .stay h

theorem decFinish_moves {L : Latched} {remBits : Nat} {scan : Scan} (he : EngineEffect s u)
    (h : decFinish L remBits scan u = .next t) : EngineMoves s t := by
  unfold decFinish at h
  dsimp only at h
  split at h
  · exact he.failed h
  · exact he.failed h
  · cases h
  · split at h
    · split at h
      · exact he.failed h
      · exact he.done h
    · exact he.done h

theorem decBeat_moves {L : Latched} {remBits i start : Nat} {cur : NodeIdx}
    (h : decBeat L remBits i cur start s = .next t) : EngineMoves s t := by
  unfold decBeat at h
  split at h
  next => exact .stay h
  next b rest hq =>
    dsimp only at h
    split at h
    next room => exact decFinish_moves (.decoded b rest _ hq room) h
    next => exact .stay h

theorem decLeafBeat_moves {L : Latched} {rem : Nat} {sym : Byte} (h : decLeafBeat L rem sym s = .next t) :
    EngineMoves s t := by
  unfold decLeafBeat at h
  split at h
  next room => exact (EngineEffect.leafDecoded sym room).done h
  next => exact .stay h

theorem walkBeat_moves {L : Latched} {q : List Record} (h : walkBeat L q s = .next t) : EngineMoves s t := by
  unfold walkBeat at h
  split at h
  next => exact .stay h
  next r rest =>
    split at h
    next room => exact (EngineEffect.recordPushed r room).done h
    next => exact .stay h

theorem drainBeat_moves {L : Latched} {rem : Nat} (h : drainBeat L rem s = .next t) : EngineMoves s t := by
  unfold drainBeat at h
  split at h
  next => exact .stay h
  next b rest hq => exact (EngineEffect.taken b rest hq).done h

/-- Every engine step that answers has an effect of the list. -/
theorem engineStep_moves (h : engineStep s = .next t) : EngineMoves s t := by
  unfold engineStep at h
  split at h
  next => exact .stay h
  next hL => exact startCommand_moves hL h
  next => exact encBeat_moves h
  next => exact decBeat_moves h
  next => exact decLeafBeat_moves h
  next => exact walkBeat_moves h
  next => exact drainBeat_moves h

end Sys2Proof.Machine
end

section
/-! What a host step can do (20_memory R62 to R67, 30_encoding R94, 45_control R212, 70_reset R290), and what a step of
either agent keeps. -/

namespace Sys2Proof.Machine

/-! ### The list of effects -/

/-- What a host step does to the block, once the host has seen its answer. -/
inductive HostEffect (a : HostStep) (s : State) : State → Prop
  /-- A read (R62), a bus error (R63), a write that is ignored or refused (R64, R94, R212, R217), a
  blocked push or pop. -/
  | none : HostEffect a s s
  /-- A push into in_q with room (R66). -/
  | pushed (b : Byte) (room : s.inQ.length < Config.inDepth) : HostEffect a s { s with inQ := s.inQ ++ [b] }
  /-- A pop of out_q (R67). -/
  | popped (b : Byte) (rest : List Byte) (h : s.outQ = b :: rest) : HostEffect a s { s with outQ := rest }
  /-- A write of ARG0, ARG1 or one CODEk (R217). -/
  | operandWritten (x y : Word) (c : Vector Word 8) : HostEffect a s { s with arg0 := x, arg1 := y, codeBuf := c }
  /-- A CMD write while busy (R212). -/
  | overrun : HostEffect a s { s with ovr := true }
  /-- A CMD write that is latched (R212). -/
  | latched (L : Latched) : HostEffect a s (setEngine (.pending L) s)
  /-- ABORT of a command (R216). -/
  | aborted (L : Latched) (h : latched? s.engine = some L) :
      HostEffect a s (setEngine .idle (raise .aborted L.word s))
  /-- The reset action (R290). -/
  | blockReset (h : resetsBlock a = true) : HostEffect a s (blockReset s)

variable {a : HostStep} {s t : State}

theorem writePlainReg_effect (r : Reg) (v : Word) : HostEffect a s (writePlainReg r v s) := by
  cases r with
  | arg0 => exact .operandWritten v s.arg1 s.codeBuf
  | arg1 => exact .operandWritten s.arg0 v s.codeBuf
  | code k => exact .operandWritten s.arg0 s.arg1 _
  | _ => exact .none

theorem cmdWrite_effect (w : Word) : HostEffect a s (cmdWrite w s) := by
  unfold cmdWrite
  split
  · exact .overrun
  · split
    · exact .none
    · exact .latched _

/-- A CTRL write with bit 0 set resets the block, any other aborts or does nothing (R94). -/
theorem ctrlWrite_effect {v : Word} (hreset : v.getLsbD 0 = true → resetsBlock a = true)
    (h : ctrlWrite v s = .next t) : HostEffect a s t := by
  unfold ctrlWrite decodeCtrl at h
  by_cases h0 : v.getLsbD 0 = true
  · rw [if_pos h0] at h
    cases h
    exact .blockReset (hreset h0)
  · rw [if_neg h0] at h
    by_cases h1 : v.getLsbD 1 = true
    · rw [if_pos h1] at h
      change execAbort s = .next t at h
      unfold execAbort at h
      split at h <;> cases h
      next => exact .none
      next L hL => exact .aborted L hL
    · rw [if_neg h1] at h
      cases h
      exact .none

theorem memWrite_effect {addr : BitVec 7} {n : Nat} {strb : BitVec 4} {v : Word}
    (h : memWrite addr n strb v s = .next t) : ∃ r, HostEffect (.write addr n strb v) (respond r s) t := by
  unfold memWrite at h
  split at h
  next ok =>
    obtain ⟨hacc, hstrb⟩ := ok
    obtain ⟨hn, -⟩ := of_decide_eq_true hacc
    refine ⟨.written, ?_⟩
    unfold writeEffect at h
    split at h
    next => cases h; exact .none
    next hr =>
      refine ctrlWrite_effect (fun h0 => ?_) h
      simp [resetsBlock, regAt_eq_some.mp hr, hn, hstrb, h0]
    next => cases h; exact cmdWrite_effect v
    next r _ _ _ => cases h; exact writePlainReg_effect r v
  next => cases h; exact ⟨.busError, .none⟩

/-- Every host step that answers has an effect of the list. -/
theorem hostStep_effect (h : hostStep a s = .next t) : ∃ r, HostEffect a (respond r s) t := by
  cases a with
  | read addr n => cases h; exact ⟨_, .none⟩
  | write addr n strb v => exact memWrite_effect h
  | push b =>
    cases h
    unfold hostPush
    split
    next room => exact ⟨.pushed, .pushed b (of_decide_eq_true room)⟩
    next => exact ⟨.pushBlocked, .none⟩
  | pop =>
    cases h
    unfold hostPop
    split
    next => exact ⟨.popBlocked, .none⟩
    next b rest hq => exact ⟨.popped b, .popped b rest hq⟩
  | reset => cases h; exact ⟨.resetDone, .blockReset rfl⟩

/-! ### A step of either agent -/

/-- A step is a step of the engine or of the host, once its turn is taken. -/
theorem step_agent (h : step s = .next t) :
    ∃ ts, engineStep { s with turns := ts } = .next t ∨ ∃ a, hostStep a { s with turns := ts } = .next t := by
  cases hts : s.turns with
  | nil => exact ⟨s.turns, .inl ((step_engine hts).symm.trans h)⟩
  | cons x ts =>
    cases x with
    | engine => exact ⟨ts, .inl ((step_engineTurn hts).symm.trans h)⟩
    | host a => exact ⟨ts, .inr ⟨a, (step_hostTurn hts).symm.trans h⟩⟩

/-- What each effect keeps, and neither the engine state, the error state nor the agents' own fields bear on, every step
keeps. -/
theorem step_keeps {P : State → Prop}
    (frame : ∀ u g b c w ts rs, P u →
      P { u with engine := g, err := b, errcode := c, errInfo := w, turns := ts, responses := rs })
    (engine : ∀ s u, P s → EngineEffect s u → P u) (host : ∀ a s u, P s → HostEffect a s u → P u) (hs : P s)
    (h : step s = .next t) : P t := by
  obtain ⟨ts, h | ⟨a, h⟩⟩ := step_agent h
  · obtain ⟨u, he, ht⟩ := (engineStep_moves h).frame
    rw [ht]
    exact frame u _ _ _ _ u.turns u.responses (engine _ u (frame s _ _ _ _ ts _ hs) he)
  · obtain ⟨r, he⟩ := hostStep_effect h
    exact host a _ t (frame s _ _ _ _ ts _ hs) he

/-! ### The writers of the operand registers, RESULT and ENC_LASTBITS (R26 to R28, R38, R45) -/

/-- Settles O54: no effect of an engine step writes ARG0 or ARG1, and only LOOKUP's writes the code buffer. -/
theorem operandRegistersAreTheHosts : Obligations.OperandRegistersAreTheHosts := by
  intro s t h
  obtain ⟨u, he, ht⟩ := (engineStep_moves h).frame
  rw [ht]
  cases he with
  | lookedUp sym hs r c => exact ⟨rfl, rfl, fun _ => ⟨sym, hs⟩⟩
  | _ => simp

/-- Settles O52: of the engine's effects only LOOKUP's writes RESULT and only FLUSH's writes ENC_LASTBITS; of the host's
only a reset writes either. -/
theorem writersOfResultAndLastbits : Obligations.WritersOfResultAndLastbits := by
  constructor
  · intro s t h
    obtain ⟨u, he, ht⟩ := (engineStep_moves h).frame
    rw [ht]
    cases he with
    | lookedUp sym hs r c => exact ⟨fun _ => ⟨sym, hs⟩, fun hne => absurd rfl hne⟩
    | flushed hs room => exact ⟨fun hne => absurd rfl hne, fun _ => ⟨hs, rfl⟩⟩
    | _ => simp
  · intro a s t h hreset
    obtain ⟨r, he⟩ := hostStep_effect h
    cases he with
    | blockReset hr => rw [hreset] at hr; cases hr
    | _ => simp

/-! ### The capacity of the stream buffers (R43) -/

/-- `PutBit` counts modulo 8 and pushes a byte for every eighth bit, whatever the packer holds (R173). -/
theorem putBit_count (x : Bool) (s : State) :
    (putBit x s).packCnt.val = (s.packCnt.val + 1) % 8 ∧
    (putBit x s).outQ.length = s.outQ.length + (s.packCnt.val + 1) / 8 := by
  have := s.packCnt.isLt
  unfold putBit
  dsimp only
  split
  · dsimp only; omega
  · rw [show s.packCnt.val + 1 = 8 by omega]
    simp

/-- The bytes a code completes (R173); `putBits_outQ_length` without its premise on the unused bits. -/
theorem putBits_pushed_count (xs : List Bool) (s : State) :
    (putBits xs s).outQ.length = s.outQ.length + (s.packCnt.val + xs.length) / 8 := by
  induction xs generalizing s with
  | nil => have := s.packCnt.isLt; simp only [putBits, List.length_nil]; omega
  | cons x xs ih =>
    obtain ⟨hcnt, hlen⟩ := putBit_count x s
    rw [putBits, ih, hcnt, hlen, List.length_cons]
    omega

@[simp] theorem recordBytes_length (r : Record) : (recordBytes r).length = recordSize r := by
  simp [recordBytes, recordSize]; omega

/-- A push that fits the free room of out_q keeps its capacity (R219). -/
theorem length_add_le_outDepth {n : Nat} (h : QueuesOk s) (room : n ≤ outFree s) :
    s.outQ.length + n ≤ Config.outDepth := by
  have := h.2
  unfold outFree at room
  omega

theorem EngineEffect.queuesOk {u : State} (h : QueuesOk s) (he : EngineEffect s u) : QueuesOk u := by
  have fits : ∀ {n}, n ≤ outFree s → s.outQ.length + n ≤ Config.outDepth := length_add_le_outDepth h
  obtain ⟨hin, hout⟩ := h
  have shorter {b : Byte} {rest : List Byte} (hq : s.inQ = b :: rest) : rest.length ≤ Config.inDepth := by
    rw [hq] at hin; exact (Nat.le_succ _).trans hin
  cases he with
  | flushed _ room => exact ⟨hin, by simpa using fits room⟩
  | taken b rest hq => exact ⟨shorter hq, hout⟩
  | encoded b rest c hq _ room => exact ⟨by simpa using shorter hq, by simpa [putBits_pushed_count] using fits room⟩
  | decoded b rest syms hq room => exact ⟨shorter hq, by simpa using fits room⟩
  | leafDecoded sym room => exact ⟨hin, by simpa using fits room⟩
  | recordPushed r room => exact ⟨hin, by simpa using fits room⟩
  | _ => exact ⟨hin, hout⟩

theorem HostEffect.queuesOk {u : State} (h : QueuesOk s) (he : HostEffect a s u) : QueuesOk u := by
  obtain ⟨hin, hout⟩ := h
  cases he with
  | pushed b room => exact ⟨by simpa using room, hout⟩
  | popped b rest hq =>
    rw [hq] at hout
    exact ⟨hin, (Nat.le_succ _).trans hout⟩
  | aborted L _ => exact ⟨by simpa using hin, by simpa using hout⟩
  | blockReset _ => exact ⟨Nat.zero_le _, Nat.zero_le _⟩
  | _ => exact ⟨hin, hout⟩

/-- Settles O49: every push of either agent comes with the room for it. -/
theorem stepKeepsQueueCapacity : Obligations.StepKeepsQueueCapacity := fun _ _ hs h =>
  step_keeps (fun _ _ _ _ _ _ _ hu => hu) (fun _ _ => EngineEffect.queuesOk) (fun _ _ _ => HostEffect.queuesOk) hs h

/-! ### The packer (R36, R47 item 6) -/

/-- An empty packer and a count of 0. -/
theorem packOk_empty (hacc : s.packAcc = 0) (hcnt : s.packCnt = 0) (hbits : s.encBitcount = 0) : PackOk s := by
  simp [PackOk, hacc, hcnt, hbits]

/-- Appending a code keeps the packer in step with the count of bits (R172 to R174), even modulo 2 ^ 32. -/
theorem packOk_putBits {c : Code} (h : PackOk s) :
    PackOk { putBits c s with encBitcount := s.encBitcount + BitVec.ofNat 32 c.length } := by
  obtain ⟨hlow, hcnt⟩ := h
  obtain ⟨hlow', hcnt', -, -⟩ := putBits_closed c s hlow
  refine ⟨hlow', ?_⟩
  simp only [hcnt', hcnt, BitVec.toNat_add, BitVec.toNat_ofNat]
  omega

theorem EngineEffect.packOk {u : State} (h : PackOk s) (he : EngineEffect s u) : PackOk u := by
  cases he with
  | flushed _ _ => exact packOk_empty rfl rfl rfl
  | packerReset _ => exact packOk_empty rfl rfl rfl
  | encoded b rest c _ _ _ => exact packOk_putBits (s := { s with inQ := rest }) h
  | _ => exact h

theorem HostEffect.packOk {u : State} (h : PackOk s) (he : HostEffect a s u) : PackOk u := by
  cases he with
  | aborted L _ => simpa [PackOk] using h
  | blockReset _ => exact packOk_empty rfl rfl rfl
  | _ => exact h

/-- Settles O50: the packer changes only where it is emptied, or a code is appended and counted. -/
theorem stepKeepsPacker : Obligations.StepKeepsPacker := fun _ _ hs h =>
  step_keeps (fun _ _ _ _ _ _ _ hu => hu) (fun _ _ => EngineEffect.packOk) (fun _ _ _ => HostEffect.packOk) hs h

end Sys2Proof.Machine
end

section
/-! Packed bytes read back as bits (20_memory R69, R70). -/

namespace Sys2Proof.Machine

theorem unpackBits_cons (b : Byte) (bs : List Byte) : unpackBits (b :: bs) = byteBits b ++ unpackBits bs :=
  List.flatMap_cons

/-- Reading back is undone byte by byte: eight bits of the sequence are one byte, and the rest, if any, is padded
to one. -/
theorem unpackBits_packBits (bits : List Bool) :
    unpackBits (packBits bits) = bits ++ List.replicate (8 * ceil8 bits.length - bits.length) false := by
  rcases Nat.lt_or_ge bits.length 8 with hlt | hge
  · by_cases hne : bits = []
    · subst hne; simp [unpackBits, ceil8]
    · have hpos : 0 < bits.length := List.length_pos_iff.mpr hne
      have hone : ceil8 bits.length = 1 := by rw [ceil8_eq]; omega
      rw [packBits_short bits hne hlt, unpackBits_cons, byteBits_wordOfBits _ (by simp; omega), hone]
      exact List.append_nil _
  · have hlen : (bits.take 8).length = 8 := List.length_take_of_le hge
    have hpack : packBits bits = wordOfBits 8 (bits.take 8) :: packBits (bits.drop 8) := by
      rw [← packBits_eight _ _ hlen, List.take_append_drop]
    have hpad : 8 * ceil8 (bits.drop 8).length - (bits.drop 8).length = 8 * ceil8 bits.length - bits.length := by
      rw [List.length_drop, ceil8_eq, ceil8_eq]; omega
    rw [hpack, unpackBits_cons, byteBits_wordOfBits _ hlen, unpackBits_packBits (bits.drop 8), hpad,
      ← List.append_assoc, List.take_append_drop]
termination_by bits.length
decreasing_by rw [List.length_drop]; omega

/-- Settles O25, by induction on the bits, eight at a time. -/
theorem packThenUnpack : Obligations.PackThenUnpack := unpackBits_packBits

end Sys2Proof.Machine
end

section
/-! The stream buffers, as the engine moves them (10_state R43, 45_control R219) and as the host does (20_memory R66,
R67). -/

namespace Sys2Proof.Machine

variable {s t u : State}

/-! ### The engine -/

theorem putBit_outQ_prefix (x : Bool) (s : State) : s.outQ <+: (putBit x s).outQ := by
  unfold putBit
  dsimp only
  split
  · exact List.prefix_rfl
  · exact List.prefix_append _ _

/-- The packer only appends to out_q (R173), whatever it holds. -/
theorem putBits_outQ_prefix (xs : List Bool) (s : State) : s.outQ <+: (putBits xs s).outQ := by
  induction xs generalizing s with
  | nil => exact List.prefix_rfl
  | cons x xs ih => exact (putBit_outQ_prefix x s).trans (ih _)

/-- What an engine step pushes goes behind what out_q holds. -/
theorem EngineEffect.outQ_prefix (he : EngineEffect s u) : s.outQ <+: u.outQ := by
  cases he with
  | flushed _ _ => exact List.prefix_append _ _
  | encoded b rest c _ _ _ => exact putBits_outQ_prefix c { s with inQ := rest }
  | decoded b rest syms _ _ => exact List.prefix_append _ _
  | leafDecoded sym _ => exact List.prefix_append _ _
  | recordPushed r _ => exact List.prefix_append _ _
  | _ => exact List.prefix_rfl

/-- An engine step takes no input byte, or the oldest one. -/
theorem EngineEffect.inQ_taken (he : EngineEffect s u) : u.inQ = s.inQ ∨ ∃ b, s.inQ = b :: u.inQ := by
  cases he with
  | taken b rest hq => exact .inr ⟨b, hq⟩
  | encoded b rest c hq _ _ => exact .inr ⟨b, by simpa using hq⟩
  | decoded b rest syms hq _ => exact .inr ⟨b, hq⟩
  | _ => exact .inl rfl

/-- Settles O56: so does every effect of an engine step. -/
theorem engineStepMovesWholeBytes : Obligations.EngineStepMovesWholeBytes := by
  intro s t h
  obtain ⟨u, he, ht⟩ := (engineStep_moves h).frame
  obtain ⟨bs, hbs⟩ := he.outQ_prefix
  rw [ht]
  exact ⟨⟨bs, hbs.symm⟩, he.inQ_taken⟩

/-! ### The host -/

theorem inTready_iff : inTready s = true ↔ s.inQ.length < Config.inDepth := decide_eq_true_iff

theorem hostPush_room (b : Byte) (h : s.inQ.length < Config.inDepth) :
    hostPush b s = respond .pushed { s with inQ := s.inQ ++ [b] } := if_pos (inTready_iff.mpr h)

theorem hostPush_full (b : Byte) (h : Config.inDepth ≤ s.inQ.length) : hostPush b s = respond .pushBlocked s :=
  if_neg (mt inTready_iff.mp (Nat.not_lt.mpr h))

theorem hostPop_cons {b : Byte} {rest : List Byte} (h : s.outQ = b :: rest) :
    hostPop s = respond (.popped b) { s with outQ := rest } := by
  unfold hostPop; rw [h]

theorem hostPop_empty (h : s.outQ = []) : hostPop s = respond .popBlocked s := by
  unfold hostPop; rw [h]

/-- Settles O45: a push and a pop with and without a transfer. -/
theorem pushAndPop : Obligations.PushAndPop := fun _ b =>
  ⟨fun h => congrArg _ (hostPush_room b h), fun h => congrArg _ (hostPush_full b h),
    fun _ h => congrArg _ (hostPop_cons h), fun h => congrArg _ (hostPop_empty h)⟩

end Sys2Proof.Machine
end

section
/-! The bus: which accesses it accepts, and what a read answers (20_memory R62 to R64). -/

namespace Sys2Proof.Machine

variable {s : State} {addr : BitVec 7} {n : Nat}

/-! ### The accesses the block accepts (R63) -/

theorem accessOk_iff : accessOk addr n = true ↔ n = 4 ∧ addr.toNat % 4 = 0 := decide_eq_true_iff

theorem memRead_busError (h : accessOk addr n = false) : memRead addr n s = .busError := by
  unfold memRead; rw [h]; rfl

theorem memWrite_busError {strb : BitVec 4} {v : Word} (h : accessOk addr n = false ∨ strb ≠ 0b1111#4) :
    memWrite addr n strb v s = .next (respond .busError s) := by
  refine if_neg fun ⟨hacc, hstrb⟩ => ?_
  rcases h with h | h
  · rw [h] at hacc; cases hacc
  · exact h hstrb

/-- An aligned write of a whole word is answered and has the effect its offset gives it (R62). -/
theorem memWrite_word {v : Word} (h : addr.toNat % 4 = 0) :
    memWrite addr 4 0b1111#4 v s = writeEffect addr v (respond .written s) :=
  if_pos ⟨accessOk_iff.mpr ⟨rfl, h⟩, rfl⟩

/-! ### Registers and reserved offsets (R20, R64) -/

/-- Registers stand at multiples of 4 below the second reserved range and not at the first. -/
theorem regOffset_range (r : Reg) :
    (regOffset r).toNat % 4 = 0 ∧ (regOffset r).toNat ≠ 0x3C ∧ (regOffset r).toNat < 0x60 := by
  cases r with
  | code k => revert k; decide
  | _ => decide

theorem memRead_regOffset (r : Reg) (s : State) : memRead (regOffset r) 4 s = .rdata (readReg r s) := by
  unfold memRead
  rw [if_pos (accessOk_iff.mpr ⟨rfl, (regOffset_range r).1⟩), regAt_regOffset]

theorem memRead_unmapped (halign : addr.toNat % 4 = 0) (hreg : regAt addr = none) : memRead addr 4 s = .rdata 0 := by
  unfold memRead
  rw [if_pos (accessOk_iff.mpr ⟨rfl, halign⟩), hreg]

theorem writeEffect_unmapped {v : Word} (hreg : regAt addr = none) : writeEffect addr v s = .next s := by
  unfold writeEffect; rw [hreg]

theorem regAt_reserved (h : addr.toNat = 0x3C ∨ 0x60 ≤ addr.toNat) : regAt addr = none := by
  refine Option.eq_none_iff_forall_ne_some.mpr fun r hr => ?_
  obtain ⟨-, hne, hlt⟩ := regOffset_range r
  rw [← regAt_eq_some.mp hr] at hne hlt
  omega

/-- Settles O41: no register answers at a reserved offset. -/
theorem reservedOffsets : Obligations.ReservedOffsets := by
  intro s addr v halign hres
  have hreg : regAt addr = none := regAt_reserved hres
  exact ⟨by rw [hostStep, memRead_unmapped halign hreg],
    by rw [hostStep, memWrite_word halign, writeEffect_unmapped hreg]⟩

/-! ### The two counts (R32, R35) -/

/-- A 9-bit field shows a count up to 511 in full. -/
theorem count9_toNat {n : Nat} (h : n ≤ 511) : (count9 n).toNat = n := by
  simp only [count9, BitVec.toNat_setWidth, BitVec.toNat_ofNat]
  omega

theorem leafCount_le (s : State) : leafCount s ≤ Config.nsym :=
  List.count_le_length.trans_eq s.leafmap.length_toList

/-- Settles O40: a read and a bus error leave the block to `respond`; the values are those of `readReg`. -/
theorem busAccesses : Obligations.BusAccesses := by
  intro s addr n strb v
  refine ⟨⟨_, rfl⟩, fun r => ?register, fun hbad => ?notAligned, fun hstrb => memWrite_busError (.inr hstrb),
    ⟨rfl, rfl, rfl, rfl, rfl, rfl, rfl, rfl⟩, count9_toNat, ?leaves⟩
  case register => rw [hostStep, memRead_regOffset]
  case notAligned =>
    have hacc : accessOk addr n = false := by
      rw [Bool.eq_false_iff, Ne, accessOk_iff]; omega
    exact ⟨by rw [hostStep, memRead_busError hacc], memWrite_busError (.inl hacc)⟩
  case leaves => exact count9_toNat ((leafCount_le s).trans (by decide))

end Sys2Proof.Machine
end

section
/-! The decoder (30_encoding R90 to R93): the opcode map, one equation per opcode, and the words that are illegal. -/

namespace Sys2Proof

/-! ### The opcode map (R91, R92) -/

section
variable (sym len : BitVec 8) (emit : Bool)

theorem decodeCmd_nop : decodeCmd (cmdWord 0x00 sym len emit) = .ok .nop := by
  simp [decodeCmd_cmdWord, decodeOpcode, cmdWord_opcode]

theorem decodeCmd_treeClear : decodeCmd (cmdWord 0x01 sym len emit) = .ok .treeClear := by
  simp [decodeCmd_cmdWord, decodeOpcode, cmdWord_opcode]

theorem decodeCmd_treeInsert : decodeCmd (cmdWord 0x02 sym len emit) = .ok (.treeInsert sym len.toNat) := by
  simp [decodeCmd_cmdWord, decodeOpcode, cmdWord_opcode, cmdWord_sym, cmdWord_len]

theorem decodeCmd_walk : decodeCmd (cmdWord 0x03 sym len emit) = .ok (.walk emit) := by
  simp [decodeCmd_cmdWord, decodeOpcode, cmdWord_opcode, cmdWord_emit]

theorem decodeCmd_lookup : decodeCmd (cmdWord 0x04 sym len emit) = .ok (.lookup sym) := by
  simp [decodeCmd_cmdWord, decodeOpcode, cmdWord_opcode, cmdWord_sym]

theorem decodeCmd_encode : decodeCmd (cmdWord 0x05 sym len emit) = .ok .encode := by
  simp [decodeCmd_cmdWord, decodeOpcode, cmdWord_opcode]

theorem decodeCmd_flush : decodeCmd (cmdWord 0x06 sym len emit) = .ok .flush := by
  simp [decodeCmd_cmdWord, decodeOpcode, cmdWord_opcode]

theorem decodeCmd_decode : decodeCmd (cmdWord 0x07 sym len emit) = .ok .decode := by
  simp [decodeCmd_cmdWord, decodeOpcode, cmdWord_opcode]

theorem decodeCmd_clearErr : decodeCmd (cmdWord 0x08 sym len emit) = .ok .clearErr := by
  simp [decodeCmd_cmdWord, decodeOpcode, cmdWord_opcode]

theorem decodeCmd_encReset : decodeCmd (cmdWord 0x09 sym len emit) = .ok .encReset := by
  simp [decodeCmd_cmdWord, decodeOpcode, cmdWord_opcode]

end

/-- Settles O2: the ten equations of the opcode map. -/
theorem opcodeMapIgnoresUnusedFields : Obligations.OpcodeMapIgnoresUnusedFields := fun sym len emit =>
  ⟨decodeCmd_nop sym len emit, decodeCmd_treeClear sym len emit, decodeCmd_treeInsert sym len emit,
    decodeCmd_walk sym len emit, decodeCmd_lookup sym len emit, decodeCmd_encode sym len emit,
    decodeCmd_flush sym len emit, decodeCmd_decode sym len emit, decodeCmd_clearErr sym len emit,
    decodeCmd_encReset sym len emit⟩

/-- Settles O1: a command's word is a word of its opcode; LEN holds every length up to MAX_CODE_LEN. -/
theorem encodeThenDecode : Obligations.EncodeThenDecode := by
  intro i hi
  cases i with
  | nop => exact decodeCmd_nop 0 0 false
  | treeClear => exact decodeCmd_treeClear 0 0 false
  | treeInsert sym len =>
    have hlen : len ≤ 255 := of_decide_eq_true hi
    have hfield : (BitVec.ofNat 8 len).toNat = len := Nat.mod_eq_of_lt (by omega)
    have hword := decodeCmd_treeInsert sym (BitVec.ofNat 8 len) false
    rwa [hfield] at hword
  | walk emit => exact decodeCmd_walk 0 0 emit
  | lookup sym => exact decodeCmd_lookup sym 0 false
  | encode => exact decodeCmd_encode 0 0 false
  | flush => exact decodeCmd_flush 0 0 false
  | decode => exact decodeCmd_decode 0 0 false
  | clearErr => exact decodeCmd_clearErr 0 0 false
  | encReset => exact decodeCmd_encReset 0 0 false
  | softReset => rfl
  | abort => rfl

/-- Settles O5, by evaluating the decoder on each word. -/
theorem specWordsDecode : Obligations.SpecWordsDecode := by
  unfold Obligations.SpecWordsDecode; decide

/-! ### Illegal words (R93) -/

/-- The opcode map ends at 0x09 (R91). -/
theorem decodeOpcode_error_iff {w : Word} : (∃ r, decodeOpcode w = .error r) ↔ 0x0A ≤ (fieldOpcode w).toNat := by
  unfold decodeOpcode
  split
  case h_11 =>
    simp only [imp_false] at *
    exact iff_of_true ⟨_, rfl⟩ (by omega)
  all_goals exact iff_of_false (fun ⟨_, hr⟩ => nomatch hr) (by omega)

theorem decodeCmd_error_iff {w : Word} :
    (∃ r, decodeCmd w = .error r) ↔ 0x0A ≤ (fieldOpcode w).toNat ∨ fieldRsvd w ≠ 0 := by
  unfold decodeCmd
  split
  next hrsvd => rw [decodeOpcode_error_iff, or_iff_left (not_not_intro hrsvd)]
  next hrsvd => exact iff_of_true ⟨_, rfl⟩ (.inr hrsvd)

end Sys2Proof
end

section
/-! The start of an illegal word (30_encoding R93) and the effect of a CTRL write (R94). -/

namespace Sys2Proof.Machine

/-- Settles O3: `decodeCmd_error_iff`, and the start step of a word that does not decode. -/
theorem illegalWordRaises : Obligations.IllegalWordRaises := by
  refine ⟨fun w => decodeCmd_error_iff, fun s L hpending hillegal hroom => ?_⟩
  obtain ⟨r, hr⟩ := decodeCmd_error_iff.mpr hillegal
  have hready : startReady (fieldOpcode L.word) s = true := startReady_iff.mpr (imp_iff_not_or.mp hroom)
  rw [engineStep_illegal hpending hr, if_pos hready]
  rfl

/-! ### CTRL writes (R94) -/

/-- A word written to CTRL acts in the bus step itself, once the host has seen its answer (R94). -/
theorem hostStep_writeCtrl (s : State) (v : Word) :
    hostStep (.write 0x08 4 0b1111#4 v) s = ctrlWrite v (respond .written s) :=
  memWrite_word (by decide)

theorem ctrlWrite_action {v : Word} {i : Instr} (hd : decodeCtrl v = .ok i) (s : State) :
    ctrlWrite v s = exec i s := by
  unfold ctrlWrite; rw [hd]

theorem ctrlWrite_noAction {v : Word} {r : Reject} (hd : decodeCtrl v = .error r) (s : State) :
    ctrlWrite v s = .next s := by
  unfold ctrlWrite; rw [hd]

/-- Settles O4: the bus step of a CTRL write is that of the action its two low bits decode to. -/
theorem ctrlWriteActs : Obligations.CtrlWriteActs := by
  intro s v
  rw [hostStep_writeCtrl]
  refine ⟨fun h0 => ctrlWrite_action ?softReset _, fun h0 h1 => ctrlWrite_action ?abort _,
    fun h0 h1 => ctrlWrite_noAction (r := .noAction) ?none _⟩
  case softReset => rw [decodeCtrl, h0]; rfl
  case abort => rw [decodeCtrl, h0, h1]; rfl
  case none => rw [decodeCtrl, h0, h1]; rfl

end Sys2Proof.Machine
end

section
/-! The layout of a code in the code buffer (30_encoding R95, R98). -/

namespace Sys2Proof.Machine

/-- Bit `31 - t` of word `j` of the layout is bit `32 j + t` of the code (R95). -/
theorem codeWord_getLsbD (c : Code) (j t : Nat) (ht : t < 32) :
    (codeWord c j).getLsbD (31 - t) = c.getD (32 * j + t) false := by
  unfold codeWord
  rw [wordOfBits_getLsbD _ (by simp) _ (by omega), show 32 - 1 - (31 - t) = t by omega]
  simp [ht]

/-- The buffer bits R95 reads of the layout R98 writes: the code, and 0 past its end. -/
theorem codeBit_codeBufOf (c : Code) (k : Nat) (hk : k < 256) : codeBit (codeBufOf c) k = c.getD k false := by
  unfold codeBit
  rw [codeBufOf_toList_getD c _ (by omega), codeWord_getLsbD c _ _ (by omega), Nat.div_add_mod]

/-- Settles O24: bit by bit, by `codeBit_codeBufOf`. -/
theorem lookupLayoutIsInsertLayout : Obligations.LookupLayoutIsInsertLayout := by
  intro c hc
  refine bits_ext (codeOperand_length _ _) fun k hk => ?_
  rw [codeOperand_length] at hk
  rw [codeOperand_getD _ _ _ hk, codeBit_codeBufOf c k (by omega)]

end Sys2Proof.Machine
end

section
/-! The writers of the tree, the lookup table and CLT_VALID (40_code_tree R126, 10_state R34). -/

namespace Sys2Proof.Machine

variable {s u : State}

/-- An effect of an engine step is a tree command's, which invalidates the table and leaves its entries; or WALK's,
which validates it and leaves the tree; or it leaves tree and table as they were. -/
theorem EngineEffect.tree_and_table (he : EngineEffect s u) :
    ((starts s .treeClear ∨ ∃ sym len, starts s (.treeInsert sym len)) ∧ u.clt = s.clt ∧ u.cltValid = false) ∨
    ((∃ emit, starts s (.walk emit)) ∧
      u.arena = s.arena ∧ u.nodeCount = s.nodeCount ∧ u.leafmap = s.leafmap ∧ u.cltValid = true) ∨
    (u.arena = s.arena ∧ u.nodeCount = s.nodeCount ∧ u.leafmap = s.leafmap ∧ u.clt = s.clt ∧
      u.cltValid = s.cltValid) := by
  cases he with
  | treeWritten hs a n m => exact .inl ⟨hs, rfl, rfl⟩
  | tableFilled emit hs t => exact .inr (.inl ⟨⟨emit, hs⟩, rfl, rfl, rfl, rfl⟩)
  | encoded b rest c hq fits room => exact .inr (.inr (by simp))
  | _ => exact .inr (.inr ⟨rfl, rfl, rfl, rfl, rfl⟩)

/-- Of the host's effects only a reset writes the tree or the table. -/
theorem HostEffect.keeps_tree_and_table {a : HostStep} (he : HostEffect a s u) (hreset : resetsBlock a = false) :
    u.arena = s.arena ∧ u.nodeCount = s.nodeCount ∧ u.leafmap = s.leafmap ∧ u.clt = s.clt ∧
      u.cltValid = s.cltValid := by
  cases he with
  | aborted L hL => simp
  | blockReset hr => rw [hreset] at hr; cases hr
  | _ => exact ⟨rfl, rfl, rfl, rfl, rfl⟩

/-- Settles O53: the engine's part for each of the three kinds of effect, the host's by its effects. -/
theorem writersOfTreeAndTable : Obligations.WritersOfTreeAndTable := by
  constructor
  · intro s t h
    obtain ⟨u, he, ht⟩ := (engineStep_moves h).frame
    rw [ht]
    rcases he.tree_and_table with ⟨hs, hclt, hv⟩ | ⟨hs, ha, hn, hm, hv⟩ | ⟨ha, hn, hm, hclt, hv⟩
    · exact ⟨fun _ => hs, fun _ _ => hs, fun _ h1 => by simp [hv] at h1, fun hne => absurd hclt hne⟩
    · exact ⟨fun hne => by simp [ha, hn, hm] at hne, fun _ h0 => by simp [hv] at h0, fun _ _ => hs, fun _ => hs⟩
    · exact ⟨fun hne => by simp [ha, hn, hm] at hne, fun h1 h0 => by simp [hv, h1] at h0,
        fun h0 h1 => by simp [hv, h0] at h1, fun hne => absurd hclt hne⟩
  · intro a s t h hreset
    obtain ⟨r, he⟩ := hostStep_effect h
    exact he.keeps_tree_and_table hreset

end Sys2Proof.Machine
end

section
/-! TREE_CLEAR, and the answers of TREE_INSERT: one equation per way its walk can end, and their inversion
(41_tree_build R130, R133 to R138). -/

namespace Sys2Proof.Machine

variable {s t : State} {L : Latched} {sym : Byte} {len : Nat}

/-! ### TREE_CLEAR (R130) -/

/-- Settles O15: the decoder by `decodeCmd_treeClear`, the empty arena entry by entry by `emptyArena_get`. -/
theorem treeClearResult : Obligations.TreeClearResult := by
  refine ⟨decodeCmd_treeClear, fun s L hpending => ⟨_, startStep_pending hpending _, rfl, ?root, ?others, ?marks, ?leaves⟩⟩
  case root => exact emptyArena_get 0
  case others => exact fun i hi => (emptyArena_get i).trans (if_neg hi)
  case marks => exact fun sym => by simp [Vector.get_eq_getElem]
  case leaves => simp [leafCount, List.count_replicate]

/-! ### TREE_INSERT before its walk (R135) -/

theorem exec_treeInsert_dupSymbol (hL : s.engine = .pending L) (hdup : s.leafmap.get (symIdx sym) = true) :
    exec (.treeInsert sym len) s = failWith .formatDupSymbol (sym.setWidth 32) .idle s :=
  (startStep_pending hL _).trans (if_pos hdup)

/-- A symbol without a code is answered by how its code's walk ends. -/
theorem exec_treeInsert_new (hL : s.engine = .pending L) (hnew : s.leafmap.get (symIdx sym) = false) :
    exec (.treeInsert sym len) s =
      insertAfterWalk sym len s (insertWalk s.arena (codeOperand L.code len) 0 0) :=
  (startStep_pending hL _).trans (if_neg (by simp [hnew]))

/-! ### TREE_INSERT after its walk (R133 to R137) -/

theorem insertAfterWalk_ends_leaf {cur : NodeIdx} {sym' : Byte} (hcur : s.arena.get cur = .leaf sym') :
    insertAfterWalk sym len s (.ends cur) = failWith .formatDupCode (BitVec.ofNat 32 len) .idle s := by
  simp only [insertAfterWalk, hcur]

theorem insertAfterWalk_ends_bare {cur : NodeIdx} (hcur : s.arena.get cur = .internal none none) :
    insertAfterWalk sym len s (.ends cur) =
      insertDone sym (s.arena.set cur.val (.leaf sym) cur.isLt) s.nodeCount s := by
  simp only [insertAfterWalk, hcur]

theorem insertAfterWalk_ends_parent {cur : NodeIdx} {l r : Option NodeIdx}
    (hcur : s.arena.get cur = .internal l r) (hchild : l ≠ none ∨ r ≠ none) :
    insertAfterWalk sym len s (.ends cur) = failWith .formatPrefix (BitVec.ofNat 32 len) .idle s := by
  have hnotBare : ¬ (l = none ∧ r = none) := not_and_or.mpr hchild
  cases l <;> cases r <;> simp_all [insertAfterWalk]

theorem insertAfterWalk_ends_free {cur : NodeIdx} (hcur : s.arena.get cur = .free) :
    insertAfterWalk sym len s (.ends cur) = .fault .freeNode := by
  simp only [insertAfterWalk, hcur]

theorem insertAfterWalk_gap_room {cur : NodeIdx} {k : Nat} {rest : Code}
    (hroom : s.nodeCount + rest.length ≤ Config.nodeCap) :
    insertAfterWalk sym len s (.gap cur k rest) =
      insertDone sym (growPath s.arena sym rest cur s.nodeCount) (s.nodeCount + rest.length) s :=
  if_neg (Nat.not_lt.mpr hroom)

theorem insertAfterWalk_gap_full {cur : NodeIdx} {k : Nat} {rest : Code}
    (hfull : Config.nodeCap < s.nodeCount + rest.length) :
    insertAfterWalk sym len s (.gap cur k rest) = failWith .capacity (BitVec.ofNat 32 rest.length) .idle s :=
  if_pos hfull

/-- The bits a walk that broke at depth `k` has left begin with bit `k` of the code operand. -/
theorem codeOperand_drop_headD (code : Vector Word 8) {k : Nat} (hk : k < len) :
    ((codeOperand code len).drop k).headD false = codeBit code k := by
  rw [← codeOperand_getD code len k hk, List.headD_eq_head?_getD, List.head?_drop, List.getD_eq_getElem?_getD]

/-- Settles O19: the check before the walk, and the walk that ends at a Leaf. -/
theorem treeInsertDuplicates : Obligations.TreeInsertDuplicates := by
  intro s L sym len hL
  refine ⟨exec_treeInsert_dupSymbol hL, fun i sym' hnew hpath hleaf => ?_⟩
  rw [exec_treeInsert_new hL hnew, insertWalk_ends hpath, insertAfterWalk_ends_leaf hleaf]
  rfl

/-- Settles O18: the walk that meets a Leaf, and the walk that ends at a node with a child. -/
theorem treeInsertPrefixErrors : Obligations.TreeInsertPrefixErrors := by
  intro s L sym len hL hnew
  refine ⟨fun k i sym' hk hpath hleaf => ?leaf, fun i l r hpath hnode hchild => ?parent⟩
  case leaf =>
    have hwalk := insertWalk_leafAt (k := 0) (by rwa [codeOperand_length]) hpath hleaf
    rw [exec_treeInsert_new hL hnew, hwalk, Nat.zero_add]
    rfl
  case parent =>
    rw [exec_treeInsert_new hL hnew, insertWalk_ends hpath, insertAfterWalk_ends_parent hnode hchild]
    rfl

/-- Settles O17: the walk that ends at a gap has `len - k` bits left, and there is room for them or not. -/
theorem treeInsertNodeCount : Obligations.TreeInsertNodeCount := by
  intro s L sym len k cur hL hnew hk hpath hgap
  have hwalk := insertWalk_gap (k := 0) (by rwa [codeOperand_length]) hpath (by rwa [codeOperand_getD _ _ _ hk])
  have hrest : ((codeOperand L.code len).drop k).length = len - k := by simp
  rw [exec_treeInsert_new hL hnew, hwalk, ← hrest]
  refine ⟨fun hroom => ⟨_, insertAfterWalk_gap_room hroom, rfl, rfl⟩, fun hfull => ?_⟩
  rw [insertAfterWalk_gap_full hfull]
  rfl

/-! ### The two kinds of answer (R138) -/

/-- The errors TREE_INSERT can raise (R133 to R136). -/
def insertErrors : List ErrCode := [.formatPrefix, .formatDupCode, .formatDupSymbol, .capacity]

/-- TREE_INSERT that answers has raised one of its errors, or has committed a tree. -/
def InsertAnswer (sym : Byte) (s t : State) : Prop :=
  (∃ e ∈ insertErrors, ∃ info, failWith e info .idle s = .next t) ∨ ∃ arena n, insertDone sym arena n s = .next t

theorem InsertAnswer.failed {e : ErrCode} {info : Word} (h : failWith e info .idle s = .next t)
    (he : e ∈ insertErrors := by decide) : InsertAnswer sym s t :=
  .inl ⟨e, he, info, h⟩

theorem InsertAnswer.done {arena : Vector Node Config.nodeCap} {n : Nat} (h : insertDone sym arena n s = .next t) :
    InsertAnswer sym s t :=
  .inr ⟨arena, n, h⟩

theorem insertAfterWalk_next {w : InsertWalk} (h : insertAfterWalk sym len s w = .next t) : InsertAnswer sym s t := by
  cases w with
  | leafAt k => exact .failed h
  | ends cur =>
    cases hcur : s.arena.get cur with
    | leaf sym' => exact .failed ((insertAfterWalk_ends_leaf hcur).symm.trans h)
    | internal l r =>
      by_cases hchild : l ≠ none ∨ r ≠ none
      · exact .failed ((insertAfterWalk_ends_parent hcur hchild).symm.trans h)
      · obtain ⟨rfl, rfl⟩ : l = none ∧ r = none := by simpa using hchild
        exact .done ((insertAfterWalk_ends_bare hcur).symm.trans h)
    | free => cases (insertAfterWalk_ends_free hcur).symm.trans h
  | gap cur _ rest =>
    rcases Nat.lt_or_ge Config.nodeCap (s.nodeCount + rest.length) with hfull | hroom
    · exact .failed ((insertAfterWalk_gap_full hfull).symm.trans h)
    · exact .done ((insertAfterWalk_gap_room hroom).symm.trans h)
  | freeEntry => cases h

theorem exec_treeInsert_next (h : exec (.treeInsert sym len) s = .next t) : InsertAnswer sym s t := by
  obtain ⟨L, hL, -⟩ := startStep_next h
  cases hmark : s.leafmap.get (symIdx sym) with
  | true => exact .failed ((exec_treeInsert_dupSymbol hL hmark).symm.trans h)
  | false => exact insertAfterWalk_next ((exec_treeInsert_new hL hmark).symm.trans h)

/-- Settles O20: a raise changes the error state only, a commit the tree only. -/
theorem treeInsertIsAtomic : Obligations.TreeInsertIsAtomic := by
  intro s t sym len h
  rcases exec_treeInsert_next h with ⟨e, he, info, hfail⟩ | ⟨arena, n, hdone⟩
  · cases failWith_next hfail
    refine ⟨by simp, fun herr _ => ⟨by simp, by simp, by simp, by simp, ?_⟩⟩
    simpa [herr, insertErrors] using he
  · cases hdone
    exact ⟨by simp, fun herr hraised => by simp [herr] at hraised⟩

end Sys2Proof.Machine
end

section
/-! TREE_INSERT of a code apart from all others (41_tree_build R137): where its walk ends, and the leaf it marks. -/

namespace Sys2Proof.Machine

variable {s : State}

/-- The walk along a code apart from every code of the tree meets no Leaf and no node above one: it ends at the bare
root of the empty tree, or at a gap. -/
theorem insertWalk_of_apart {c : Code} (htree : TreeOk s)
    (hapart : ∀ sym' c', codeIs s.arena sym' c' → CodesApart c c') :
    (c = [] ∧ s.arena.get 0 = .internal none none ∧ insertWalk s.arena c 0 0 = .ends 0) ∨
    ∃ k p, k < c.length ∧ descend s.arena 0 (c.take k) = some p ∧ child s.arena p ((c.drop k).headD false) = .nil ∧
      insertWalk s.arena c 0 0 = .gap p k (c.drop k) := by
  have hspec := insertWalk_spec s.arena c 0 0
  cases hwalk : insertWalk s.arena c 0 0 with
  | leafAt k =>
    rw [hwalk] at hspec
    obtain ⟨j, i, sym, -, -, hpath, hleaf⟩ := hspec
    exact absurd (List.take_prefix j c) (hapart sym _ ⟨i, hpath, hleaf⟩).2
  | ends i =>
    rw [hwalk] at hspec
    have hpath : descend s.arena 0 c = some i := hspec
    have hbare : s.arena.get i = .internal none none := by
      by_contra hne
      obtain ⟨d, j, sym, hd, hleaf⟩ := leaf_below htree i (descend_notFree htree hpath) hne
      exact (hapart sym (c ++ d) ⟨j, descend_append.mpr ⟨i, hpath, hd⟩, hleaf⟩).1 (List.prefix_append c d)
    obtain rfl := htree.hasChild i hbare
    exact .inl ⟨path_unique htree.shape hpath rfl, hbare, rfl⟩
  | gap p m rest =>
    rw [hwalk] at hspec
    obtain ⟨k, rfl, hk, rfl, hpath, hgap⟩ := hspec
    exact .inr ⟨k, p, hk, hpath, hgap, by rw [Nat.zero_add]⟩
  | freeEntry =>
    rw [hwalk] at hspec
    obtain ⟨j, i, -, hpath, hfree⟩ := hspec
    exact absurd hfree (descend_notFree htree hpath)

/-- What the commit of R137 writes, and that it leaves the rest. -/
theorem insertDone_next {r : StepResult} {sym : Byte} {arena : Vector Node Config.nodeCap} {n : Nat}
    (h : r = insertDone sym arena n s) :
    ∃ t, r = .next t ∧
      t = { s with
        arena := t.arena, nodeCount := t.nodeCount,
        leafmap := s.leafmap.set (symIdx sym).val true (symIdx sym).isLt, cltValid := false, engine := .idle } ∧
      t.arena = arena ∧ t.nodeCount = n ∧
      t.leafmap = s.leafmap.set (symIdx sym).val true (symIdx sym).isLt :=
  ⟨_, h, rfl, rfl, rfl, rfl⟩

/-- Marking a symbol that was not marked adds one to LEAF_COUNT (R35). -/
theorem leafCount_mark {t : State} {sym : Byte} (hnew : s.leafmap.get (symIdx sym) = false)
    (hm : t.leafmap = s.leafmap.set (symIdx sym).val true (symIdx sym).isLt) : leafCount t = leafCount s + 1 := by
  rw [Vector.get_eq_getElem] at hnew
  simp [leafCount, hm, Vector.toList_set, List.count_set, hnew]

/-- Settles O16: at the bare root the code is empty and the root becomes its leaf, at a gap its path is grown; the rest is
the commit's in both. -/
theorem treeInsertAddsItsCode : Obligations.TreeInsertAddsItsCode := by
  intro s L sym len htree hL hlen hnew hapart hroom
  have hlength : (codeOperand L.code len).length = len := codeOperand_length _ _
  rw [exec_treeInsert_new hL hnew]
  rcases insertWalk_of_apart htree hapart with ⟨hempty, hbare, hwalk⟩ | ⟨k, p, hk, hpath, hgap, hwalk⟩ <;> rw [hwalk]
  · obtain ⟨t, hdone, hframe, ha, hn, hm⟩ := insertDone_next (insertAfterWalk_ends_bare (len := len) hbare)
    obtain ⟨htree', hcodes⟩ := treeOk_of_rootLeaf htree hbare ha hn hm
    exact ⟨t, hdone, hframe, hempty ▸ hcodes, htree', leafCount_mark hnew hm⟩
  · have hk' : k < len := hlength ▸ hk
    have hcap : s.nodeCount + ((codeOperand L.code len).drop k).length ≤ Config.nodeCap := by
      rw [List.length_drop, hlength]
      exact hroom k p hk' hpath (codeOperand_drop_headD L.code hk' ▸ hgap)
    obtain ⟨t, hdone, hframe, ha, hn, hm⟩ := insertDone_next (insertAfterWalk_gap_room (len := len) hcap)
    obtain ⟨htree', hcodes⟩ := treeOk_of_grown htree (hlength.le.trans hlen) hk hpath hgap hcap hnew ha hn hm
    exact ⟨t, hdone, hframe, hcodes, htree', leafCount_mark hnew hm⟩

end Sys2Proof.Machine
end

section
/-! WALK, its beat, and LOOKUP (42_walk_lookup R151 to R153, R157, R158). -/

namespace Sys2Proof.Machine

variable {s : State} {L : Latched}

/-! ### The order of the leaves (R152) -/

/-- A common prefix does not change the order of two codes. -/
theorem codeBefore_append_left (p c d : Code) : codeBefore (p ++ c) (p ++ d) = codeBefore c d := by
  induction p with
  | nil => rfl
  | cons b p ih => cases b <;> exact ih

/-- Below a node, every code that goes left comes before every code that goes right. -/
theorem codeBefore_of_left_right {p c d : Code} (hc : p ++ [false] <+: c) (hd : p ++ [true] <+: d) :
    codeBefore c d = true := by
  obtain ⟨c, rfl⟩ := hc
  obtain ⟨d, rfl⟩ := hd
  rw [List.append_assoc, List.append_assoc, codeBefore_append_left]
  rfl

/-- The codes listed below a node continue the node's path. -/
theorem hostLeafCodes_prefix {t : HostTree} {p : Code} {e : Byte × Code} (he : e ∈ hostLeafCodes t p) : p <+: e.2 := by
  induction t generalizing p with
  | nil => cases he
  | leaf sym => cases List.mem_singleton.mp he; exact List.prefix_rfl
  | node l r ihl ihr =>
    rcases List.mem_append.mp he with hl | hr
    · exact (List.prefix_append p [false]).trans (ihl hl)
    · exact (List.prefix_append p [true]).trans (ihr hr)

/-- Listing the left subtree before the right lists the codes in ascending order (R152). -/
theorem hostLeafCodes_sorted (t : HostTree) (p : Code) :
    (hostLeafCodes t p).Pairwise (fun a b => codeBefore a.2 b.2 = true) := by
  induction t generalizing p with
  | nil => exact List.Pairwise.nil
  | leaf sym => exact List.pairwise_singleton _ _
  | node l r ihl ihr =>
    exact List.pairwise_append.mpr ⟨ihl _, ihr _, fun _ ha _ hb =>
      codeBefore_of_left_right (hostLeafCodes_prefix ha) (hostLeafCodes_prefix hb)⟩

/-- WALK lists the leaves as HostSave does (`visit_readTree`), so in ascending order of their codes (R152). -/
theorem treeLeaves_sorted {leaves : List Record} (h : treeLeaves s.arena = .ok leaves) :
    leaves.Pairwise (fun a b => codeBefore a.code b.code = true) := by
  have hsorted := hostLeafCodes_sorted (readTree s.arena (Config.maxCodeLen + 1) 0) []
  rwa [← visit_readTree _ _ _ _ _ h, List.pairwise_map] at hsorted

/-! ### WALK (R151) -/

theorem exec_walk_leaves {emit : Bool} {leaves : List Record} (hL : s.engine = .pending L)
    (h : treeLeaves s.arena = .ok leaves) :
    exec (.walk emit) s = .next { s with
      clt := tableOf leaves
      cltValid := true
      engine := if emit = true ∧ leaves ≠ [] then .walk L leaves else .idle } := by
  refine (startStep_pending hL _).trans ?_
  simp only [h]

/-- Settles O21: the enumeration answers by `treeLeaves_ok`; the table and the order are those of its list. -/
theorem walkFillsTheTable : Obligations.WalkFillsTheTable := by
  intro s L emit htree hL
  obtain ⟨leaves, hvisit, hleaves⟩ := treeLeaves_ok htree
  exact ⟨_, leaves, exec_walk_leaves hL hvisit, rfl, walkTable_get htree hleaves, hleaves,
    treeLeaves_sorted hvisit, rfl⟩

/-! ### The WALK beat (R153) -/

theorem engineStep_walk {r : Record} {rest : List Record} (hL : s.engine = .walk L (r :: rest)) :
    engineStep s =
      if recordSize r ≤ outFree s then
        .next (setEngine (if rest = [] then .idle else .walk L rest) (outPushAll (recordBytes r) s))
      else .next s := by
  unfold engineStep
  rw [hL]
  rfl

/-- Settles O22: the two branches of the beat. -/
theorem walkBeatResult : Obligations.WalkBeatResult := by
  intro s L r rest hL
  rw [engineStep_walk hL]
  exact ⟨fun room => if_pos room, fun full => if_neg (Nat.not_le.mpr full)⟩

/-! ### LOOKUP (R158) -/

theorem exec_lookup_stale {sym : Byte} (hL : s.engine = .pending L) (hstale : s.cltValid = false) :
    exec (.lookup sym) s = failWith .notReady L.word .idle s :=
  (startStep_pending hL _).trans (if_neg (by simp [hstale]))

theorem exec_lookup_found {sym : Byte} {c : Code} (hL : s.engine = .pending L) (hvalid : s.cltValid = true)
    (hentry : s.clt.get (symIdx sym) = some c) :
    exec (.lookup sym) s = .next { s with result := resultWord c, codeBuf := codeBufOf c, engine := .idle } := by
  refine (startStep_pending hL _).trans ?_
  simp only [hvalid, if_true, hentry]

theorem exec_lookup_absent {sym : Byte} (hL : s.engine = .pending L) (hvalid : s.cltValid = true)
    (hentry : s.clt.get (symIdx sym) = none) :
    exec (.lookup sym) s = .next { s with result := 0, codeBuf := Vector.replicate 8 0, engine := .idle } := by
  refine (startStep_pending hL _).trans ?_
  simp only [hvalid, if_true, hentry]

/-- The eight bits of LEN hold the length of every code a tree can have (R98). -/
theorem resultWord_of_length_le {c : Code} (hc : c.length ≤ Config.maxCodeLen) :
    resultWord c = 0x80000000 ||| BitVec.ofNat 32 c.length := by
  have hlen : c.length < 2 ^ 8 := Nat.lt_succ_of_le hc
  rw [resultWord, BitVec.setWidth_ofNat_of_le_of_lt (by decide) hlen]

/-- The buffer bit is the code's, and 0 past its end. -/
theorem codeBit_codeBufOf_ite (c : Code) {k : Nat} (hk : k < 256) :
    codeBit (codeBufOf c) k = if k < c.length then c.getD k false else false := by
  rw [codeBit_codeBufOf c k hk]
  split
  · rfl
  · exact List.getD_eq_default _ _ (by omega)

/-- Settles O23: the decoder by `decodeCmd_lookup`, then one equation per case of the table. -/
theorem lookupResult : Obligations.LookupResult := by
  refine ⟨decodeCmd_lookup, fun s L sym hL =>
    ⟨exec_lookup_stale hL, fun c hvalid hentry hc => ?_, exec_lookup_absent hL⟩⟩
  refine ⟨_, exec_lookup_found hL hvalid hentry, ?_, fun k hk => codeBit_codeBufOf_ite c hk⟩
  rw [resultWord_of_length_le hc]

end Sys2Proof.Machine
end

section
/-! Encoding: ENCODE's start step and beat, FLUSH and ENC_RESET (43_encode R170 to R178). -/

namespace Sys2Proof.Machine

variable {s : State} {L : Latched} {rem j : Nat} {b : Byte} {rest : List Byte} {c : Code}

/-! ### The start step of ENCODE (R171) -/

theorem drainOrIdle_pos (h : 0 < rem) : drainOrIdle L rem = .drain L rem := if_pos h

theorem exec_encode_valid (hL : s.engine = .pending L) (hvalid : s.cltValid = true) :
    exec .encode s = .next (setEngine (if 0 < L.arg0.toNat then .enc L L.arg0.toNat 0 else .idle) s) :=
  (startStep_pending hL _).trans (if_pos hvalid)

theorem exec_encode_stale (hL : s.engine = .pending L) (hstale : s.cltValid = false) :
    exec .encode s = failWith .notReady L.word (drainOrIdle L L.arg0.toNat) s :=
  (startStep_pending hL _).trans (if_neg (by simp [hstale]))

/-- Settles O26: a valid or a stale table, each with bytes to take or none. -/
theorem encodeStartResult : Obligations.EncodeStartResult := by
  intro s L hL
  refine ⟨fun hvalid hpos => ?_, fun hvalid hzero => ?_, fun hstale hpos => ?_, fun hstale hzero => ?_⟩
  · rw [exec_encode_valid hL hvalid, if_pos hpos]; rfl
  · rw [exec_encode_valid hL hvalid, hzero]; rfl
  · rw [exec_encode_stale hL hstale, drainOrIdle_pos hpos]; rfl
  · rw [exec_encode_stale hL hstale, hzero]; rfl

/-! ### The ENCODE beat (R172) -/

theorem engineStep_enc (he : s.engine = .enc L rem j) : engineStep s = encBeat L rem j s := by
  unfold engineStep; rw [he]

theorem engineStep_enc_noInput (he : s.engine = .enc L rem j) (hq : s.inQ = []) : engineStep s = .next s := by
  rw [engineStep_enc he]; unfold encBeat; rw [hq]

theorem engineStep_enc_input (he : s.engine = .enc L rem j) (hq : s.inQ = b :: rest) :
    engineStep s =
      if encPushes (s.clt.get (symIdx b)) s ≤ outFree s then encByte L rem j b { s with inQ := rest }
      else .next s := by
  rw [engineStep_enc he]; unfold encBeat; rw [hq]

/-- What is left to drain when a beat raises: all but the byte taken. -/
theorem drainOrIdle_pred (L : Latched) (rem : Nat) :
    drainOrIdle L (rem - 1) = if 1 < rem then .drain L (rem - 1) else .idle :=
  if_congr Nat.sub_pos_iff_lt rfl rfl

/-- A beat that raises takes its byte, whatever the room in out_q, since it pushes nothing. -/
theorem engineStep_enc_raises {e : ErrCode} {w : Word} (he : s.engine = .enc L rem j) (hq : s.inQ = b :: rest)
    (hpush : encPushes (s.clt.get (symIdx b)) s = 0)
    (hbyte : encByte L rem j b { s with inQ := rest } = failWith e w (drainOrIdle L (rem - 1)) { s with inQ := rest }) :
    engineStep s = .next { raise e w s with
      inQ := rest, engine := if 1 < rem then .drain L (rem - 1) else .idle } := by
  rw [engineStep_enc_input he hq, hpush, if_pos (Nat.zero_le _), hbyte, failWith, raise_withInQ, drainOrIdle_pred]
  rfl

theorem encByte_unknown (hentry : s.clt.get (symIdx b) = none) :
    encByte L rem j b s = failWith .unknownSymbol (BitVec.ofNat 32 j) (drainOrIdle L (rem - 1)) s := by
  unfold encByte; rw [hentry]

theorem encByte_overflow (hentry : s.clt.get (symIdx b) = some c)
    (hover : Config.countMax < s.encBitcount.toNat + c.length) :
    encByte L rem j b s = failWith .bitcountOverflow (BitVec.ofNat 32 j) (drainOrIdle L (rem - 1)) s := by
  unfold encByte; rw [hentry]; exact if_pos hover

theorem encByte_appends (hentry : s.clt.get (symIdx b) = some c)
    (hfits : s.encBitcount.toNat + c.length ≤ Config.countMax) :
    encByte L rem j b s = .next { putBits c s with
      encBitcount := s.encBitcount + BitVec.ofNat 32 c.length
      engine := if 1 < rem then .enc L (rem - 1) (j + 1) else .idle } := by
  unfold encByte; rw [hentry]
  refine (if_neg (Nat.not_lt.mpr hfits)).trans ?_
  simp only [gt_iff_lt, Nat.sub_pos_iff_lt]

/-- Settles O28: without input or without room the beat is not enabled; on the two errors it pushes nothing, so it
always is. -/
theorem encodeBeatErrors : Obligations.EncodeBeatErrors := by
  intro s L rem j he
  refine ⟨engineStep_enc_noInput he, fun b rest hq hentry => ?_, fun b rest c hq hentry hover => ?_,
    fun b rest c hq hentry hfits hfull => ?_⟩
  · exact engineStep_enc_raises he hq (by rw [hentry, encPushes_none]) (encByte_unknown hentry)
  · exact engineStep_enc_raises he hq (by rw [hentry, encPushes_over hover]) (encByte_overflow hentry hover)
  · rw [engineStep_enc_input he hq, hentry, encPushes_fits hfits, if_neg (Nat.not_le.mpr hfull)]

/-! ### A beat that appends a code (R172, R173) -/

theorem putBit_frame (x : Bool) (s : State) :
    putBit x s = { s with
      outQ := (putBit x s).outQ, packAcc := (putBit x s).packAcc, packCnt := (putBit x s).packCnt } := by
  unfold putBit; dsimp only; split <;> rfl

/-- Appending bits writes the packer and out_q only (R173). -/
theorem putBits_frame (xs : List Bool) (s : State) :
    putBits xs s = { s with
      outQ := (putBits xs s).outQ, packAcc := (putBits xs s).packAcc, packCnt := (putBits xs s).packCnt } := by
  induction xs generalizing s with
  | nil => rfl
  | cons x xs ih => rw [putBits, ih, putBit_frame]

/-- A beat whose symbol has a code that fits the count and out_q appends the code. -/
theorem engineStep_enc_appends (he : s.engine = .enc L rem j) (hq : s.inQ = b :: rest)
    (hentry : s.clt.get (symIdx b) = some c) (hfits : s.encBitcount.toNat + c.length ≤ Config.countMax)
    (hroom : (s.packCnt.val + c.length) / 8 ≤ outFree s) :
    engineStep s = .next { putBits c { s with inQ := rest } with
      encBitcount := s.encBitcount + BitVec.ofNat 32 c.length
      engine := if 1 < rem then .enc L (rem - 1) (j + 1) else .idle } := by
  rw [engineStep_enc_input he hq, hentry, encPushes_fits hfits, if_pos hroom,
    encByte_appends (s := { s with inQ := rest }) hentry hfits]

/-- The sum that ENC_BITCOUNT takes does not wrap while it fits (R172). -/
theorem addBitcount_toNat {w : Word} {n : Nat} (h : w.toNat + n ≤ Config.countMax) :
    (w + BitVec.ofNat 32 n).toNat = w.toNat + n := by
  rw [BitVec.toNat_add, BitVec.toNat_ofNat, Nat.add_mod_mod, Nat.mod_eq_of_lt (Nat.lt_succ_of_le h)]

/-- Settles O27: the bits appended are those of `putBits_closed`, and `putBits_frame` is the rest. -/
theorem encodeBeatAppends : Obligations.EncodeBeatAppends := by
  intro s L rem j b rest c hpack he hq hentry hfits hroom
  obtain ⟨-, -, hheld, hout⟩ := putBits_closed c { s with inQ := rest } hpack.1
  refine ⟨_, engineStep_enc_appends he hq hentry hfits hroom, ?_, hheld, addBitcount_toNat hfits,
    packOk_putBits (s := { s with inQ := rest }) hpack⟩
  rw [putBits_frame, hout]; rfl

/-! ### FLUSH (R176) and ENC_RESET (R178) -/

theorem exec_flush_ready (hL : s.engine = .pending L) (hready : flushReady s = true) :
    exec .flush s = .next { outPushAll (flushBytes s) s with
      encLastbits := s.encBitcount, encBitcount := 0, packAcc := 0, packCnt := 0, engine := .idle } :=
  (startStep_pending hL _).trans (if_pos hready)

theorem exec_flush_waits (hL : s.engine = .pending L) (hwait : flushReady s = false) :
    exec .flush s = .next s :=
  (startStep_pending hL _).trans (if_neg (by simp [hwait]))

theorem flushReady_full (hheld : s.packCnt ≠ 0) (hfull : outFree s = 0) : flushReady s = false := by
  rw [← Bool.not_eq_true, flushReady_iff, hfull]
  simpa using hheld

/-- A word with FLUSH's opcode is FLUSH, or is illegal for its RSVD (R92, R93). -/
theorem decodeCmd_flushOpcode {w : Word} (hop : fieldOpcode w = 0x06) :
    decodeCmd w = .ok .flush ∨ ∃ r, decodeCmd w = .error r := by
  unfold decodeCmd
  split
  · left; unfold decodeOpcode; rw [hop]; rfl
  · exact .inr ⟨_, rfl⟩

/-- Every word with FLUSH's opcode waits for FLUSH's room (45_control R213, log 18). -/
theorem engineStep_flushOpcode_waits (hL : s.engine = .pending L) (hop : fieldOpcode L.word = 0x06)
    (hwait : flushReady s = false) : engineStep s = .next s := by
  rcases decodeCmd_flushOpcode hop with hflush | ⟨r, hillegal⟩
  · rw [engineStep_pending hL hflush, exec_flush_waits hL hwait]
  · rw [engineStep_illegal hL hillegal, hop, if_neg]
    simp [startReady, hwait]

/-- Settles O30: the decoder by `decodeCmd_flush`, then nothing held, a partial byte with room, and one without. -/
theorem flushResult : Obligations.FlushResult := by
  refine ⟨decodeCmd_flush, fun s L hL => ⟨fun hempty => ?_, fun hheld hroom => ?_, fun hheld hfull => ?_,
    fun hheld hfull hop => engineStep_flushOpcode_waits hL hop (flushReady_full hheld hfull)⟩⟩
  · rw [exec_flush_ready hL (flushReady_iff.mpr (.inl hempty)), flushBytes_empty hempty, outPushAll, List.append_nil]
  · rw [exec_flush_ready hL (flushReady_iff.mpr (.inr hroom)), flushBytes_held hheld, outPushAll]
  · exact exec_flush_waits hL (flushReady_full hheld hfull)

/-- The partial byte is the packing of the bits held, since the unused bits of pack_acc are 0 (R36, R70). -/
theorem flushBytes_eq_packBits (h : PackLow s) : flushBytes s = packBits (heldBits s) := by
  by_cases hempty : s.packCnt = 0
  · rw [flushBytes_empty hempty, heldBits, hempty]; exact packBits_nil.symm
  · have hne : heldBits s ≠ [] := by
      rw [← List.length_pos_iff, heldBits_length]
      exact Fin.pos_iff_ne_zero.mpr hempty
    rw [flushBytes_held hempty, packBits_short _ hne (by simp), heldBits_length, ← packAcc_eq h]

/-- Settles O31: the bytes FLUSH pushes, by `flushBytes_eq_packBits`. -/
theorem flushPadsWithZero : Obligations.FlushPadsWithZero := by
  intro s L hpack hL hroom
  refine ⟨_, exec_flush_ready hL (flushReady_iff.mpr (.inr hroom)), ?_, rfl⟩
  rw [← flushBytes_eq_packBits hpack.1]
  rfl

/-- Settles O32: ENC_RESET has one case. -/
theorem encResetResult : Obligations.EncResetResult :=
  ⟨decodeCmd_encReset, fun _ _ hL => startStep_pending hL _⟩

end Sys2Proof.Machine
end

section
/-! The steps of DECODE one by one: its start step, its beats, and the beat that drains (44_decode R191 to R194,
45_control R214). -/

namespace Sys2Proof.Machine

variable {s : State} {L : Latched} {remBits i start rem : Nat} {cur : NodeIdx} {b sym : Byte} {rest : List Byte}

/-! ### Recording an error and the stream side of the state do not see each other (60_exceptions R262) -/

theorem raise_withStreams (e : ErrCode) (w : Word) (q o : List Byte) (n : Word) (s : State) :
    raise e w { s with inQ := q, outQ := o, decSymcount := n } =
      { raise e w s with inQ := q, outQ := o, decSymcount := n } := by
  unfold raise; dsimp only; split <;> rfl

theorem raise_withDecSymcount (e : ErrCode) (w n : Word) (s : State) :
    raise e w { s with decSymcount := n } = { raise e w s with decSymcount := n } := by
  unfold raise; dsimp only; split <;> rfl

/-- The engine state a start step or beat had does not show in the state its error leaves. -/
theorem failWith_setEngine (e : ErrCode) (w : Word) (g g' : Engine) (s : State) :
    failWith e w g (setEngine g' s) = failWith e w g s := by
  unfold failWith raise; rw [setEngine_err]; split <;> rfl

/-! ### The start step (R191) -/

theorem exec_decode_internal (hL : s.engine = .pending L) (hroot : ∀ sym, s.arena.get 0 ≠ .leaf sym) :
    exec .decode s = .next
      (setEngine (if 0 < L.arg0.toNat then .dec L L.arg0.toNat 0 0 0 else .idle) { s with decSymcount := 0 }) := by
  refine (startStep_pending hL _).trans ?_
  rw [leafSym_eq_none.mpr hroot]

theorem exec_decode_rootLeaf (hL : s.engine = .pending L) (hroot : s.arena.get 0 = .leaf sym) :
    exec .decode s =
      if 0 < L.arg0.toNat then
        failWith .structural 0 (drainOrIdle L (ceil8 L.arg0.toNat)) { s with decSymcount := 0 }
      else .next
        (setEngine (if 0 < L.arg1.toNat then .decLeaf L L.arg1.toNat sym else .idle) { s with decSymcount := 0 }) := by
  refine (startStep_pending hL _).trans ?_
  rw [leafSym_eq_some.mpr hroot]

/-- Settles O33: an Internal root, a Leaf root without bits, and a Leaf root with bits to drain. -/
theorem decodeStartResult : Obligations.DecodeStartResult := by
  intro s L hL
  refine ⟨exec_decode_internal hL, fun sym hroot hzero => ?_, fun sym hroot hpos => ?_⟩
  · rw [exec_decode_rootLeaf hL hroot, if_neg (by simp [hzero])]; rfl
  · rw [exec_decode_rootLeaf hL hroot, if_pos hpos, drainOrIdle_pos (ceil8_pos hpos), failWith, raise_withDecSymcount]
    rfl

/-! ### The beat (R193) -/

theorem engineStep_dec (he : s.engine = .dec L remBits i cur start) :
    engineStep s = decBeat L remBits i cur start s := by
  unfold engineStep; rw [he]

theorem engineStep_dec_noInput (he : s.engine = .dec L remBits i cur start) (hq : s.inQ = []) :
    engineStep s = .next s := by
  rw [engineStep_dec he]; unfold decBeat; rw [hq]

theorem engineStep_dec_input (he : s.engine = .dec L remBits i cur start) (hq : s.inQ = b :: rest) :
    engineStep s =
      if (scanBits s.arena (payloadBits b remBits) cur i start).syms.length ≤ outFree s then
        decFinish L remBits (scanBits s.arena (payloadBits b remBits) cur i start)
          (pushSyms (scanBits s.arena (payloadBits b remBits) cur i start).syms { s with inQ := rest })
      else .next s := by
  rw [engineStep_dec he]; unfold decBeat; rw [hq]

/-! ### The beat of a root-is-leaf DECODE (R194) -/

theorem engineStep_decLeaf (he : s.engine = .decLeaf L rem sym) : engineStep s = decLeafBeat L rem sym s := by
  unfold engineStep; rw [he]

theorem engineStep_decLeaf_room (he : s.engine = .decLeaf L rem sym) (hroom : 1 ≤ outFree s) :
    engineStep s = .next (setEngine (if 0 < rem - 1 then .decLeaf L (rem - 1) sym else .idle) (pushSyms [sym] s)) :=
  (engineStep_decLeaf he).trans (if_pos hroom)

theorem engineStep_decLeaf_full (he : s.engine = .decLeaf L rem sym) (hfull : outFree s = 0) :
    engineStep s = .next s :=
  (engineStep_decLeaf he).trans (if_neg (by simp [hfull]))

/-! ### The beat that drains (45_control R214) -/

theorem engineStep_drain (he : s.engine = .drain L rem) (hq : s.inQ = b :: rest) :
    engineStep s = .next { s with inQ := rest, engine := drainOrIdle L (rem - 1) } := by
  unfold engineStep; rw [he]; unfold drainBeat; rw [hq]

end Sys2Proof.Machine
end

section
/-! Whole runs of DECODE: a run over several input bytes is one bit loop over the payload of all of them
(44_decode R193), and the payloads of R195 and R196. -/

namespace Sys2Proof.Machine

variable {s : State} {L : Latched} {remBits i start rem : Nat} {cur : NodeIdx} {bytes rest : List Byte} {scan : Scan}

/-! ### Symbols pushed in several beats -/

theorem pushSyms_append (xs ys : List Byte) (s : State) : pushSyms ys (pushSyms xs s) = pushSyms (xs ++ ys) s := by
  simp only [pushSyms, outPushAll, List.append_assoc, List.length_append, BitVec.ofNat_add, BitVec.add_assoc]

/-- The end of a DECODE that raises: the error is recorded beside the symbols kept and the input taken (R195, R196). -/
theorem failWith_decoded (e : ErrCode) (w : Word) (syms rest : List Byte) (s : State) :
    failWith e w .idle (pushSyms syms { s with decSymcount := 0, inQ := rest }) =
      .next { raise e w s with
        inQ := rest, outQ := s.outQ ++ syms, decSymcount := BitVec.ofNat 32 syms.length, engine := .idle } := by
  have hpush : pushSyms syms { s with decSymcount := 0, inQ := rest } =
      { s with inQ := rest, outQ := s.outQ ++ syms, decSymcount := BitVec.ofNat 32 syms.length } := by
    simp [pushSyms, outPushAll]
  rw [failWith, hpush, raise_withStreams]; rfl

/-! ### The end of a beat's bit loop (R193) -/

/-- The beat that takes the last payload bits leaves nothing to drain and nothing to decode. -/
theorem decFinish_last (hlast : remBits ≤ 8) (s : State) : decFinish L remBits scan s = decFinish L 0 scan s := by
  unfold decFinish; rw [Nat.min_eq_right hlast, Nat.sub_self, Nat.zero_sub]

/-- A beat that takes all its bits and has more to come goes on where the loop ended. -/
theorem decFinish_more (hmore : 8 < remBits) (hstop : scan.stop = none) (s : State) :
    decFinish L remBits scan s = .next (setEngine (.dec L (remBits - 8) scan.i scan.cur scan.start) s) := by
  unfold decFinish; rw [hstop, Nat.min_eq_left hmore.le]
  exact if_neg (Nat.sub_ne_zero_of_lt hmore)

/-- A bit loop that stops, but for a Free entry, raises one error whatever is left, and what is left is drained. -/
theorem decFinish_stopped (hstop : scan.stop ≠ none) (hfree : scan.stop ≠ some .freeEntry) :
    ∃ e w, ∀ L remBits s,
      decFinish L remBits scan s = failWith e w (drainOrIdle L (ceil8 (remBits - min 8 remBits))) s := by
  unfold decFinish
  cases h : scan.stop with
  | none => exact absurd h hstop
  | some stop =>
    cases stop with
    | invalidCode => exact ⟨_, _, fun _ _ _ => rfl⟩
    | structural => exact ⟨_, _, fun _ _ _ => rfl⟩
    | freeEntry => exact absurd h hfree

/-- The end of the bit loop sets the engine state, whatever it was. -/
theorem decFinish_setEngine (g : Engine) (s : State) :
    decFinish L remBits scan (setEngine g s) = decFinish L remBits scan s := by
  unfold decFinish; simp only [failWith_setEngine]; rfl

/-! ### Runs of beats -/

/-- A run whose first step is the engine's goes on from there. -/
theorem run_engineStep {n : Nat} {t : State} (hturns : s.turns = []) (h : engineStep s = .next t) :
    runSteps (n + 1) s = runSteps n t :=
  run_step n ((step_engine hturns).trans h)

/-- A run that begins with the start step of a latched command goes on from there. -/
theorem run_start {n : Nat} {t : State} {instr : Instr} (hturns : s.turns = []) (hL : s.engine = .pending L)
    (hd : decodeCmd L.word = .ok instr) (h : exec instr s = .next t) : runSteps (1 + n) s = runSteps n t :=
  Nat.add_comm 1 n ▸ run_engineStep hturns ((engineStep_pending hL hd).trans h)

/-- A run of one step is that step, whatever it answers. -/
theorem run_one (s : State) : runSteps 1 s = step s := by
  have e := Host.Core.run.eq_2 core s 0
  cases h : core.step s <;> rw [h] at e <;> exact e.trans h.symm

/-- A drain with its bytes there takes exactly them (45_control R214). -/
theorem run_drain (hturns : s.turns = []) :
    runSteps bytes.length (setEngine (drainOrIdle L bytes.length) { s with inQ := bytes ++ rest }) =
      .next (setEngine .idle { s with inQ := rest }) := by
  induction bytes with
  | nil => rfl
  | cons b bytes ih =>
    refine (run_engineStep ?turns ?beat).trans ih
    case turns => exact hturns
    case beat =>
      have hpos : 0 < bytes.length + 1 := Nat.succ_pos _
      exact engineStep_drain (s := setEngine _ { s with inQ := b :: bytes ++ rest }) (drainOrIdle_pos hpos) rfl

/-- What is left after an error is drained, and then the engine is idle with the error recorded (R195). -/
theorem run_drain_failed (hturns : s.turns = []) (e : ErrCode) (w : Word) :
    runSteps bytes.length (setEngine (drainOrIdle L bytes.length) (raise e w { s with inQ := bytes ++ rest })) =
      failWith e w .idle { s with inQ := rest } := by
  rw [failWith, raise_withInQ e w (bytes ++ rest), raise_withInQ e w rest]
  exact run_drain (by simpa using hturns)

/-- A root-is-leaf DECODE with room for all its symbols pushes one per beat (R194). -/
theorem run_decLeaf {sym : Byte} (hturns : s.turns = []) (hroom : s.outQ.length + rem ≤ Config.outDepth) :
    runSteps rem (setEngine (if 0 < rem then .decLeaf L rem sym else .idle) s) =
      .next (setEngine .idle (pushSyms (List.replicate rem sym) s)) := by
  induction rem generalizing s with
  | zero => simp [pushSyms, outPushAll, setEngine, run_zero]
  | succ rem ih =>
    rw [if_pos (Nat.succ_pos rem), List.replicate_succ, ← List.singleton_append, ← pushSyms_append]
    refine (run_engineStep ?turns ?beat).trans (ih (s := pushSyms [sym] s) hturns (by simp; omega))
    case turns => exact hturns
    case beat =>
      have hone : 1 ≤ outFree s := by unfold outFree; omega
      exact engineStep_decLeaf_room (s := setEngine (.decLeaf L (rem + 1) sym) s) rfl hone

/-- The payload bits of a byte and of the bytes after it (R192). -/
theorem payload_cons (b : Byte) (bs : List Byte) (n : Nat) :
    (unpackBits (b :: bs)).take n = payloadBits b n ++ (unpackBits bs).take (n - 8) := by
  rw [unpackBits_cons, List.take_append, byteBits_length, payloadBits, ← byteBits_length b, List.take_eq_take_min,
    Nat.min_comm]

/-- A DECODE beat with room for the symbols its bit loop pushes (R193). -/
theorem step_dec {b : Byte} (hturns : s.turns = [])
    (hscan : scanBits s.arena (payloadBits b remBits) cur i start = scan)
    (hroom : s.outQ.length + scan.syms.length ≤ Config.outDepth) :
    step (setEngine (.dec L remBits i cur start) { s with inQ := b :: rest }) =
      decFinish L remBits scan (pushSyms scan.syms { s with inQ := rest }) := by
  subst hscan
  have hfits : (scanBits s.arena (payloadBits b remBits) cur i start).syms.length ≤ outFree s := by
    unfold outFree; omega
  rw [← decFinish_setEngine (.dec L remBits i cur start)]
  refine (step_engine ?turns).trans ((engineStep_dec_input rfl rfl).trans (if_pos hfits))
  exact hturns

/-- A run of DECODE beats, with the bytes there and room for the symbols, ends as one bit loop over the whole payload
does, but for one that meets a Free entry (R193, R195, R196). -/
theorem run_dec (hturns : s.turns = []) (hpos : 0 < remBits) (hlen : bytes.length = ceil8 remBits)
    (hscan : scanBits s.arena ((unpackBits bytes).take remBits) cur i start = scan)
    (hfree : scan.stop ≠ some .freeEntry) (hroom : s.outQ.length + scan.syms.length ≤ Config.outDepth) :
    runSteps bytes.length (setEngine (.dec L remBits i cur start) { s with inQ := bytes ++ rest }) =
      decFinish L 0 scan (pushSyms scan.syms { s with inQ := rest }) := by
  induction bytes generalizing s remBits i cur start scan with
  | nil => exact absurd (ceil8_pos hpos) (by simp [← hlen])
  | cons b bs ih =>
    have hlen' : bs.length = ceil8 (remBits - 8) := by
      rw [ceil8_eq] at hlen ⊢; rw [List.length_cons] at hlen; omega
    rw [payload_cons] at hscan
    by_cases hlast : remBits ≤ 8
    · obtain rfl : bs = [] := List.length_eq_zero_iff.mp (by rw [hlen', Nat.sub_eq_zero_of_le hlast]; rfl)
      rw [Nat.sub_eq_zero_of_le hlast, List.take_zero, List.append_nil] at hscan
      exact (run_one _).trans ((step_dec hturns hscan hroom).trans (decFinish_last hlast _))
    rw [scanBits_append] at hscan
    dsimp only at hscan
    generalize hr : scanBits s.arena (payloadBits b remBits) cur i start = r at hscan
    by_cases hstop : r.stop = none
    · generalize hr' : scanBits s.arena ((unpackBits bs).take (remBits - 8)) r.cur r.i r.start = r' at hscan
      obtain rfl : { r' with syms := r.syms ++ r'.syms } = scan := (if_pos hstop).symm.trans hscan
      rw [List.length_append] at hroom
      have hbeat := (step_dec (L := L) (rest := bs ++ rest) hturns hr (by omega)).trans
        (decFinish_more (by omega) hstop _)
      refine (run_step bs.length hbeat).trans
        ((ih (s := pushSyms r.syms s) hturns (by omega) hlen' hr' hfree (by simp; omega)).trans ?_)
      exact congrArg (decFinish L 0 r') (pushSyms_append r.syms r'.syms { s with inQ := rest })
    · obtain rfl : r = scan := (if_neg hstop).symm.trans hscan
      obtain ⟨e, w, hfail⟩ := decFinish_stopped hstop hfree
      have hbeat := step_dec (L := L) (rest := bs ++ rest) hturns hr hroom
      rw [hfail, show remBits - min 8 remBits = remBits - 8 by omega, ← hlen'] at hbeat
      rw [hfail]
      exact (run_step bs.length hbeat).trans (run_drain_failed (s := pushSyms r.syms s) hturns e w)

/-- A whole DECODE of a tree with an Internal root, from its start step to its end: one bit loop from the root over the
payload, but for one that meets a Free entry (R191, R193). -/
theorem run_decode (hturns : s.turns = []) (hL : s.engine = .pending L) (hd : decodeCmd L.word = .ok .decode)
    (hroot : ∀ sym, s.arena.get 0 ≠ .leaf sym) (hq : s.inQ = bytes ++ rest)
    (hlen : bytes.length = ceil8 L.arg0.toNat)
    (hscan : scanBits s.arena ((unpackBits bytes).take L.arg0.toNat) 0 0 0 = scan)
    (hfree : scan.stop ≠ some .freeEntry) (hroom : s.outQ.length + scan.syms.length ≤ Config.outDepth) :
    runSteps (1 + bytes.length) s =
      decFinish L 0 scan (pushSyms scan.syms { s with decSymcount := 0, inQ := rest }) := by
  rw [run_start hturns hL hd (exec_decode_internal hL hroot)]
  rcases Nat.eq_zero_or_pos L.arg0.toNat with hzero | hpos
  · obtain rfl : bytes = [] := List.length_eq_zero_iff.mp (by rw [hlen, hzero]; rfl)
    obtain rfl : scan = ⟨[], 0, 0, 0, none⟩ := by rw [← hscan, hzero]; rfl
    rw [if_neg (by omega)]
    simp [decFinish, pushSyms, outPushAll, setEngine, run_zero, hq]
  · have hrun := run_dec (s := { s with decSymcount := 0 }) (L := L) (rest := rest) hturns hpos hlen hscan hfree hroom
    rw [← hq] at hrun
    rw [if_pos hpos]
    exact hrun

/-! ### The payloads of R195 and R196 -/

/-- The bit loop along a path to a node that is no Leaf pushes nothing and ends at that node (R193). -/
theorem scanBits_path {a : Arena} {p : Code} {k : NodeIdx} (i start : Nat) (hd : descend a cur p = some k)
    (hk : ∀ sym, a.get k ≠ .leaf sym) :
    scanBits a p cur i start = { syms := [], cur := k, i := i + p.length, start := start, stop := none } := by
  induction p generalizing cur i with
  | nil => simp only [descend_nil, Option.some.injEq] at hd; subst hd; rfl
  | cons x p ih =>
    obtain ⟨nxt, hc, hd⟩ := descend_cons.mp hd
    have hnxt : leafSym? a nxt = none :=
      leafSym_eq_none.mpr fun sym hleaf => hk sym (by rwa [(leaf_descend hleaf hd).2])
    rw [scanBits, hc]
    simp only [hnxt, ih (i + 1) hd, List.length_cons, Scan.mk.injEq, and_true, true_and]
    omega

/-- The codes of a tree whose root is no Leaf are not empty (R122). -/
theorem code_ne_nil {a : Arena} {sym : Byte} {c : Code} (hroot : ∀ sym, a.get 0 ≠ .leaf sym) (hc : codeIs a sym c) :
    c ≠ [] := by
  rintro rfl
  obtain ⟨j, hj, hleaf⟩ := hc
  simp only [descend_nil, Option.some.injEq] at hj
  exact hroot sym (hj ▸ hleaf)

/-- The bit loop over whole codes and then a path to a node that is no Leaf pushes the codes' symbols and ends at that
node, in a code that began where the path begins (R193). -/
theorem scanBits_codes_path {a : Arena} {es : List (Byte × Code)} {p : Code} {k : NodeIdx}
    (hroot : ∀ sym, a.get 0 ≠ .leaf sym) (hes : ∀ e ∈ es, codeIs a e.1 e.2) (hd : descend a 0 p = some k)
    (hk : ∀ sym, a.get k ≠ .leaf sym) :
    scanBits a (es.flatMap (·.2) ++ p) 0 0 0 =
      { syms := es.map (·.1), cur := k, i := (es.flatMap (·.2) ++ p).length
        start := (es.flatMap (·.2)).length, stop := none } := by
  rw [scanBits_append, scanBits_codes es 0 fun e he => ⟨code_ne_nil hroot (hes e he), hes e he⟩]
  simp [scanBits_path _ _ hd hk]

/-- A proper, non-empty beginning of a code leads to a node that is neither a Leaf nor the root (R123). -/
theorem node_of_properPrefix {sym : Byte} {c p : Code} (htree : TreeOk s) (hc : codeIs s.arena sym c) (hp : p <+: c)
    (hne : p ≠ c) (hnil : p ≠ []) :
    ∃ k, descend s.arena 0 p = some k ∧ k ≠ 0 ∧ ∀ sym', s.arena.get k ≠ .leaf sym' := by
  obtain ⟨d, rfl⟩ := hp
  obtain ⟨j, hj, -⟩ := hc
  obtain ⟨k, hk, hd⟩ := descend_append.mp hj
  refine ⟨k, hk, ?_, fun sym' hleaf => ?_⟩
  · rintro rfl
    exact hnil (path_unique htree.shape hk (descend_nil _ _))
  · exact hne (by rw [(leaf_descend hleaf hd).1, List.append_nil])

/-- Settles O35: the bit loop over the payload ends inside a code, so its end raises TRUNCATED. -/
theorem decodeRunTruncated : Obligations.DecodeRunTruncated := by
  intro s L es sym c p bytes rest htree hturns hL hd hroot hes hc hp hne hnil hbits hq hlen hpayload hroom
  obtain ⟨k, hk, hk0, hkleaf⟩ := node_of_properPrefix htree hc hp hne hnil
  have hscan := scanBits_codes_path hroot hes hk hkleaf
  rw [← hpayload] at hscan
  rw [run_decode hturns hL hd hroot hq hlen hscan (by simp) (by simpa using hroom)]
  refine (if_pos hk0).trans ?_
  rw [failWith_decoded, List.length_map]

/-- Settles O36: the bit loop stops at the NIL child, which raises INVALID_CODE; the waits are the beat's conditions. -/
theorem decodeRunInvalidCode : Obligations.DecodeRunInvalidCode := by
  refine ⟨?run, fun s L remBits i cur start he => ⟨engineStep_dec_noInput he, fun b rest hq hfull => ?room⟩⟩
  case room => rw [engineStep_dec_input he hq, if_neg (Nat.not_le.mpr hfull)]
  case run =>
    intro s L es p ys x k bytes rest htree hturns hL hd hroot hes hk hnil hbits hq hlen hpayload hroom
    have hkleaf : ∀ sym, s.arena.get k ≠ .leaf sym := by
      obtain ⟨l, r, hinternal, -⟩ := child_eq_nil.mp hnil
      simp [hinternal]
    have hscan : scanBits s.arena ((unpackBits bytes).take L.arg0.toNat) 0 0 0 =
        { syms := es.map (·.1), cur := k, i := (es.flatMap (·.2) ++ p).length
          start := (es.flatMap (·.2)).length, stop := some .invalidCode } := by
      rw [hpayload, scanBits_append, scanBits_codes_path hroot hes hk hkleaf]
      simp [scanBits, hnil]
    rw [run_decode hturns hL hd hroot hq hlen hscan (by simp) (by simpa using hroom)]
    refine (failWith_decoded _ _ _ _ _).trans ?_
    rw [List.length_map]

/-- Settles O37: the start step enters DECLEAF, and `run_decLeaf` is the rest. -/
theorem decodeRootLeafRun : Obligations.DecodeRootLeafRun := by
  refine ⟨fun s L sym hturns hL hd hroot hzero hroom => ?run, fun _ _ _ _ => engineStep_decLeaf_full⟩
  have hstart := exec_decode_rootLeaf hL hroot
  rw [if_neg (by simp [hzero])] at hstart
  rw [run_start hturns hL hd hstart, run_decLeaf (s := { s with decSymcount := 0 }) hturns hroom]
  simp [pushSyms, outPushAll, setEngine]

end Sys2Proof.Machine
end

section
/-! The run of DRAIN (45_control R214). -/

namespace Sys2Proof.Machine

variable {s : State} {L : Latched} {rem : Nat}

/-- Without an input byte the beat that drains is not enabled (R219, log 3). -/
theorem engineStep_drain_noInput (he : s.engine = .drain L rem) (hq : s.inQ = []) : engineStep s = .next s := by
  unfold engineStep; rw [he]; unfold drainBeat; rw [hq]

/-- Settles O14: `run_drain`, on the bytes owed and those behind them. -/
theorem drainTakesTheRest : Obligations.DrainTakesTheRest := by
  refine ⟨fun s L rem hturns he hpos hlen => ?run, fun s L rem => engineStep_drain_noInput⟩
  have hrun := run_drain (L := L) (bytes := s.inQ.take rem) (rest := s.inQ.drop rem) hturns
  rw [List.length_take_of_le hlen, List.take_append_drop, drainOrIdle_pos hpos, ← he] at hrun
  exact hrun

end Sys2Proof.Machine
end

section
/-! Writes to registers on the bus: what a register that stores or ignores does with one (45_control R217), and a word
written to CMD (R212). -/

namespace Sys2Proof.Machine

variable {s : State}

/-! ### Registers that store or ignore (R217, 20_memory R62) -/

/-- A write to a register other than CTRL and CMD only stores or is ignored. -/
theorem hostStep_writeReg {r : Reg} (hctrl : r ≠ .ctrl) (hcmd : r ≠ .cmd) (v : Word) (s : State) :
    hostStep (.write (regOffset r) 4 0b1111#4 v) s = .next (writePlainReg r v (respond .written s)) := by
  refine (memWrite_word (regOffset_range r).1).trans ?_
  unfold writeEffect
  rw [regAt_regOffset]
  cases r with
  | ctrl => exact absurd rfl hctrl
  | cmd => exact absurd rfl hcmd
  | _ => rfl

/-- What the host has seen shows in no register (log 2). -/
theorem readReg_respond (r : Reg) (a : Response) (s : State) : readReg r (respond a s) = readReg r s := by
  cases r <;> rfl

/-- An operand register reads back what was written to it. -/
theorem readReg_writePlainReg_same {r : Reg} (h : r = .arg0 ∨ r = .arg1 ∨ ∃ k, r = .code k) (v : Word) (s : State) :
    readReg r (writePlainReg r v s) = v := by
  obtain rfl | rfl | ⟨k, rfl⟩ := h
  · rfl
  · rfl
  · simp [readReg, writePlainReg, Vector.get_eq_getElem]

/-- A plain write to one register shows in no other. -/
theorem readReg_writePlainReg_other {r r' : Reg} (h : r' ≠ r) (v : Word) (s : State) :
    readReg r' (writePlainReg r v s) = readReg r' s := by
  cases r with
  | arg0 =>
    cases r' with
    | arg0 => exact absurd rfl h
    | _ => rfl
  | arg1 =>
    cases r' with
    | arg1 => exact absurd rfl h
    | _ => rfl
  | code k =>
    cases r' with
    | code k' =>
      have hk : k.val ≠ k'.val := fun e => h (congrArg Reg.code (Fin.ext e.symm))
      exact Vector.getElem_set_ne k.isLt k'.isLt hk
    | _ => rfl
  | _ => rfl

theorem writePlainReg_engine (r : Reg) (v : Word) (s : State) : (writePlainReg r v s).engine = s.engine := by
  cases r <;> rfl

/-- Settles O42: the operand registers store, the read-only ones ignore. -/
theorem plainRegisterAccess : Obligations.PlainRegisterAccess := by
  refine ⟨fun s r v hr => ⟨writePlainReg r v (respond .written s), ?written, readReg_writePlainReg_same hr v _,
    fun r' hne => ?others, writePlainReg_engine r v _⟩, fun s r v hr => ?readOnly⟩
  case written =>
    exact hostStep_writeReg (by rintro rfl; simp at hr) (by rintro rfl; simp at hr) v s
  case others => rw [readReg_writePlainReg_other hne, readReg_respond]
  case readOnly =>
    rw [hostStep_writeReg (by rintro rfl; simp at hr) (by rintro rfl; simp at hr)]
    cases r with
    | arg0 => simp at hr
    | arg1 => simp at hr
    | code k => simp at hr
    | _ => rfl

/-! ### CMD (R212) -/

/-- A word written to CMD acts in the bus step itself, once the host has seen its answer. -/
theorem hostStep_writeCmd (s : State) (w : Word) :
    hostStep (.write 0x10 4 0b1111#4 w) s = .next (cmdWrite w (respond .written s)) :=
  memWrite_word (by decide)

theorem cmdWrite_busy (h : s.engine ≠ .idle) (w : Word) : cmdWrite w s = { s with ovr := true } :=
  if_pos (statusBusy_iff.mpr h)

/-- In IDLE only a pending error keeps a word from being latched, and no word with the opcode of NOP or CLEAR_ERR. -/
theorem cmdWrite_idle (h : s.engine = .idle) (w : Word) :
    cmdWrite w s =
      if s.err ∧ fieldOpcode w ≠ 0x00 ∧ fieldOpcode w ≠ 0x08 then s
      else { s with engine := .pending (latchOf w s) } :=
  if_neg (by simp [statusBusy_false.mpr h])

theorem cmdWrite_refused {w : Word} (h : s.engine = .idle) (herr : s.err = true) (hnop : fieldOpcode w ≠ 0x00)
    (hclear : fieldOpcode w ≠ 0x08) : cmdWrite w s = s :=
  (cmdWrite_idle h w).trans (if_pos ⟨herr, hnop, hclear⟩)

theorem cmdWrite_latched {w : Word} (h : s.engine = .idle)
    (haccept : s.err = false ∨ fieldOpcode w = 0x00 ∨ fieldOpcode w = 0x08) :
    cmdWrite w s = { s with engine := .pending (latchOf w s) } := by
  refine (cmdWrite_idle h w).trans (if_neg fun ⟨herr, hnop, hclear⟩ => ?_)
  rcases haccept with hno | hop | hop
  · rw [hno] at herr; cases herr
  · exact hnop hop
  · exact hclear hop

/-- Settles O8: the three branches of the CMD write; a response seen changes neither what a word meets nor what it
latches. -/
theorem cmdWriteEffects : Obligations.CmdWriteEffects := by
  intro s w
  rw [hostStep_writeCmd]
  exact ⟨fun hbusy => congrArg _ (cmdWrite_busy (s := respond .written s) hbusy w),
    fun hidle herr hnop hclear => congrArg _ (cmdWrite_refused (s := respond .written s) hidle herr hnop hclear),
    fun hidle haccept => congrArg _ (cmdWrite_latched (s := respond .written s) hidle haccept)⟩

end Sys2Proof.Machine
end

section
/-! The steps that run an instruction (45_control R213, 30_encoding R94), and the control instructions NOP, CLEAR_ERR and
ABORT (45_control R210, R211, R216). -/

namespace Sys2Proof.Machine

variable {s : State} {L : Latched}

/-- Settles O7: the agent whose turn is due is the engine that starts the command, or the host that writes CTRL. -/
theorem stepRunsTheDecodedInstruction : Obligations.StepRunsTheDecodedInstruction := by
  refine ⟨fun s L i hL hd => ⟨fun hturns => ?silent, fun ts hturns => ?engineTurn⟩, fun s v i ts hturns hd => ?ctrl⟩
  case silent => rw [step_engine hturns, engineStep_pending hL hd]
  case engineTurn => exact (step_engineTurn hturns).trans (engineStep_pending hL hd)
  case ctrl => rw [step_hostTurn hturns, hostStep_writeCtrl, ctrlWrite_action hd]; rfl

/-! ### NOP and CLEAR_ERR (R210, R211) -/

/-- A word with RSVD != 0 raises ILLEGAL_CMD when it starts, but for FLUSH's opcode, which may have to wait (R93). -/
theorem engineStep_reservedBits (hL : s.engine = .pending L) (hop : fieldOpcode L.word ≠ 0x06)
    (hrsvd : fieldRsvd L.word ≠ 0) :
    engineStep s = .next { raise .illegalCmd L.word s with engine := .idle } :=
  illegalWordRaises.2 s L hL (.inr hrsvd) fun hflush => absurd hflush hop

theorem exec_nop (hL : s.engine = .pending L) : exec .nop s = .next (setEngine .idle s) :=
  startStep_pending hL _

theorem exec_clearErr (hL : s.engine = .pending L) : exec .clearErr s = .next (setEngine .idle (clearError s)) :=
  startStep_pending hL _

/-- Settles O10: the decoder by `decodeCmd_nop`, and NOP's opcode is none that R212 refuses. -/
theorem nopResult : Obligations.NopResult :=
  ⟨decodeCmd_nop, fun _ _ => exec_nop, fun _ _ hidle _ hop => cmdWrite_latched hidle (.inr (.inl hop)),
    fun _ _ hL hop => engineStep_reservedBits hL (by simp [hop])⟩

/-- Settles O11: the decoder by `decodeCmd_clearErr`; with RSVD != 0 the pending error is the first, so it is kept. -/
theorem clearErrResult : Obligations.ClearErrResult := by
  refine ⟨decodeCmd_clearErr, fun _ _ => exec_clearErr,
    fun _ _ hidle _ hop => cmdWrite_latched hidle (.inr (.inr hop)), fun s L hL hop hrsvd herr => ?_⟩
  rw [engineStep_reservedBits hL (by simp [hop]) hrsvd, raise_later herr]

/-! ### ABORT (R216) -/

theorem exec_abort_idle (h : s.engine = .idle) : exec .abort s = .next s := by
  show execAbort s = _
  unfold execAbort; rw [latched_none.mpr h]

theorem exec_abort_busy (h : latched? s.engine = some L) :
    exec .abort s = .next (setEngine .idle (raise .aborted L.word s)) := by
  show execAbort s = _
  unfold execAbort; rw [h]

/-- Settles O13: an IDLE engine, and one with a command, with and without an error pending. -/
theorem abortResult : Obligations.AbortResult := by
  intro s
  refine ⟨exec_abort_idle, fun L hL hfirst => ?first, fun L hL hlater => ?later, fun v => (ctrlWriteActs s v).2.1⟩
  case first => rw [exec_abort_busy hL, raise_first hfirst]; rfl
  case later => rw [exec_abort_busy hL, raise_later hlater]; rfl

end Sys2Proof.Machine
end

section
/-! HostBuild's failure (46_host_reference R234): the collection of waiting nodes is empty at the end of the merges
exactly when it is empty at their start, and that is when no count is nonzero. -/

namespace Sys2Proof.Machine

@[simp] theorem insertWaiting_ne_nil (w : Waiting) (xs : List Waiting) : insertWaiting w xs ≠ [] := by
  cases xs with
  | nil => simp [insertWaiting]
  | cons x xs => unfold insertWaiting; split <;> simp

/-- A merge puts one node in for the two it removes, so it empties no collection (R233). -/
theorem mergeOnce_eq_nil_iff (c : Nat × List Waiting) : (mergeOnce c).2 = [] ↔ c.2 = [] := by
  match c with
  | (_, []) => simp [mergeOnce]
  | (_, [_]) => simp [mergeOnce]
  | (_, _ :: _ :: _) => simp [mergeOnce]

theorem mergeTimes_eq_nil_iff (n : Nat) (c : Nat × List Waiting) : (mergeTimes n c).2 = [] ↔ c.2 = [] := by
  induction n generalizing c with
  | zero => rfl
  | succ n ih => exact (ih (mergeOnce c)).trans (mergeOnce_eq_nil_iff c)

theorem foldr_insertWaiting_eq_nil_iff (ws : List Waiting) : ws.foldr insertWaiting [] = [] ↔ ws = [] := by
  cases ws <;> simp

/-- A symbol gets a leaf exactly when its count is nonzero (R231). -/
theorem hostLeaves_eq_nil_iff (freq : List Nat) (sym seq : Nat) :
    hostLeaves freq sym seq = [] ↔ ∀ c ∈ freq, c = 0 := by
  induction freq generalizing sym seq with
  | nil => simp [hostLeaves]
  | cons c cs ih =>
    by_cases hc : c = 0
    · simp [hostLeaves, hc, ih]
    · simp [hostLeaves, hc, Nat.pos_of_ne_zero hc]

theorem hostBuild_eq_error_iff (freq : List Nat) :
    hostBuild freq = .error .emptyAlphabet ↔ hostLeaves freq 0 0 = [] := by
  rw [← foldr_insertWaiting_eq_nil_iff,
    ← mergeTimes_eq_nil_iff ((hostLeaves freq 0 0).length - 1) ((hostLeaves freq 0 0).length, _)]
  dsimp only [hostBuild]
  split
  next hnil => simp [hnil]
  next hcons => simp [hcons]

/-- Settles O59: HostBuild fails when it starts without a leaf, and a leaf is a nonzero count. -/
theorem hostBuildFailsOnlyEmpty : Obligations.HostBuildFailsOnlyEmpty :=
  fun freq => (hostBuild_eq_error_iff freq).trans (hostLeaves_eq_nil_iff freq 0 0)

end Sys2Proof.Machine
end

section
/-! The round trip of a table's text (46_host_reference R240 to R242): a symbol line and a code line parse back to what
they were written from, and the lines of a text written line by line are those lines, since none of them holds a newline. -/

namespace Sys2Proof.Machine

/-! ### The symbol line (R240, R242 item 2) -/

@[simp] theorem digitValue_digitChar {d : Nat} (h : d < 10) : digitValue (digitChar d) = some d := by
  interval_cases d <;> rfl

/-- A newline has no digit's value. -/
theorem newline_ne_digitChar {d : Nat} (h : d < 10) : '\n' ≠ digitChar d := by
  intro e
  have hnone : digitValue '\n' = none := by decide
  rw [e, digitValue_digitChar h] at hnone
  cases hnone

/-- A number of up to three digits, the first of them the number's hundreds, tens or units. -/
theorem decimalText_cases {n : Nat} (h : n < 1000) :
    (n < 10 ∧ decimalText n = [digitChar n]) ∨
    (n / 10 < 10 ∧ decimalText n = [digitChar (n / 10), digitChar (n % 10)]) ∨
    (n / 100 < 10 ∧ decimalText n = [digitChar (n / 100), digitChar (n / 10 % 10), digitChar (n % 10)]) := by
  unfold decimalText
  split
  · exact .inl ⟨‹_›, rfl⟩
  · split
    · exact .inr (.inl ⟨by omega, rfl⟩)
    · exact .inr (.inr ⟨by omega, rfl⟩)

theorem digitsValue_decimalText {n : Nat} (h : n < 1000) : digitsValue (decimalText n) 0 = some n := by
  have digit (m : Nat) : digitValue (digitChar (m % 10)) = some (m % 10) :=
    digitValue_digitChar (Nat.mod_lt m (by decide))
  obtain ⟨hd, e⟩ | ⟨hd, e⟩ | ⟨hd, e⟩ := decimalText_cases h <;>
    simp only [e, digitsValue, digit, digitValue_digitChar hd, Option.some.injEq] <;> omega

theorem decimalText_ne_nil {n : Nat} (h : n < 1000) : decimalText n ≠ [] := by
  obtain ⟨-, e⟩ | ⟨-, e⟩ | ⟨-, e⟩ := decimalText_cases h <;> simp [e]

theorem newline_notMem_decimalText {n : Nat} (h : n < 1000) : '\n' ∉ decimalText n := by
  have digit (m : Nat) : '\n' ≠ digitChar (m % 10) := newline_ne_digitChar (Nat.mod_lt m (by decide))
  obtain ⟨hd, e⟩ | ⟨hd, e⟩ | ⟨hd, e⟩ := decimalText_cases h <;> simp [e, digit, newline_ne_digitChar hd]

theorem byte_lt_1000 (b : Byte) : b.toNat < 1000 := b.isLt.trans (by decide)

@[simp] theorem parseSymbol_decimalText (b : Byte) : parseSymbol (decimalText b.toNat) = some b := by
  have hle : b.toNat ≤ 255 := Nat.le_of_lt_succ b.isLt
  simp [parseSymbol, decimalText_ne_nil (byte_lt_1000 b), digitsValue_decimalText (byte_lt_1000 b), hle]

/-! ### The code line (R240, R242 items 3 and 4) -/

theorem parseBits_codeText (c : Code) : parseBits (codeText c) = some c := by
  induction c with
  | nil => rfl
  | cons b c ih =>
    have hcons : codeText (b :: c) = (if b then '1' else '0') :: codeText c := rfl
    cases b <;> simp [hcons, parseBits, ih]

theorem parseCode_codeText {c : Code} (h : c.length ≤ Config.maxCodeLen) : parseCode (codeText c) = some c := by
  have hlen : (codeText c).length ≤ Config.maxCodeLen := by simpa [codeText] using h
  rw [parseCode, if_pos hlen, parseBits_codeText]

theorem newline_notMem_codeText (c : Code) : '\n' ∉ codeText c := by
  intro h
  obtain ⟨b, -, hb⟩ := List.mem_map.mp h
  cases b <;> simp at hb

/-! ### The lines of a text (R241) -/

theorem splitLines_line {l : List Char} (h : '\n' ∉ l) : splitLines l = [l] := by
  induction l with
  | nil => rfl
  | cons c l ih =>
    obtain ⟨hc, hl⟩ := not_or.mp (List.mem_cons.not.mp h)
    simp [splitLines, Ne.symm hc, ih hl]

theorem splitLines_line_append {l : List Char} (h : '\n' ∉ l) (text : List Char) :
    splitLines (l ++ '\n' :: text) = l :: splitLines text := by
  induction l with
  | nil => simp [splitLines]
  | cons c l ih =>
    obtain ⟨hc, hl⟩ := not_or.mp (List.mem_cons.not.mp h)
    simp [splitLines, Ne.symm hc, ih hl]

/-- A text written line by line, each line ended by a newline, as HostSave writes (R240). -/
def linesText (ls : List (List Char)) : List Char := ls.flatMap (· ++ ['\n'])

theorem linesText_cons (l : List Char) (ls : List (List Char)) : linesText (l :: ls) = l ++ '\n' :: linesText ls := by
  simp [linesText]

theorem linesText_concat (ls : List (List Char)) (l : List Char) :
    linesText (ls ++ [l]) = linesText ls ++ l ++ ['\n'] := by
  simp [linesText]

theorem splitLines_linesText_append {ls : List (List Char)} (hls : ∀ l ∈ ls, '\n' ∉ l) {l : List Char} (hl : '\n' ∉ l) :
    splitLines (linesText ls ++ l) = ls ++ [l] := by
  induction ls with
  | nil => exact splitLines_line hl
  | cons x xs ih =>
    obtain ⟨hx, hxs⟩ := List.forall_mem_cons.mp hls
    rw [linesText_cons, List.append_assoc, List.cons_append, splitLines_line_append hx, ih hxs, List.cons_append]

@[simp] theorem dropFinalNewline_concat (text : List Char) : dropFinalNewline (text ++ ['\n']) = text := by
  simp [dropFinalNewline]

/-- Only the newline of the last line is dropped, so the empty lines at the end of a text stay lines. -/
theorem textLines_linesText {ls : List (List Char)} (h : ∀ l ∈ ls, '\n' ∉ l) : textLines (linesText ls) = ls := by
  obtain rfl | ⟨xs, l, rfl⟩ := List.eq_nil_or_concat' ls
  · rfl
  · obtain ⟨hxs, hl⟩ := List.forall_mem_append.mp h
    rw [linesText_concat, textLines, if_neg (by simp), dropFinalNewline_concat,
      splitLines_linesText_append hxs (hl l (List.mem_singleton_self l))]

/-! ### The text of a table -/

/-- The two lines of an entry (R240). -/
def entryLines (e : Byte × Code) : List (List Char) := [decimalText e.1.toNat, codeText e.2]

theorem tableText_eq_linesText (es : List (Byte × Code)) : tableText es = linesText (es.flatMap entryLines) := by
  have hentry (e : Byte × Code) : entryText e = linesText (entryLines e) := by
    simp [entryText, entryLines, linesText]
  rw [tableText, funext hentry]
  exact List.flatMap_assoc.symm

theorem newline_notMem_entryLines (e : Byte × Code) : ∀ l ∈ entryLines e, '\n' ∉ l := by
  simp [entryLines, newline_notMem_decimalText (byte_lt_1000 e.1), newline_notMem_codeText]

theorem textLines_tableText (es : List (Byte × Code)) : textLines (tableText es) = es.flatMap entryLines := by
  rw [tableText_eq_linesText]
  refine textLines_linesText fun l hl => ?_
  obtain ⟨e, -, he⟩ := List.mem_flatMap.mp hl
  exact newline_notMem_entryLines e l he

theorem parsePairs_entryLines {es : List (Byte × Code)} (h : ∀ e ∈ es, e.2.length ≤ Config.maxCodeLen) :
    parsePairs (es.flatMap entryLines) = .ok es := by
  induction es with
  | nil => rfl
  | cons e es ih =>
    obtain ⟨he, hes⟩ := List.forall_mem_cons.mp h
    have hcons : (e :: es).flatMap entryLines = decimalText e.1.toNat :: codeText e.2 :: es.flatMap entryLines := rfl
    simp [hcons, parsePairs, parseCode_codeText he, ih hes]

/-- Settles O58: the lines of the text are the entries' lines, and each pair of lines parses to its entry. -/
theorem hostParseOfTableText : Obligations.HostParseOfTableText := by
  intro es h
  rw [hostParse, textLines_tableText, parsePairs_entryLines h]

end Sys2Proof.Machine
end

section
/-! The tree and the table after an engine step (10_state R47 items 1 to 5 and 7): a tree command leaves a tree and a
stale table, WALK fills the table from the tree, and every other step leaves both. -/

namespace Sys2Proof.Machine

variable {s t : State} {L : Latched} {sym : Byte} {len : Nat}

/-! ### TREE_INSERT in a tree (41_tree_build R133 to R137) -/

theorem treeOk_of_failWith {e : ErrCode} {w : Word} {g : Engine} (htree : TreeOk s) :
    ∃ t, failWith e w g s = .next t ∧ TreeOk t :=
  ⟨_, rfl, treeOk_congr htree (by simp) (by simp) (by simp)⟩

/-- A walk that ends at a bare node ends at the root of the empty tree, which then becomes the leaf (R137). -/
theorem treeOk_of_insertBare {cur : NodeIdx} (htree : TreeOk s) (hbare : s.arena.get cur = .internal none none) :
    ∃ t, insertAfterWalk sym len s (.ends cur) = .next t ∧ TreeOk t := by
  obtain rfl := htree.hasChild cur hbare
  obtain ⟨t, hdone, -, ha, hn, hm⟩ := insertDone_next (insertAfterWalk_ends_bare (len := len) hbare)
  exact ⟨t, hdone, (treeOk_of_rootLeaf htree hbare ha hn hm).1⟩

/-- A walk that ends at a node of the tree never faults: the node is not Free (40_code_tree R121). -/
theorem insertAfterWalk_ends_treeOk {cur : NodeIdx} (htree : TreeOk s) (hcur : s.arena.get cur ≠ .free) :
    ∃ t, insertAfterWalk sym len s (.ends cur) = .next t ∧ TreeOk t := by
  cases hnode : s.arena.get cur with
  | free => exact absurd hnode hcur
  | leaf sym' => rw [insertAfterWalk_ends_leaf hnode]; exact treeOk_of_failWith htree
  | internal l r =>
    by_cases hchild : l ≠ none ∨ r ≠ none
    · rw [insertAfterWalk_ends_parent hnode hchild]; exact treeOk_of_failWith htree
    · obtain ⟨rfl, rfl⟩ : l = none ∧ r = none := by simpa using hchild
      exact treeOk_of_insertBare htree hnode

/-- TREE_INSERT in a tree answers, and what it leaves is a tree. -/
theorem exec_treeInsert_treeOk (htree : TreeOk s) (hL : s.engine = .pending L) (hlen : len ≤ Config.maxCodeLen) :
    ∃ t, exec (.treeInsert sym len) s = .next t ∧ TreeOk t := by
  cases hnew : s.leafmap.get (symIdx sym) with
  | true => rw [exec_treeInsert_dupSymbol hL hnew]; exact treeOk_of_failWith htree
  | false =>
    have hlength : (codeOperand L.code len).length = len := codeOperand_length _ _
    have hspec := insertWalk_spec s.arena (codeOperand L.code len) 0 0
    rw [exec_treeInsert_new hL hnew]
    cases hwalk : insertWalk s.arena (codeOperand L.code len) 0 0 with
    | leafAt k => exact treeOk_of_failWith htree
    | ends cur =>
      rw [hwalk] at hspec
      exact insertAfterWalk_ends_treeOk htree (descend_notFree htree hspec)
    | gap cur k rest =>
      rw [hwalk] at hspec
      obtain ⟨j, -, hj, rfl, hpath, hgap⟩ := hspec
      rcases Nat.lt_or_ge Config.nodeCap (s.nodeCount + ((codeOperand L.code len).drop j).length) with hfull | hroom
      · rw [insertAfterWalk_gap_full hfull]; exact treeOk_of_failWith htree
      · obtain ⟨t, hdone, -, ha, hn, hm⟩ := insertDone_next (insertAfterWalk_gap_room (len := len) (k := k) hroom)
        exact ⟨t, hdone, (treeOk_of_grown htree (hlength.trans_le hlen) hj hpath hgap hroom hnew ha hn hm).1⟩
    | freeEntry =>
      rw [hwalk] at hspec
      obtain ⟨j, i, -, hpath, hfree⟩ := hspec
      exact absurd hfree (descend_notFree htree hpath)

/-! ### Every engine step -/

/-- The table matches the tree while neither changes. -/
theorem tableOk_congr (h : TableOk s) (ha : t.arena = s.arena) (hc : t.clt = s.clt) (hv : t.cltValid = s.cltValid) :
    TableOk t := by
  unfold TableOk; rw [ha, hc, hv]; exact h

/-- The length a TREE_INSERT word gives is one a code of the tree can have (30_encoding R90). -/
theorem starts_treeInsert_len_le (hs : starts s (.treeInsert sym len)) : len ≤ Config.maxCodeLen := by
  obtain ⟨L, -, hd⟩ := hs
  exact of_decide_eq_true (decodeCmd_wellFormed hd).1

theorem engineStep_of_starts {i : Instr} (hs : starts s i) : engineStep s = exec i s := by
  obtain ⟨L, hL, hd⟩ := hs
  exact engineStep_pending hL hd

/-- A tree command of a tree leaves a tree. -/
theorem engineStep_treeCommand_treeOk (htree : TreeOk s)
    (hs : starts s .treeClear ∨ ∃ sym len, starts s (.treeInsert sym len)) (h : engineStep s = .next t) :
    TreeOk t := by
  rcases hs with hs | ⟨sym, len, hs⟩ <;> rw [engineStep_of_starts hs] at h <;> have ⟨L, hL, _⟩ := hs
  · cases (startStep_pending hL _).symm.trans h
    exact treeOk_empty rfl rfl rfl
  · obtain ⟨t', ht', htree'⟩ := exec_treeInsert_treeOk htree hL (starts_treeInsert_len_le hs)
    cases ht'.symm.trans h
    exact htree'

/-- WALK of a tree leaves the tree's codes in the table. -/
theorem engineStep_walk_entries {emit : Bool} (htree : TreeOk s) (hs : starts s (.walk emit))
    (h : engineStep s = .next t) (sym : Byte) (c : Code) :
    t.clt.get (symIdx sym) = some c ↔ codeIs s.arena sym c := by
  have ⟨L, hL, _⟩ := hs
  obtain ⟨t', leaves, ht', -, hentries, -⟩ := walkFillsTheTable s L emit htree hL
  cases ht'.symm.trans ((engineStep_of_starts hs).symm.trans h)
  exact hentries sym c

/-- The three kinds of effect `EngineEffect.tree_and_table` tells apart keep the tree and its table. -/
theorem engineStep_keeps_tree_and_table (htree : TreeOk s) (htable : TableOk s) (h : engineStep s = .next t) :
    TreeOk t ∧ TableOk t := by
  obtain ⟨u, he, ht⟩ := (engineStep_moves h).frame
  obtain ⟨ta, tn, tm, tc, tv⟩ : t.arena = u.arena ∧ t.nodeCount = u.nodeCount ∧ t.leafmap = u.leafmap ∧
      t.clt = u.clt ∧ t.cltValid = u.cltValid := by rw [ht]; exact ⟨rfl, rfl, rfl, rfl, rfl⟩
  rcases he.tree_and_table with ⟨hs, -, hv⟩ | ⟨⟨emit, hs⟩, ha, hn, hm, -⟩ | ⟨ha, hn, hm, hc, hv⟩
  · exact ⟨engineStep_treeCommand_treeOk htree hs h, fun hvalid => by simp [tv, hv] at hvalid⟩
  · refine ⟨treeOk_congr htree (ta.trans ha) (tn.trans hn) (tm.trans hm), fun _ sym c => ?_⟩
    rw [ta, ha]
    exact engineStep_walk_entries htree hs h sym c
  · exact ⟨treeOk_congr htree (ta.trans ha) (tn.trans hn) (tm.trans hm),
      tableOk_congr htable (ta.trans ha) (tc.trans hc) (tv.trans hv)⟩

end Sys2Proof.Machine
end

section
/-! The error state and the engine's fields after an engine step (10_state R40, R42, R47): from a state with the
invariant the step answers, an error code is recorded exactly while ERR is 1, and the counts and the cursor of the
engine state it leaves are in range. -/

namespace Sys2Proof.Machine

variable {s t : State} {L : Latched} {e : ErrCode} {w : Word} {rem : Nat}

/-! ### The error state (R42, 60_exceptions R262) -/

theorem errorOk_none (herr : s.err = false) (hcode : s.errcode = .noError) (hinfo : s.errInfo = 0) : ErrorOk s :=
  ⟨by simp [herr, hcode], fun _ => hinfo⟩

theorem errorOk_raise (h : ErrorOk s) (he : e ≠ .noError) : ErrorOk (raise e w s) := by
  cases herr : s.err with
  | false => rw [raise_first herr]; exact ⟨by simp [he], by simp⟩
  | true => rw [raise_later herr]; exact h

/-! ### What the engine invariant says in each engine state (R40) -/

theorem engineOk_idle (hg : s.engine = .idle) : EngineOk s := by
  unfold EngineOk; rw [hg]; trivial

theorem engineOk_pending (hg : s.engine = .pending L) : EngineOk s := by
  unfold EngineOk; rw [hg]; trivial

theorem engineOk_enc {j : Nat} (hg : s.engine = .enc L rem j) :
    EngineOk s ↔ 0 < rem ∧ rem + j = L.arg0.toNat ∧ s.cltValid = true := by
  unfold EngineOk; rw [hg]

theorem engineOk_dec {i start : Nat} {cur : NodeIdx} (hg : s.engine = .dec L rem i cur start) :
    EngineOk s ↔ 0 < rem ∧ rem + i = L.arg0.toNat ∧ start ≤ i ∧ (cur = 0 ↔ start = i) ∧
      ∃ l r, s.arena.get cur = .internal l r := by
  unfold EngineOk; rw [hg]

theorem engineOk_decLeaf {sym : Byte} (hg : s.engine = .decLeaf L rem sym) :
    EngineOk s ↔ 0 < rem ∧ rem ≤ L.arg1.toNat ∧ s.arena.get 0 = .leaf sym := by
  unfold EngineOk; rw [hg]

theorem engineOk_walk {q : List Record} (hg : s.engine = .walk L q) :
    EngineOk s ↔ q ≠ [] ∧ (∀ r ∈ q, r.code.length ≤ Config.maxCodeLen) ∧ s.cltValid = true := by
  unfold EngineOk; rw [hg]

theorem engineOk_drain (hg : s.engine = .drain L rem) :
    EngineOk s ↔ 0 < rem ∧ rem ≤ L.arg0.toNat ∧ s.err = true := by
  unfold EngineOk; rw [hg]

/-! ### Answers -/

/-- `r` answers a next state whose error state and engine fields are in range. -/
def AnswersOk (r : StepResult) : Prop := ∃ t, r = .next t ∧ ErrorOk t ∧ EngineOk t

theorem AnswersOk.next (herr : ErrorOk t) (hg : EngineOk t) : AnswersOk (.next t) := ⟨t, rfl, herr, hg⟩

theorem AnswersOk.idle (herr : ErrorOk t) (hg : t.engine = .idle) : AnswersOk (.next t) := .next herr (engineOk_idle hg)

/-- A step that raises and is done. -/
theorem AnswersOk.fail (herr : ErrorOk s) (he : e ≠ .noError) : AnswersOk (failWith e w .idle s) :=
  .idle (errorOk_raise (w := w) herr he) rfl

/-- A step that raises and drains what is left of its input. -/
theorem AnswersOk.failDrain (herr : ErrorOk s) (he : e ≠ .noError) (hrem : rem ≤ L.arg0.toNat) :
    AnswersOk (failWith e w (drainOrIdle L rem) s) := by
  rcases Nat.eq_zero_or_pos rem with rfl | hpos
  · exact .fail herr he
  · rw [drainOrIdle_pos hpos]
    exact .next (errorOk_raise (w := w) herr he) ((engineOk_drain rfl).mpr ⟨hpos, hrem, raise_err _ _ _⟩)

/-! ### The start steps (45_control R213) -/

/-- A code of a tree is at most MAX_CODE_LEN bits long (R47 item 7). -/
theorem codeIs_length_le {sym : Byte} {c : Code} (htree : TreeOk s) (hc : codeIs s.arena sym c) :
    c.length ≤ Config.maxCodeLen := by
  obtain ⟨i, hi, -⟩ := hc
  exact htree.depthLe c i hi

/-- The root of a tree is a Leaf or an Internal node (10_state R32). -/
theorem root_internal (htree : TreeOk s) (hroot : ∀ sym, s.arena.get 0 ≠ .leaf sym) :
    ∃ l r, s.arena.get 0 = .internal l r := by
  cases hnode : s.arena.get 0 with
  | free => exact absurd hnode (descend_notFree htree (descend_nil _ _))
  | leaf sym => exact absurd hnode (hroot sym)
  | internal l r => exact ⟨l, r, rfl⟩

/-- A tree with an Internal node has an Internal root, since a Leaf leads nowhere (R121). -/
theorem root_internal_of_internal {cur : NodeIdx} (htree : TreeOk s) (hcur : ∃ l r, s.arena.get cur = .internal l r) :
    ∃ l r, s.arena.get 0 = .internal l r := by
  obtain ⟨l, r, hnode⟩ := hcur
  refine root_internal htree fun sym hleaf => ?_
  obtain ⟨c, hc⟩ := path_exists htree.shape cur (by simp [hnode])
  rw [(leaf_descend hleaf hc).2, hleaf] at hnode
  cases hnode

theorem exec_treeInsert_answersOk {sym : Byte} {len : Nat} (h : Inv s) (hL : s.engine = .pending L)
    (hlen : len ≤ Config.maxCodeLen) : AnswersOk (exec (.treeInsert sym len) s) := by
  obtain ⟨t, ht, -⟩ := exec_treeInsert_treeOk (sym := sym) h.tree hL hlen
  rw [ht]
  rcases exec_treeInsert_next ht with ⟨e, he, info, hfail⟩ | ⟨arena, n, hdone⟩
  · rw [← hfail]
    exact .fail h.error (by rintro rfl; exact absurd he (by decide))
  · rw [← hdone]
    exact .idle h.error rfl

theorem exec_walk_answersOk {emit : Bool} (h : Inv s) (hL : s.engine = .pending L) :
    AnswersOk (exec (.walk emit) s) := by
  obtain ⟨t, leaves, ht, hframe, -, hleaves, -, hg⟩ := walkFillsTheTable s L emit h.tree hL
  have herr : ErrorOk t := by rw [hframe]; exact h.error
  refine ⟨t, ht, herr, ?_⟩
  split at hg
  next hlist =>
    exact (engineOk_walk hg).mpr ⟨hlist.2, fun r hr => codeIs_length_le h.tree ((hleaves r).mp hr), by rw [hframe]⟩
  next => exact engineOk_idle hg

theorem exec_lookup_answersOk {sym : Byte} (h : Inv s) (hL : s.engine = .pending L) :
    AnswersOk (exec (.lookup sym) s) := by
  cases hvalid : s.cltValid with
  | false => rw [exec_lookup_stale hL hvalid]; exact .fail h.error (by decide)
  | true =>
    cases hentry : s.clt.get (symIdx sym) with
    | none => rw [exec_lookup_absent hL hvalid hentry]; exact .idle h.error rfl
    | some c => rw [exec_lookup_found hL hvalid hentry]; exact .idle h.error rfl

theorem exec_encode_answersOk (h : Inv s) (hL : s.engine = .pending L) : AnswersOk (exec .encode s) := by
  cases hvalid : s.cltValid with
  | false => rw [exec_encode_stale hL hvalid]; exact .failDrain h.error (by decide) le_rfl
  | true =>
    rw [exec_encode_valid hL hvalid]
    split
    next hpos => exact .next h.error ((engineOk_enc rfl).mpr ⟨hpos, rfl, hvalid⟩)
    next => exact .idle h.error rfl

theorem exec_flush_answersOk (h : Inv s) (hL : s.engine = .pending L) : AnswersOk (exec .flush s) := by
  cases hready : flushReady s with
  | false => rw [exec_flush_waits hL hready]; exact .next h.error h.engine
  | true => rw [exec_flush_ready hL hready]; exact .idle h.error rfl

theorem exec_decode_answersOk (h : Inv s) (hL : s.engine = .pending L) : AnswersOk (exec .decode s) := by
  cases hroot : leafSym? s.arena 0 with
  | none =>
    have hinternal := leafSym_eq_none.mp hroot
    rw [exec_decode_internal hL hinternal]
    split
    next hpos =>
      exact .next h.error ((engineOk_dec rfl).mpr
        ⟨hpos, rfl, le_rfl, iff_of_true rfl rfl, root_internal (s := s) h.tree hinternal⟩)
    next => exact .idle h.error rfl
  | some sym =>
    have hleaf := leafSym_eq_some.mp hroot
    rw [exec_decode_rootLeaf hL hleaf]
    split
    next => exact .failDrain h.error (by decide) (ceil8_le _)
    next =>
      split
      next hpos => exact .next h.error ((engineOk_decLeaf rfl).mpr ⟨hpos, le_rfl, hleaf⟩)
      next => exact .idle h.error rfl

theorem exec_answersOk {i : Instr} (h : Inv s) (hL : s.engine = .pending L) (hd : decodeCmd L.word = .ok i) :
    AnswersOk (exec i s) := by
  obtain ⟨hwf, hformat⟩ := decodeCmd_wellFormed hd
  cases i with
  | nop => rw [exec_nop hL]; exact .idle h.error rfl
  | treeClear => exact ⟨_, startStep_pending hL _, h.error, engineOk_idle rfl⟩
  | treeInsert sym len => exact exec_treeInsert_answersOk h hL (of_decide_eq_true hwf)
  | walk emit => exact exec_walk_answersOk h hL
  | lookup sym => exact exec_lookup_answersOk h hL
  | encode => exact exec_encode_answersOk h hL
  | flush => exact exec_flush_answersOk h hL
  | decode => exact exec_decode_answersOk h hL
  | clearErr => rw [exec_clearErr hL]; exact .idle (errorOk_none rfl rfl rfl) rfl
  | encReset => rw [encResetResult.2 s L hL]; exact .idle h.error rfl
  | softReset => cases hformat
  | abort => cases hformat

theorem engineStep_pending_answersOk (h : Inv s) (hL : s.engine = .pending L) : AnswersOk (engineStep s) := by
  cases hd : decodeCmd L.word with
  | ok i => rw [engineStep_pending hL hd]; exact exec_answersOk h hL hd
  | error r =>
    rw [engineStep_illegal hL hd]
    split
    · exact .fail h.error (by decide)
    · exact .next h.error h.engine

/-! ### The beats (R218, R219) -/

theorem engineStep_enc_answersOk {j : Nat} (h : Inv s) (hg : s.engine = .enc L rem j) : AnswersOk (engineStep s) := by
  obtain ⟨hpos, hsum, hvalid⟩ := (engineOk_enc hg).mp h.engine
  cases hq : s.inQ with
  | nil => rw [engineStep_enc_noInput hg hq]; exact .next h.error h.engine
  | cons b rest =>
    have hdrain : rem - 1 ≤ L.arg0.toNat := by omega
    cases hentry : s.clt.get (symIdx b) with
    | none =>
      rw [engineStep_enc_input hg hq, hentry, encPushes_none, if_pos (Nat.zero_le _), 
        encByte_unknown (s := { s with inQ := rest }) hentry]
      exact .failDrain h.error (by decide) hdrain
    | some c =>
      rcases Nat.lt_or_ge Config.countMax (s.encBitcount.toNat + c.length) with hover | hfits
      · rw [engineStep_enc_input hg hq, hentry, encPushes_over hover, if_pos (Nat.zero_le _),
          encByte_overflow (s := { s with inQ := rest }) hentry hover]
        exact .failDrain h.error (by decide) hdrain
      · rcases Nat.lt_or_ge (outFree s) ((s.packCnt.val + c.length) / 8) with hfull | hroom
        · rw [(encodeBeatErrors s L rem j hg).2.2.2 b rest c hq hentry hfits hfull]
          exact .next h.error h.engine
        · rw [engineStep_enc_appends hg hq hentry hfits hroom]
          refine .next (by simpa [ErrorOk] using h.error) ?_
          by_cases hmore : 1 < rem
          · exact (engineOk_enc (if_pos hmore)).mpr ⟨by omega, by omega, by simpa using hvalid⟩
          · exact engineOk_idle (if_neg hmore)

/-- The end of a bit loop that has stopped at a NIL child or not at all (R193, R195, R196). -/
theorem decFinish_answersOk {scan : Scan} {remBits : Nat} (herr : ErrorOk s) (hrem : remBits ≤ L.arg0.toNat)
    (hstop : scan.stop = none ∨ scan.stop = some .invalidCode)
    (hgoes : scan.stop = none → remBits - min 8 remBits + scan.i = L.arg0.toNat ∧ scan.start ≤ scan.i ∧
      (scan.cur = 0 ↔ scan.start = scan.i) ∧ ∃ l r, s.arena.get scan.cur = .internal l r) :
    AnswersOk (decFinish L remBits scan s) := by
  unfold decFinish
  rcases hstop with hnone | hinvalid
  · rw [hnone]
    dsimp only
    split
    · split
      · exact .fail herr (by decide)
      · exact .idle herr rfl
    · exact .next herr ((engineOk_dec rfl).mpr ⟨by omega, hgoes hnone⟩)
  · rw [hinvalid]
    exact .failDrain herr (by decide) ((ceil8_le _).trans (by omega))

@[simp] theorem payloadBits_length (b : Byte) (n : Nat) : (payloadBits b n).length = min 8 n := by
  simp [payloadBits]

theorem engineStep_dec_answersOk {i start : Nat} {cur : NodeIdx} (h : Inv s) (hg : s.engine = .dec L rem i cur start) :
    AnswersOk (engineStep s) := by
  obtain ⟨hpos, hsum, hle, hzero, hcur⟩ := (engineOk_dec hg).mp h.engine
  cases hq : s.inQ with
  | nil => rw [engineStep_dec_noInput hg hq]; exact .next h.error h.engine
  | cons b rest =>
    rw [engineStep_dec_input hg hq]
    split
    · have hroot := root_internal_of_internal h.tree hcur
      obtain ⟨hstop, hgoes⟩ := scanBits_inv h.tree.shape hroot (payloadBits b rem) cur i start hcur hle hzero
      refine decFinish_answersOk h.error (by omega) hstop fun hnone => ?_
      obtain ⟨hi, hrest⟩ := hgoes hnone
      rw [payloadBits_length] at hi
      exact ⟨by omega, hrest⟩
    · exact .next h.error h.engine

theorem engineStep_decLeaf_answersOk {sym : Byte} (h : Inv s) (hg : s.engine = .decLeaf L rem sym) :
    AnswersOk (engineStep s) := by
  obtain ⟨hpos, hle, hleaf⟩ := (engineOk_decLeaf hg).mp h.engine
  rcases Nat.eq_zero_or_pos (outFree s) with hfull | hroom
  · rw [engineStep_decLeaf_full hg hfull]; exact .next h.error h.engine
  · rw [engineStep_decLeaf_room hg hroom]
    split
    next hmore => exact .next h.error ((engineOk_decLeaf rfl).mpr ⟨hmore, by omega, hleaf⟩)
    next => exact .idle h.error rfl

theorem engineStep_walk_answersOk {q : List Record} (h : Inv s) (hg : s.engine = .walk L q) :
    AnswersOk (engineStep s) := by
  obtain ⟨hne, hlen, hvalid⟩ := (engineOk_walk hg).mp h.engine
  cases q with
  | nil => exact absurd rfl hne
  | cons r rest =>
    rw [engineStep_walk hg]
    split
    · split
      next => exact .idle h.error rfl
      next hmore =>
        exact .next h.error ((engineOk_walk rfl).mpr ⟨hmore, fun x hx => hlen x (List.mem_cons_of_mem r hx), hvalid⟩)
    · exact .next h.error h.engine

theorem engineStep_drain_answersOk (h : Inv s) (hg : s.engine = .drain L rem) : AnswersOk (engineStep s) := by
  obtain ⟨hpos, hle, herr⟩ := (engineOk_drain hg).mp h.engine
  cases hq : s.inQ with
  | nil => rw [engineStep_drain_noInput hg hq]; exact .next h.error h.engine
  | cons b rest =>
    rw [engineStep_drain hg hq, drainOrIdle_pred]
    by_cases hmore : 1 < rem
    · rw [if_pos hmore]; exact .next h.error ((engineOk_drain rfl).mpr ⟨by omega, by omega, herr⟩)
    · rw [if_neg hmore]; exact .idle h.error rfl

/-- From a state with the invariant the engine's step answers, and keeps the error state and its own fields in range. -/
theorem engineStep_answersOk (h : Inv s) : AnswersOk (engineStep s) := by
  cases hg : s.engine with
  | idle => rw [engineStep_idle hg]; exact .next h.error h.engine
  | pending L => exact engineStep_pending_answersOk h hg
  | enc L rem j => exact engineStep_enc_answersOk h hg
  | dec L remBits i cur start => exact engineStep_dec_answersOk h hg
  | decLeaf L rem sym => exact engineStep_decLeaf_answersOk h hg
  | walk L q => exact engineStep_walk_answersOk h hg
  | drain L rem => exact engineStep_drain_answersOk h hg

end Sys2Proof.Machine
end

section
/-! The invariant (10_state R47): it holds at reset, and from a state with it every step of either agent answers a state
with it. -/

namespace Sys2Proof.Machine

variable {s t u : State} {a : HostStep}

/-! ### Reset (70_reset R290) -/

/-- Settles O46: the empty tree, a stale table, an empty packer, empty queues, no error and an IDLE engine. -/
theorem resetHasInvariant : Obligations.ResetHasInvariant where
  tree := treeOk_empty rfl rfl rfl
  table := fun hvalid => nomatch hvalid
  pack := packOk_empty rfl rfl rfl
  queues := ⟨Nat.zero_le _, Nat.zero_le _⟩
  error := errorOk_none rfl rfl rfl
  engine := engineOk_idle rfl

/-! ### What the invariant does not bear on -/

/-- The turns and what the host has seen are no part of the block (log 1, log 2). -/
theorem Inv.withAgents (h : Inv s) (ts : List Turn) (rs : List Response) :
    Inv { s with turns := ts, responses := rs } where
  tree := treeOk_congr h.tree rfl rfl rfl
  table := h.table
  pack := h.pack
  queues := h.queues
  error := h.error
  engine := h.engine

theorem Inv.respond (h : Inv s) (r : Response) : Inv (respond r s) := h.withAgents _ _

/-! ### The engine -/

theorem EngineMoves.packOk_queuesOk (hp : PackOk s) (hq : QueuesOk s) (hm : EngineMoves s t) :
    PackOk t ∧ QueuesOk t := by
  obtain ⟨u, he, ht⟩ := hm.frame
  rw [ht]
  exact ⟨(he.packOk hp :), (he.queuesOk hq :)⟩

/-- The parts of the invariant, each by its own lemma. -/
theorem engineStep_answers_inv (h : Inv s) : ∃ t, engineStep s = .next t ∧ Inv t := by
  obtain ⟨t, ht, herror, hengine⟩ := engineStep_answersOk h
  obtain ⟨htree, htable⟩ := engineStep_keeps_tree_and_table h.tree h.table ht
  obtain ⟨hpack, hqueues⟩ := (engineStep_moves ht).packOk_queuesOk h.pack h.queues
  exact ⟨t, ht, htree, htable, hpack, hqueues, herror, hengine⟩

/-! ### The host -/

/-- ABORT goes through `raise`, a reset leaves the reset state, and no other effect touches the tree, the table or the
error state. -/
theorem HostEffect.inv (h : Inv s) (he : HostEffect a s u) : Inv u := by
  have hpack := he.packOk h.pack
  have hqueues := he.queuesOk h.queues
  cases he with
  | latched L => exact ⟨treeOk_congr h.tree rfl rfl rfl, h.table, hpack, hqueues, h.error, engineOk_pending rfl⟩
  | aborted L _ =>
    exact ⟨treeOk_congr h.tree (by simp) (by simp) (by simp), tableOk_congr h.table (by simp) (by simp) (by simp),
      hpack, hqueues, errorOk_raise (w := L.word) h.error (by decide), engineOk_idle rfl⟩
  | blockReset _ => exact resetHasInvariant.withAgents s.turns s.responses
  | _ => exact ⟨treeOk_congr h.tree rfl rfl rfl, h.table, hpack, hqueues, h.error, h.engine⟩

/-- A CTRL write answers in every state: its actions have a meaning in each (30_encoding R94). -/
theorem ctrlWrite_answers (v : Word) (s : State) : ∃ t, ctrlWrite v s = .next t := by
  cases hd : decodeCtrl v with
  | error r => exact ⟨s, ctrlWrite_noAction hd s⟩
  | ok i =>
    rw [ctrlWrite_action hd]
    rcases decodeCtrl_action hd with rfl | rfl
    · exact ⟨_, rfl⟩
    · cases hL : latched? s.engine with
      | none => exact ⟨_, exec_abort_idle (latched_none.mp hL)⟩
      | some L => exact ⟨_, exec_abort_busy hL⟩

theorem writeEffect_answers (addr : BitVec 7) (v : Word) (s : State) : ∃ t, writeEffect addr v s = .next t := by
  unfold writeEffect
  split
  · exact ⟨_, rfl⟩
  · exact ctrlWrite_answers v s
  · exact ⟨_, rfl⟩
  · exact ⟨_, rfl⟩

/-- A host step answers in every state (20_memory R62 to R67). -/
theorem hostStep_answers (a : HostStep) (s : State) : ∃ t, hostStep a s = .next t := by
  cases a with
  | write addr n strb v =>
    rw [hostStep, memWrite]
    split
    · exact writeEffect_answers addr v _
    · exact ⟨_, rfl⟩
  | _ => exact ⟨_, rfl⟩

theorem hostStep_answers_inv (a : HostStep) (h : Inv s) : ∃ t, hostStep a s = .next t ∧ Inv t := by
  obtain ⟨t, ht⟩ := hostStep_answers a s
  obtain ⟨r, he⟩ := hostStep_effect ht
  exact ⟨t, ht, he.inv (h.respond r)⟩

/-! ### A step of either agent -/

/-- The induction step of every argument over runs: a state with the invariant is followed by one. -/
theorem step_answers_inv (h : Inv s) : ∃ t, step s = .next t ∧ Inv t := by
  cases hts : s.turns with
  | nil => rw [step_engine hts]; exact engineStep_answers_inv h
  | cons turn ts =>
    have htaken : Inv { s with turns := ts } := h.withAgents ts s.responses
    cases turn with
    | engine => rw [step_engineTurn hts]; exact engineStep_answers_inv htaken
    | host a => rw [step_hostTurn hts]; exact hostStep_answers_inv a htaken

/-- Settles O47: what `step_answers_inv` answers is what the step answers. -/
theorem stepKeepsInvariant : Obligations.StepKeepsInvariant := by
  intro s t hs h
  obtain ⟨t', ht', hinv⟩ := step_answers_inv hs
  cases ht'.symm.trans h
  exact hinv

/-- Settles O48: the first half of `step_answers_inv`. -/
theorem stepNeverStops : Obligations.StepNeverStops := by
  intro s hs
  obtain ⟨t, ht, -⟩ := step_answers_inv hs
  exact ⟨t, ht⟩

end Sys2Proof.Machine
end

section
/-! The error state between its writers (60_exceptions R262, R268) and the reset action (70_reset R290). -/

namespace Sys2Proof.Machine

variable {s t u : State}

/-! ### The first error stays (R262, R268) -/

/-- Settles O9: the two branches of `raise`. -/
theorem raiseKeepsTheFirstError : Obligations.RaiseKeepsTheFirstError :=
  fun _ e info => ⟨fun hfirst => raise_first hfirst e info, fun hlater => raise_later hlater e info⟩

/-- `t` has the error recorded that `s` has. -/
def SameError (s t : State) : Prop := t.err = s.err ∧ t.errcode = s.errcode ∧ t.errInfo = s.errInfo

/-- Of an engine step's effects only CLEAR_ERR's writes the error state. -/
theorem EngineEffect.sameError (he : EngineEffect s u) (hclear : ¬ starts s .clearErr) : SameError s u := by
  cases he with
  | errorCleared hs => exact absurd hs hclear
  | encoded b rest c _ _ _ => simp [SameError]
  | _ => exact ⟨rfl, rfl, rfl⟩

/-- Of a host step's effects only a reset touches a recorded error; ABORT's own error comes too late. -/
theorem HostEffect.sameError {a : HostStep} (he : HostEffect a s u) (hreset : resetsBlock a = false)
    (herr : s.err = true) : SameError s u := by
  cases he with
  | aborted L _ => rw [raise_later herr]; exact ⟨rfl, rfl, rfl⟩
  | blockReset hr => rw [hreset] at hr; cases hr
  | _ => exact ⟨rfl, rfl, rfl⟩

/-- Settles O55: an effect keeps the error, and `raise` keeps a recorded one. -/
theorem errorIsSticky : Obligations.ErrorIsSticky := by
  constructor
  · intro s t h herr hclear
    obtain ⟨u, g, he, hend⟩ := engineStep_moves h
    obtain ⟨hu, hcode, hinfo⟩ := he.sameError hclear
    have hrecorded : u.err = true := hu.trans herr
    rcases hend with rfl | ⟨e, w, rfl⟩
    · exact ⟨hrecorded, hcode, hinfo⟩
    · rw [raise_later hrecorded]
      exact ⟨hrecorded, hcode, hinfo⟩
  · intro a s t h hreset herr
    obtain ⟨r, he⟩ := hostStep_effect h
    obtain ⟨ht, hcode, hinfo⟩ := he.sameError hreset herr
    exact ⟨ht.trans herr, hcode, hinfo⟩

/-! ### The reset action (R290) -/

/-- A CTRL write with bit 0 set is SOFT_RESET (45_control R215). -/
theorem hostStep_writeCtrl_softReset {v : Word} (h0 : v.getLsbD 0 = true) (s : State) :
    hostStep (.write 0x08 4 0b1111#4 v) s = .next (blockReset (respond .written s)) :=
  (ctrlWriteActs s v).1 h0

/-- A block that was reset reads as `State.reset` in every register, whatever its turns and responses. -/
theorem readReg_blockReset (r : Reg) (s : State) : readReg r (blockReset s) = readReg r State.reset := by
  cases r <;> rfl

/-- Settles O12: the three ways to reset leave `blockReset` of the state; its fields are those of `State.reset`. -/
theorem resetResult : Obligations.ResetResult := by
  intro s
  refine ⟨blockReset s, rfl, fun v h0 => hostStep_writeCtrl_softReset h0 s, rfl, rfl, emptyArena_get 0, ?others, rfl,
    ?marks, ?leaves, ?entries, rfl, rfl, rfl, rfl, rfl, rfl, rfl, rfl, rfl, ?code, rfl, rfl, rfl, rfl, rfl, rfl,
    ?status, rfl, rfl, rfl, rfl⟩
  case others => exact fun i hi => (emptyArena_get i).trans (if_neg hi)
  case marks => exact fun sym => by simp [State.reset, Vector.get_eq_getElem]
  case leaves => simp [leafCount, State.reset, List.count_replicate]
  case entries => exact fun sym => by simp [State.reset, Vector.get_eq_getElem]
  case code => exact fun k => by simp [State.reset, Vector.get_eq_getElem]
  case status => exact (readReg_blockReset .status s).trans statusFields.1

end Sys2Proof.Machine
end

section
/-! Codes apart: in the block's tree (40_code_tree R123) and in a host tree (46_host_reference R236). -/

namespace Sys2Proof.Machine

/-- Settles O51: the longer code would lead on from a Leaf; and a symbol's code is unique by `code_unique`. -/
theorem codesArePrefixFree : Obligations.CodesArePrefixFree := by
  refine ⟨fun s sym sym' c c' _ hc hc' hprefix => ?_, fun s sym c c' htree => code_unique htree⟩
  obtain ⟨i, hi, hleaf⟩ := hc
  obtain ⟨j, hj, hleaf'⟩ := hc'
  obtain ⟨d, rfl⟩ := hprefix
  obtain ⟨k, hk, hd⟩ := descend_append.mp hj
  obtain rfl : k = i := Option.some.inj (hk.symm.trans hi)
  obtain ⟨rfl, rfl⟩ := leaf_descend hleaf hd
  rw [hleaf] at hleaf'
  exact ⟨Node.leaf.inj hleaf', (List.append_nil c).symm⟩

/-- Two codes in strict order first differ at a bit that both have, so neither begins the other. -/
theorem codesApart_of_codeBefore {c d : Code} (h : codeBefore c d = true) : CodesApart c d := by
  induction c generalizing d with
  | nil => cases h
  | cons b c ih =>
    cases d with
    | nil => cases b <;> cases h
    | cons b' d =>
      have hsame (hcd : codeBefore c d = true) (x : Bool) : CodesApart (x :: c) (x :: d) := by
        simpa [CodesApart, List.cons_prefix_cons] using ih hcd
      cases b <;> cases b'
      · exact hsame h false
      · simp [CodesApart, List.cons_prefix_cons]
      · cases h
      · exact hsame h true

/-- Settles O60: the leaves are listed in strict order of their codes. -/
theorem hostTreeCodesApart : Obligations.HostTreeCodesApart :=
  fun t => (hostLeafCodes_sorted t []).imp codesApart_of_codeBefore

end Sys2Proof.Machine
end

section
/-! Whole runs of ENCODE (43_encode R174): a run over several input bytes appends the codes of all of them at once. -/

namespace Sys2Proof.Machine

variable {s t : State} {L : Latched} {es : List (Byte × Code)} {rest : List Byte}

/-! ### Appending bits in several beats (R173) -/

theorem putBits_append (xs ys : List Bool) (s : State) : putBits (xs ++ ys) s = putBits ys (putBits xs s) := by
  induction xs generalizing s with
  | nil => rfl
  | cons x xs ih => exact ih (putBit x s)

theorem putBits_packCnt (xs : List Bool) (s : State) :
    (putBits xs s).packCnt.val = (s.packCnt.val + xs.length) % 8 := by
  induction xs generalizing s with
  | nil => exact (Nat.mod_eq_of_lt s.packCnt.isLt).symm
  | cons x xs ih =>
    rw [putBits, ih, (putBit_count x s).1, List.length_cons]
    omega

theorem putBit_withOthers (x : Bool) (g : Engine) (q : List Byte) (n : Word) (s : State) :
    putBit x { s with engine := g, inQ := q, encBitcount := n } =
      { putBit x s with engine := g, inQ := q, encBitcount := n } := by
  unfold putBit; dsimp only; split <;> rfl

/-- The packer does not see the engine state, the input and the count of bits. -/
theorem putBits_withOthers (xs : List Bool) (g : Engine) (q : List Byte) (n : Word) (s : State) :
    putBits xs { s with engine := g, inQ := q, encBitcount := n } =
      { putBits xs s with engine := g, inQ := q, encBitcount := n } := by
  induction xs generalizing s with
  | nil => rfl
  | cons x xs ih => rw [putBits, putBit_withOthers, ih, putBits]

/-- What an ENCODE beat does to the packer, out_q and ENC_BITCOUNT: the code is appended and its bits are counted
(R172). -/
def appendCode (c : Code) (s : State) : State :=
  { putBits c s with encBitcount := s.encBitcount + BitVec.ofNat 32 c.length }

theorem appendCode_nil (s : State) : appendCode [] s = s := by simp [appendCode, putBits]

theorem appendCode_withOthers (c : Code) (g : Engine) (q : List Byte) (s : State) :
    appendCode c { s with engine := g, inQ := q } = { appendCode c s with engine := g, inQ := q } := by
  have hput := putBits_withOthers c g q s.encBitcount s
  simp only [appendCode, hput]

theorem appendCode_append (c d : Code) (s : State) : appendCode d (appendCode c s) = appendCode (c ++ d) s := by
  have hd := putBits_withOthers d (putBits c s).engine (putBits c s).inQ
    (s.encBitcount + BitVec.ofNat 32 c.length) (putBits c s)
  simp only [appendCode, hd, putBits_append, List.length_append, BitVec.ofNat_add, BitVec.add_assoc]
  simp

/-! ### Runs of beats (R172, R174) -/

/-- An ENCODE beat with room for its code appends it; the engine state it had does not show in what it leaves. -/
theorem engineStep_appendCode {b : Byte} {c : Code} {rem j : Nat} (hentry : s.clt.get (symIdx b) = some c)
    (hfits : s.encBitcount.toNat + c.length ≤ Config.countMax) (hroom : (s.packCnt.val + c.length) / 8 ≤ outFree s) :
    engineStep (setEngine (.enc L (rem + 1) j) { s with inQ := b :: rest }) =
      .next (setEngine (if 0 < rem then .enc L rem (j + 1) else .idle) { appendCode c s with inQ := rest }) := by
  have hmore : (if 1 < rem + 1 then Engine.enc L (rem + 1 - 1) (j + 1) else .idle) =
      if 0 < rem then .enc L rem (j + 1) else .idle := if_congr Nat.succ_lt_succ_iff rfl rfl
  refine (engineStep_enc_appends (s := setEngine _ { s with inQ := b :: rest }) rfl rfl hentry hfits hroom).trans ?_
  exact congrArg Host.Outcome.next (congrArg₂ setEngine hmore (appendCode_withOthers c (.enc L (rem + 1) j) rest s))

/-- A run of ENCODE beats, with codes for its input, room for them and no overflow, appends the codes of all its
symbols. -/
theorem run_enc {j : Nat} (hturns : s.turns = []) (hes : ∀ e ∈ es, s.clt.get (symIdx e.1) = some e.2)
    (hfits : s.encBitcount.toNat + (es.flatMap (·.2)).length ≤ Config.countMax)
    (hroom : s.outQ.length + (s.packCnt.val + (es.flatMap (·.2)).length) / 8 ≤ Config.outDepth) :
    runSteps es.length
        (setEngine (if 0 < es.length then .enc L es.length j else .idle) { s with inQ := es.map (·.1) ++ rest }) =
      .next (setEngine .idle { appendCode (es.flatMap (·.2)) s with inQ := rest }) := by
  induction es generalizing s j with
  | nil => simp [appendCode_nil, run_zero]
  | cons e es ih =>
    obtain ⟨hentry, hes⟩ := List.forall_mem_cons.mp hes
    rw [List.flatMap_cons, List.length_append] at hfits hroom
    have hcount : (appendCode e.2 s).encBitcount.toNat = s.encBitcount.toNat + e.2.length :=
      addBitcount_toNat (by omega)
    have hcnt : (appendCode e.2 s).packCnt.val = (s.packCnt.val + e.2.length) % 8 := putBits_packCnt e.2 s
    have hout : (appendCode e.2 s).outQ.length = s.outQ.length + (s.packCnt.val + e.2.length) / 8 :=
      putBits_pushed_count e.2 s
    have hbeat := engineStep_appendCode (L := L) (rem := es.length) (j := j) (rest := es.map (·.1) ++ rest) hentry
      (by omega) (by unfold outFree; omega)
    rw [List.flatMap_cons, ← appendCode_append]
    refine (run_engineStep ?due hbeat).trans (ih ?turns ?entries ?fits ?room)
    case due => exact hturns
    case turns => simpa [appendCode] using hturns
    case entries => simpa [appendCode] using hes
    case fits => omega
    case room => omega

/-- A whole ENCODE, from its start step to its end (R171, R174). -/
theorem run_encode (hturns : s.turns = []) (hL : s.engine = .pending L) (hd : decodeCmd L.word = .ok .encode)
    (hvalid : s.cltValid = true) (hlen : L.arg0.toNat = es.length) (hq : s.inQ = es.map (·.1) ++ rest)
    (hes : ∀ e ∈ es, s.clt.get (symIdx e.1) = some e.2)
    (hfits : s.encBitcount.toNat + (es.flatMap (·.2)).length ≤ Config.countMax)
    (hroom : s.outQ.length + (s.packCnt.val + (es.flatMap (·.2)).length) / 8 ≤ Config.outDepth) :
    runSteps (1 + es.length) s = .next (setEngine .idle { appendCode (es.flatMap (·.2)) s with inQ := rest }) := by
  have hrun := run_enc (L := L) (j := 0) (rest := rest) hturns hes hfits hroom
  rw [← hq, ← hlen] at hrun
  rw [run_start hturns hL hd (exec_encode_valid hL hvalid), ← hlen]
  exact hrun

/-- Settles O29: the bits appended are those of `putBits_closed`, and `putBits_frame` is the rest. -/
theorem encodeRunResult : Obligations.EncodeRunResult := by
  intro s L es rest hpack hturns hL hd hvalid hlen hq hes hfits hroom
  obtain ⟨-, -, hheld, hout⟩ := putBits_closed (es.flatMap (·.2)) s hpack.1
  refine ⟨_, run_encode hturns hL hd hvalid hlen hq hes hfits hroom, ?_, hheld, packOk_putBits hpack⟩
  rw [appendCode, putBits_frame, hout]; rfl

end Sys2Proof.Machine
end

section
/-! A whole DECODE of codes (44_decode R197), a FLUSH (43_encode R176), and the two after an ENCODE (R198). -/

namespace Sys2Proof.Machine

variable {s : State} {L : Latched}

/-- Settles O34: the bit loop over the payload is back at the root when it ends, so nothing is raised. -/
theorem decodeRunResult : Obligations.DecodeRunResult := by
  intro s L es bytes rest _ hturns hL hd hroot hes hbits hq hlen hpayload hroom
  have hscan := scanBits_codes es 0 fun e he => ⟨code_ne_nil hroot (hes e he), hes e he⟩
  rw [← hpayload] at hscan
  rw [run_decode hturns hL hd hroot hq hlen hscan (by simp) (by simpa using hroom)]
  simp [decFinish, pushSyms, outPushAll, setEngine]

/-! ### The bytes of a closed stream (43_encode R174, R176) -/

/-- The whole bytes of a bit sequence and the packing of what is left make its packing (20_memory R69, R70). -/
theorem packBits_take_drop (bits : List Bool) (n : Nat) (hn : 8 * n ≤ bits.length) :
    (packBits bits).take n ++ packBits (bits.drop (8 * n)) = packBits bits := by
  induction n generalizing bits with
  | zero => rfl
  | succ n ih =>
    have hlen : (bits.take 8).length = 8 := List.length_take_of_le (by omega)
    have hpack : packBits bits = wordOfBits 8 (bits.take 8) :: packBits (bits.drop 8) := by
      rw [← packBits_eight _ _ hlen, List.take_append_drop]
    have hrest := ih (bits.drop 8) (by rw [List.length_drop]; omega)
    rw [List.drop_drop] at hrest
    rw [hpack, List.take_succ_cons, List.cons_append, Nat.mul_succ, Nat.add_comm, hrest]

/-- A FLUSH with room for its byte, as a run of one step (R176). -/
theorem run_flush (hturns : s.turns = []) (hL : s.engine = .pending L) (hd : decodeCmd L.word = .ok .flush)
    (hpack : PackOk s) (hroom : s.outQ.length + (packBits (heldBits s)).length ≤ Config.outDepth) :
    runSteps 1 s = .next { s with
      outQ := s.outQ ++ packBits (heldBits s)
      encLastbits := s.encBitcount, encBitcount := 0, packAcc := 0, packCnt := 0, engine := .idle } := by
  have hbytes : flushBytes s = packBits (heldBits s) := flushBytes_eq_packBits hpack.1
  have hready : flushReady s = true := by
    rw [flushReady, hbytes, decide_eq_true_iff]; unfold outFree; omega
  rw [run_one, step_engine hturns, engineStep_pending hL hd, exec_flush_ready hL hready, hbytes]
  rfl

/-- `s` with a closed stream of `bits` in out_q, its input taken and the engine IDLE. -/
def closedStream (bits : Code) (s : State) : State :=
  { s with
    inQ := [], outQ := packBits bits, packAcc := 0, packCnt := 0, encBitcount := 0
    encLastbits := BitVec.ofNat 32 bits.length, engine := .idle }

/-- ENCODE and then FLUSH, from an empty packer and an empty out_q: out_q holds the packing of the codes, and
ENC_LASTBITS their number of bits (R174, R176). -/
theorem run_encode_flush {LE LF : Latched} {es : List (Byte × Code)} {bits : Code} (hbits : es.flatMap (·.2) = bits)
    (hes : ∀ e ∈ es, s.clt.get (symIdx e.1) = some e.2) (hvalid : s.cltValid = true) (hacc : s.packAcc = 0)
    (hcnt : s.packCnt = 0) (hcount : s.encBitcount = 0) (hturns : s.turns = []) (hout : s.outQ = [])
    (hin : s.inQ = es.map (·.1)) (hLE : s.engine = .pending LE) (hdE : decodeCmd LE.word = .ok .encode)
    (hdF : decodeCmd LF.word = .ok .flush) (hlen : LE.arg0.toNat = es.length) (hlt : bits.length < 2 ^ 32)
    (hroom : ceil8 bits.length ≤ Config.outDepth) :
    ∃ t, runSteps (1 + es.length) s = .next t ∧
      runSteps 1 { t with engine := .pending LF } = .next (closedStream bits s) := by
  have hcntVal : s.packCnt.val = 0 := by rw [hcnt]; rfl
  have hcountVal : s.encBitcount.toNat = 0 := by rw [hcount]; rfl
  have hnone : heldBits s = [] := by rw [heldBits, hcntVal]; rfl
  have hwhole : bits.length / 8 ≤ ceil8 bits.length := Nat.le_add_right _ _
  obtain ⟨t, hrun, ht, hheld, hpack⟩ := encodeRunResult s LE es [] (packOk_empty hacc hcnt hcount) hturns hLE hdE
    hvalid hlen (by rw [hin, List.append_nil]) hes (by rw [hcountVal, hbits]; omega)
    (by rw [hout, hcntVal, hbits, Nat.zero_add, List.length_nil]; omega)
  simp only [hnone, hcntVal, hbits, hcount, hout, List.nil_append, zero_add] at ht hheld
  have htake : t.outQ = (packBits bits).take (bits.length / 8) := by rw [ht]
  have hbytes : t.outQ ++ packBits (heldBits t) = packBits bits := by
    rw [htake, hheld, packBits_take_drop bits _ (Nat.mul_div_le _ _)]
  have hfits : t.outQ.length + (packBits (heldBits t)).length ≤ Config.outDepth := by
    rw [← List.length_append, hbytes, packBits_length]; exact hroom
  have hturns' : t.turns = [] := by rw [ht]; exact hturns
  have hflush := run_flush (s := { t with engine := .pending LF }) hturns' rfl hdF hpack hfits
  refine ⟨t, hrun, hflush.trans (congrArg Host.Outcome.next ?_)⟩
  change { t with
    outQ := t.outQ ++ packBits (heldBits t)
    encLastbits := t.encBitcount, encBitcount := 0, packAcc := 0, packCnt := 0, engine := .idle } = closedStream bits s
  rw [hbytes, ht]; rfl

/-- Settles O38: ENCODE and FLUSH make the packing of the codes, whose first bits are the codes (`unpackBits_packBits`),
so that DECODE gives the symbols back. -/
theorem roundTrip : Obligations.RoundTrip := by
  intro s LE LF LD es htree htable hvalid hroot hes hacc hcnt hcount hturns hout hin hLE hdE hdF hdD hlenE hlenD
    hroomBytes hroomSyms
  generalize hbits : es.flatMap (·.2) = bits at hlenD hroomBytes
  have hentries : ∀ e ∈ es, s.clt.get (symIdx e.1) = some e.2 := fun e he => (htable hvalid e.1 e.2).mpr (hes e he)
  obtain ⟨t, hrunE, hrunF⟩ := run_encode_flush hbits hentries hvalid hacc hcnt hcount hturns hout hin hLE hdE
    hdF hlenE (hlenD ▸ LD.arg0.isLt) hroomBytes
  have hpayload : (unpackBits (packBits bits)).take LD.arg0.toNat = bits := by
    rw [unpackBits_packBits, hlenD, List.take_left]
  have hdecode := decodeRunResult { closedStream bits s with engine := .pending LD, inQ := packBits bits, outQ := [] }
    LD es (packBits bits) [] (treeOk_congr htree rfl rfl rfl) hturns rfl hdD hroot hes (by rw [hbits, hlenD])
    (List.append_nil _).symm (by rw [packBits_length, hlenD]) (by rw [hbits, hpayload]) (by simpa using hroomSyms)
  have hlastbits : BitVec.ofNat 32 bits.length = LD.arg0 := by
    rw [← hlenD, BitVec.ofNat_toNat, BitVec.setWidth_eq]
  exact ⟨t, _, _, hrunE, hrunF, hlastbits, hdecode, rfl, rfl, rfl, rfl⟩

end Sys2Proof.Machine
end

section
/-! Progress (45_control R220): with an input byte there and room for the largest push, a beat leaves fewer beats. -/

namespace Sys2Proof.Machine

variable {s t : State} {L : Latched} {rem : Nat}

/-! ### The beats left after a beat -/

theorem beatsLeft_drainOrIdle (L : Latched) (rem : Nat) : beatsLeft (drainOrIdle L rem) = rem := by
  unfold drainOrIdle
  split
  · rfl
  · exact (Nat.eq_zero_of_not_pos ‹_›).symm

/-- A step that raises leaves the beats of the engine state it sets. -/
theorem beatsLeft_failWith {e : ErrCode} {w : Word} {g : Engine} (h : failWith e w g s = .next t) :
    beatsLeft t.engine = beatsLeft g := by
  rw [failWith_next h]; rfl

/-! ### The largest push (R219) -/

/-- A record is at most 34 bytes long: a code has at most 255 bits (30_encoding R97). -/
theorem recordSize_le {r : Record} (h : r.code.length ≤ Config.maxCodeLen) : recordSize r ≤ 34 := by
  have hlen : r.code.length ≤ 255 := h
  unfold recordSize; rw [ceil8_eq]; omega

/-- An ENCODE beat pushes no more, since the table's codes are those of the tree (R172). -/
theorem encPushes_le (h : Inv s) (hvalid : s.cltValid = true) (b : Byte) :
    encPushes (s.clt.get (symIdx b)) s ≤ 34 := by
  have hcnt := s.packCnt.isLt
  cases hentry : s.clt.get (symIdx b) with
  | none => exact Nat.zero_le _
  | some c =>
    have hlen : c.length ≤ 255 := codeIs_length_le h.tree ((h.table hvalid b c).mp hentry)
    unfold encPushes
    dsimp only
    split <;> omega

/-- A DECODE beat pushes at most one symbol per payload bit of its byte. -/
theorem decPushes_le (b : Byte) (i start : Nat) (cur : NodeIdx) :
    (scanBits s.arena (payloadBits b rem) cur i start).syms.length ≤ 8 := by
  have := scanBits_syms_length s.arena (payloadBits b rem) cur i start
  rw [payloadBits_length] at this
  omega

/-! ### The beats -/

theorem encByte_progress {j : Nat} {b : Byte} (hpos : 0 < rem) (h : encByte L rem j b s = .next t) :
    beatsLeft t.engine < rem := by
  have hdrain : beatsLeft (drainOrIdle L (rem - 1)) < rem := by rw [beatsLeft_drainOrIdle]; omega
  cases hentry : s.clt.get (symIdx b) with
  | none =>
    rw [encByte_unknown hentry] at h
    rw [beatsLeft_failWith h]
    exact hdrain
  | some c =>
    rcases Nat.lt_or_ge Config.countMax (s.encBitcount.toNat + c.length) with hover | hfits
    · rw [encByte_overflow hentry hover] at h
      rw [beatsLeft_failWith h]
      exact hdrain
    · rw [encByte_appends hentry hfits] at h
      cases h
      dsimp only
      split
      · exact Nat.sub_lt hpos Nat.one_pos
      · exact hpos

theorem decFinish_progress {scan : Scan} (hpos : 0 < rem) (h : decFinish L rem scan s = .next t) :
    beatsLeft t.engine < ceil8 rem := by
  have hless : ceil8 (rem - min 8 rem) < ceil8 rem := by rw [ceil8_eq, ceil8_eq]; omega
  have hdrain : beatsLeft (drainOrIdle L (ceil8 (rem - min 8 rem))) < ceil8 rem := by
    rw [beatsLeft_drainOrIdle]; exact hless
  unfold decFinish at h
  dsimp only at h
  split at h
  · rw [beatsLeft_failWith h]; exact hdrain
  · rw [beatsLeft_failWith h]; exact hdrain
  · cases h
  · split at h
    · split at h
      · rw [beatsLeft_failWith h]; exact ceil8_pos hpos
      · cases h; exact ceil8_pos hpos
    · cases h; exact hless

/-- Settles O57: with the room given no beat waits, and what each sets leaves one beat less, or none. -/
theorem beatsMakeProgress : Obligations.BeatsMakeProgress := by
  intro s t hinv hidle hpending hin hroom h
  obtain ⟨b, rest, hq⟩ := List.exists_cons_of_ne_nil hin
  cases hg : s.engine with
  | idle => exact absurd hg hidle
  | pending L => exact absurd hg (hpending L)
  | enc L rem j =>
    obtain ⟨hpos, -, hvalid⟩ := (engineOk_enc hg).mp hinv.engine
    rw [engineStep_enc_input hg hq, if_pos ((encPushes_le hinv hvalid b).trans hroom)] at h
    exact encByte_progress hpos h
  | dec L rem i cur start =>
    obtain ⟨hpos, -⟩ := (engineOk_dec hg).mp hinv.engine
    rw [engineStep_dec_input hg hq, if_pos ((decPushes_le b i start cur).trans (by omega))] at h
    exact decFinish_progress hpos h
  | decLeaf L rem sym =>
    obtain ⟨hpos, -⟩ := (engineOk_decLeaf hg).mp hinv.engine
    rw [engineStep_decLeaf_room hg (by omega)] at h
    cases h
    rw [setEngine_engine]
    split
    · exact Nat.sub_lt hpos Nat.one_pos
    · exact hpos
  | walk L q =>
    obtain ⟨hne, hlen, -⟩ := (engineOk_walk hg).mp hinv.engine
    obtain ⟨r, records, rfl⟩ := List.exists_cons_of_ne_nil hne
    rw [engineStep_walk hg, if_pos ((recordSize_le (hlen r List.mem_cons_self)).trans hroom)] at h
    cases h
    rw [setEngine_engine]
    split
    · exact Nat.succ_pos _
    · exact Nat.lt_succ_self _
  | drain L rem =>
    obtain ⟨hpos, -⟩ := (engineOk_drain hg).mp hinv.engine
    rw [engineStep_drain hg hq] at h
    cases h
    exact (beatsLeft_drainOrIdle L (rem - 1)).trans_lt (Nat.sub_lt hpos Nat.one_pos)

end Sys2Proof.Machine
end
